-- ==== Sys2Proof/Word.lean ====
section
/-! DEFINITION. The word types of the display-controller block (spec 00_scope.md R8, 30_encoding.md R90). -/

namespace Sys2Proof

/-- A byte of the frame buffer or of the wire. -/
abbrev Byte := BitVec 8

/-- A 16-bit operand: a panel register index or value, a delay, a frame-buffer entry. -/
abbrev Half := BitVec 16

/-- A 36-bit microword (30_encoding.md R90). -/
abbrev Microword := BitVec 36

end Sys2Proof
end

