-- ==== Sys2Proof/Ports.lean ====
section
/-! DEFINITION. The four output pins and the input wires of the block (spec 10_state.md R31 to R37). -/

namespace Sys2Proof

/-- The four GPIO lines the block drives (10_state.md R31). -/
inductive Pin where
  /-- the panel's reset line -/
  | rst
  /-- command/data select: 0 command phase, 1 data phase -/
  | dc
  /-- chip select, active low -/
  | cs
  /-- backlight enable -/
  | bl
deriving DecidableEq, Repr

/-- The input wires of the block as sampled at ONE clock edge: `rst` (R37), the transport's answers (R33),
the request port (R32), the host's frame-buffer port (R34) and the color encoder (R35).
`fbSize` is 0 for a byte and 1 for a halfword. -/
structure EdgeIn where
  rst      : Bool
  txReady  : Bool
  txIdle   : Bool
  txFault  : Bool
  reqValid : Bool
  reqWord  : Microword
  fbEn     : Bool
  fbWe     : Bool
  fbSize   : Bool
  fbAddr   : Nat
  fbWdata  : Half
  ceR      : Byte
  ceG      : Byte
  ceB      : Byte
deriving DecidableEq, Repr, Inhabited

/-- An edge at which nothing happens at the ports: the transport is ready and idle and shows no fault,
and the host does nothing. -/
def EdgeIn.quiet : EdgeIn where
  rst := false
  txReady := true
  txIdle := true
  txFault := false
  reqValid := false
  reqWord := 0
  fbEn := false
  fbWe := false
  fbSize := false
  fbAddr := 0
  fbWdata := 0
  ceR := 0
  ceG := 0
  ceB := 0

end Sys2Proof
end

