-- ==== Sys2Proof/Config.lean ====
section
/-! DEFINITION. The implementation parameters (spec 00_scope.md R5) and the values the spec leaves open.
An `opaque` constant has no body: no proof can learn its value. -/

namespace Sys2Proof

/-- Clock polarity, clock phase and bit order of the transport: the parameter BUS_MODE. No rule of the
block reads it (00_scope.md R5, 93_implementation_defined.md I10). -/
structure BusMode where
  polarity : Bool
  phase    : Bool
  msbFirst : Bool
deriving DecidableEq, Repr, Inhabited

/-- An entry of INIT_TABLE: a register write or a delay (43_programs.md R204). -/
inductive TableEntry where
  | reg (index value : Half)
  | delay (ms : Half)
deriving DecidableEq, Repr

/-- The parameters of one instance, "all fixed for instance lifetime" (00_scope.md R5). FB_BYTES, the
widths, UROM_LEN and SHOW_ENTRY are computed from these in Machine/Params.lean. -/
structure Params where
  width       : Nat
  height      : Nat
  busHz       : Nat
  busMode     : BusMode
  clkPerMs    : Nat
  initTable   : List TableEntry
  initCsLevel : Bool
deriving DecidableEq, Repr

/-- The free parts of an INIT_TABLE that satisfies 43_programs.md R204: register writes, with at least
one to the power group (`power`), then the delay of 40 ms, register writes, the delay of 10 ms, register
writes, the delay of 50 ms, register writes. A `Fin 39` counts the indexes of R204's groups, a `Fin 5`
those of the power group. -/
structure TableShape where
  lead  : List (Fin 39 × Half)
  power : Fin 5 × Half
  more  : List (Fin 39 × Half)
  mid   : List (Fin 39 × Half)
  late  : List (Fin 39 × Half)
  tail  : List (Fin 39 × Half)
deriving DecidableEq, Repr, Inhabited

namespace Config

/-- DESIGN CHOICE (log 2), safe: the free parts of the OPEN parameter INIT_TABLE (93 I8). -/
opaque tableShape : TableShape

/-- DESIGN CHOICE (log 2), safe: the OPEN parameter CLK_PER_MS less one, so that CLK_PER_MS is any
integer of at least 1 (00_scope.md R5, 93 I9). -/
opaque clkPerMsLessOne : Nat

/-- DESIGN CHOICE (log 23), safe: the OPEN parameter BUS_MODE (93 I10). -/
opaque busMode : BusMode

/-- DESIGN CHOICE (log 1), safe: what the outside agents do at the `n`-th clock edge, where State's list
of inputs does not say. -/
opaque freeEdge : Nat → EdgeIn

/-- DESIGN CHOICE (log 4), safe: the byte that frame-buffer address `a` holds until something writes it
(10_state.md R44 "every byte may hold any value"). -/
opaque fbPowerUp : Nat → Byte

/-- DESIGN CHOICE (log 6), safe: `fb_rdata` after an access that failed at the `n`-th clock edge
(20_memory.md R68 "holds any value"). -/
opaque freeRdata : Nat → Half

/-- DESIGN CHOICE (log 13), safe: whether the transport kept a byte it accepted at the `n`-th clock edge
when a transport fault hit that edge (93 I2). -/
opaque cutByteReached : Nat → Bool

end Config

end Sys2Proof
end

