-- ==== Sys2Proof/Syntax.lean ====
section
/-! DEFINITION. The microwords as syntax: one constructor for each row of spec/opcode_table.json. -/

namespace Sys2Proof

/-- The sixteen operation codes (30_encoding.md R91). -/
inductive Opcode where
  | nop | wreg | wcmd | wdat | delay | pins | fill | stream
  | endProg | init | showFb | powerOff | powerOn | contrast | invert | rotate
deriving DecidableEq, Repr

/-- Where a microword comes from: the microprogram ROM or the request port (30_encoding.md R91). -/
inductive Context where
  | urom
  | host
deriving DecidableEq, Repr

/-- A well-formed microword with its operands (30_encoding.md R92). -/
inductive Instr where
  /-- NOP: no phase -/
  | nop
  /-- WREG: write `value` to panel register `index` -/
  | wreg (index value : Half)
  /-- WCMD: command phase only -/
  | wcmd (index : Half)
  /-- WDAT: data phase only -/
  | wdat (value : Half)
  /-- DELAY: wait at least `ms` milliseconds -/
  | delay (ms : Half)
  /-- PINS: drive the pins of `mask` to their bits of `levels` -/
  | pins (mask levels : BitVec 4)
  /-- FILL: write `value` to every entry of the frame buffer -/
  | fill (value : Half)
  /-- STREAM: send the frame buffer as one data phase -/
  | stream
  /-- END: end the running microprogram -/
  | endProg
  /-- INIT: run the init microprogram -/
  | init
  /-- SHOW: run the show microprogram -/
  | showFb
  /-- POWER_OFF: no action -/
  | powerOff
  /-- POWER_ON: no action -/
  | powerOn
  /-- CONTRAST: no action, `arg` ignored -/
  | contrast (arg : Half)
  /-- INVERT: no action, `arg` ignored -/
  | invert (arg : Half)
  /-- ROTATE: no action, `arg` ignored -/
  | rotate (arg : Half)
deriving DecidableEq, Repr

/-- The operation code of a microword. -/
def Instr.opcode : Instr → Opcode
  | .nop => .nop
  | .wreg _ _ => .wreg
  | .wcmd _ => .wcmd
  | .wdat _ => .wdat
  | .delay _ => .delay
  | .pins _ _ => .pins
  | .fill _ => .fill
  | .stream => .stream
  | .endProg => .endProg
  | .init => .init
  | .showFb => .showFb
  | .powerOff => .powerOff
  | .powerOn => .powerOn
  | .contrast _ => .contrast
  | .invert _ => .invert
  | .rotate _ => .rotate

end Sys2Proof
end

