-- ==== Sys2Proof/WellFormed.lean ====
section
/-! DEFINITION. The checks that the spec makes of a microword's context (30_encoding.md R91, R95), of the
init table (43_programs.md R204) and of the parameters (00_scope.md R5, R6). -/

namespace Sys2Proof

/-- Column "legal from UROM" of 30_encoding.md R91. -/
def Opcode.legalRom : Opcode → Bool
  | .nop | .wreg | .wcmd | .wdat | .delay | .pins | .fill | .stream | .endProg => true
  | .init | .showFb | .powerOff | .powerOn | .contrast | .invert | .rotate => false

/-- Column "legal from host" of 30_encoding.md R91. -/
def Opcode.legalHost : Opcode → Bool
  | .delay | .pins | .fill | .stream | .endProg => false
  | .nop | .wreg | .wcmd | .wdat | .init | .showFb | .powerOff | .powerOn | .contrast | .invert | .rotate => true

/-- Legality of an operation code in a context. -/
def Opcode.legalIn : Context → Opcode → Bool
  | .urom, op => op.legalRom
  | .host, op => op.legalHost

/-- A microword is well-formed for its context when its OP is legal there (30_encoding.md R95, item 1;
item 2, the must-be-0 bits, is the decoder's). -/
def Instr.wellFormed (c : Context) (i : Instr) : Bool := i.opcode.legalIn c

/-- A register index of the power-control group 0x10 to 0x14 (43_programs.md R204). -/
def powerIndex (i : Half) : Bool := 0x10 ≤ i.toNat && i.toNat ≤ 0x14

/-- A register index of one of the groups that 43_programs.md R204, condition 2, lists. -/
def groupIndex (i : Half) : Bool :=
  powerIndex i ||
  (0x01 ≤ i.toNat && i.toNat ≤ 0x03) ||
  (0x07 ≤ i.toNat && i.toNat ≤ 0x0F) ||
  (0x20 ≤ i.toNat && i.toNat ≤ 0x21) ||
  (0x30 ≤ i.toNat && i.toNat ≤ 0x39) ||
  (0x50 ≤ i.toNat && i.toNat ≤ 0x59)

/-- The delays of a table, in order. -/
def TableEntry.delays : List TableEntry → List Half
  | [] => []
  | .reg _ _ :: t => TableEntry.delays t
  | .delay ms :: t => ms :: TableEntry.delays t

/-- Condition 2 of 43_programs.md R204 for one entry. -/
def TableEntry.indexOk : TableEntry → Bool
  | .reg i _ => groupIndex i
  | .delay _ => true

/-- Whether a power-group write comes before the first delay (condition 3 of 43_programs.md R204: under
condition 1 the first delay is that of 40 ms). -/
def TableEntry.powerFirst : List TableEntry → Bool
  | [] => false
  | .reg i _ :: t => powerIndex i || TableEntry.powerFirst t
  | .delay _ :: _ => false

/-- A well-formed INIT_TABLE (43_programs.md R204). -/
def tableWellFormed (t : List TableEntry) : Bool :=
  decide (TableEntry.delays t = [40, 10, 50]) && t.all TableEntry.indexOk && TableEntry.powerFirst t

/-- Legal parameter values (00_scope.md R5, R6; 43_programs.md R204). A block is elaborated only from
these. -/
def Params.legal (p : Params) : Bool :=
  decide (1 ≤ p.width) && decide (p.width ≤ 65536) &&
  decide (1 ≤ p.height) && decide (p.height ≤ 65536) &&
  decide (1 ≤ p.clkPerMs) && tableWellFormed p.initTable

end Sys2Proof
end

