-- ==== Sys2Proof/Decode.lean ====
section
/-! DEFINITION. Decoding and encoding of microwords (spec 30_encoding.md R90 to R97). The decoder is total on
36-bit words: it gives the instruction, or the operation code whose must-be-0 bits are not all 0. -/

namespace Sys2Proof

/-- The value of OP for each operation (30_encoding.md R91). -/
def Opcode.code : Opcode → BitVec 4
  | .nop => 0x0
  | .wreg => 0x1
  | .wcmd => 0x2
  | .wdat => 0x3
  | .delay => 0x4
  | .pins => 0x5
  | .fill => 0x6
  | .stream => 0x7
  | .endProg => 0x8
  | .init => 0x9
  | .showFb => 0xA
  | .powerOff => 0xB
  | .powerOn => 0xC
  | .contrast => 0xD
  | .invert => 0xE
  | .rotate => 0xF

/-- The operation a value of OP stands for: all sixteen values are assigned (30_encoding.md R91, R96). -/
def Opcode.ofCode (c : BitVec 4) : Opcode :=
  match c.toNat with
  | 0 => .nop
  | 1 => .wreg
  | 2 => .wcmd
  | 3 => .wdat
  | 4 => .delay
  | 5 => .pins
  | 6 => .fill
  | 7 => .stream
  | 8 => .endProg
  | 9 => .init
  | 10 => .showFb
  | 11 => .powerOff
  | 12 => .powerOn
  | 13 => .contrast
  | 14 => .invert
  | _ => .rotate

/-- Field OP, bits 35:32 (30_encoding.md R90). -/
def fieldOp (uw : Microword) : BitVec 4 := uw.extractLsb' 32 4

/-- Field A, bits 31:16 (30_encoding.md R90). -/
def fieldA (uw : Microword) : Half := uw.extractLsb' 16 16

/-- Field B, bits 15:0 (30_encoding.md R90). -/
def fieldB (uw : Microword) : Half := uw.extractLsb' 0 16

/-- The operation of a microword. -/
def opcodeOf (uw : Microword) : Opcode := Opcode.ofCode (fieldOp uw)

/-- Why a word is not a microword: a must-be-0 bit is set (30_encoding.md R95, R96). The OP is kept, since
a host request is judged by it (45_host_ops.md R262). -/
inductive DecodeError where
  | reservedBits (op : Opcode)
deriving DecidableEq, Repr

/-- A row of spec/opcode_table.json as 30_encoding.md R97 reads it. -/
structure OpRow where
  mask     : Microword
  word     : Microword
deriving DecidableEq, Repr

/-- The mask and the match value of spec/opcode_table.json for each operation. -/
def opTable : Opcode → OpRow
  | .nop      => ⟨0xFFFFFFFFF, 0x000000000⟩
  | .wreg     => ⟨0xF00000000, 0x100000000⟩
  | .wcmd     => ⟨0xF0000FFFF, 0x200000000⟩
  | .wdat     => ⟨0xFFFFF0000, 0x300000000⟩
  | .delay    => ⟨0xFFFFF0000, 0x400000000⟩
  | .pins     => ⟨0xFFFF0FFF0, 0x500000000⟩
  | .fill     => ⟨0xFFFFF0000, 0x600000000⟩
  | .stream   => ⟨0xFFFFFFFFF, 0x700000000⟩
  | .endProg  => ⟨0xFFFFFFFFF, 0x800000000⟩
  | .init     => ⟨0xFFFFFFFFF, 0x900000000⟩
  | .showFb   => ⟨0xFFFFFFFFF, 0xA00000000⟩
  | .powerOff => ⟨0xFFFFFFFFF, 0xB00000000⟩
  | .powerOn  => ⟨0xFFFFFFFFF, 0xC00000000⟩
  | .contrast => ⟨0xFFFFF0000, 0xD00000000⟩
  | .invert   => ⟨0xFFFFF0000, 0xE00000000⟩
  | .rotate   => ⟨0xFFFFF0000, 0xF00000000⟩

/-- Item 2 of 30_encoding.md R95, `(uw & mask) == match` for the row of the word's OP: the `ok` of R97. -/
def reservedClear (uw : Microword) : Bool :=
  decide (uw &&& (opTable (opcodeOf uw)).mask = (opTable (opcodeOf uw)).word)

/-- The instruction of an operation and its two operand fields (30_encoding.md R92, R93): the mask of
PINS is A[3:0] and its levels are B[3:0]. -/
def buildInstr (op : Opcode) (a b : Half) : Instr :=
  match op with
  | .nop => .nop
  | .wreg => .wreg a b
  | .wcmd => .wcmd a
  | .wdat => .wdat b
  | .delay => .delay b
  | .pins => .pins (a.extractLsb' 0 4) (b.extractLsb' 0 4)
  | .fill => .fill b
  | .stream => .stream
  | .endProg => .endProg
  | .init => .init
  | .showFb => .showFb
  | .powerOff => .powerOff
  | .powerOn => .powerOn
  | .contrast => .contrast b
  | .invert => .invert b
  | .rotate => .rotate b

/-- The decoder, total on 36-bit words (30_encoding.md R97). -/
def decode (uw : Microword) : Except DecodeError Instr :=
  if reservedClear uw then .ok (buildInstr (opcodeOf uw) (fieldA uw) (fieldB uw))
  else .error (.reservedBits (opcodeOf uw))

/-- A microword from its three fields (30_encoding.md R90). -/
def packWord (op : BitVec 4) (a b : Half) : Microword := op ++ a ++ b

/-- The fields A and B of a well-formed instruction (30_encoding.md R92). -/
def Instr.operandFields : Instr → Half × Half
  | .nop => (0, 0)
  | .wreg index value => (index, value)
  | .wcmd index => (index, 0)
  | .wdat value => (0, value)
  | .delay ms => (0, ms)
  | .pins mask levels => (mask.setWidth 16, levels.setWidth 16)
  | .fill value => (0, value)
  | .stream => (0, 0)
  | .endProg => (0, 0)
  | .init => (0, 0)
  | .showFb => (0, 0)
  | .powerOff => (0, 0)
  | .powerOn => (0, 0)
  | .contrast arg => (0, arg)
  | .invert arg => (0, arg)
  | .rotate arg => (0, arg)

/-- The encoder: the word of an instruction (30_encoding.md R90 to R92). -/
def encode (i : Instr) : Microword :=
  packWord i.opcode.code i.operandFields.1 i.operandFields.2

/-- A word is well-formed for a context (30_encoding.md R95): its OP is legal there and its must-be-0
bits are 0. -/
def wordWellFormed (c : Context) (uw : Microword) : Bool :=
  (opcodeOf uw).legalIn c && reservedClear uw

/-- The microword that a numbered word of spec/opcode_table.json stands for: bit 0 of the table is bit 0
of the microword, and a microword has no other word (30_encoding.md R90). Bits above the row's are 0. -/
def tableWord (nbits w : Nat) : Option Microword :=
  if w % 2 ^ nbits < 2 ^ 36 then some (BitVec.ofNat 36 (w % 2 ^ nbits)) else none

/-- What the decoder reads from a numbered word of the opcode table. -/
def decodeTableWord (nbits w : Nat) : Option Instr :=
  match tableWord nbits w with
  | some uw =>
    match decode uw with
    | .ok i => some i
    | .error _ => none
  | none => none

end Sys2Proof
end

