-- ==== Sys2Proof/Machine/Params.lean ====
section
/-! DEFINITION. What is computed from the parameters: sizes and widths (spec 00_scope.md R5, R6), the tables
that satisfy R204, and the contents of UROM (43_programs.md R205, R207, R211, R213). -/

namespace Sys2Proof

/-- FB_BYTES = 2·W·H (00_scope.md R6). -/
def Params.fbBytes (p : Params) : Nat := 2 * p.width * p.height

/-- `max(1, ceil(log2 n))`, the number of bits that count `n` values (00_scope.md R5). -/
def bitsFor (n : Nat) : Nat := if n ≤ 2 then 1 else (n - 1).log2 + 1

/-- FB_ADDR_W (00_scope.md R5). -/
def Params.fbAddrW (p : Params) : Nat := bitsFor p.fbBytes

/-- PRE_W (00_scope.md R5). -/
def Params.preW (p : Params) : Nat := bitsFor p.clkPerMs

/-- UROM_LEN = 32 + len(INIT_TABLE) (43_programs.md R213). -/
def Params.uromLen (p : Params) : Nat := 32 + p.initTable.length

/-- UPC_W (00_scope.md R5). -/
def Params.upcW (p : Params) : Nat := bitsFor (p.uromLen + 1)

/-- INIT_ENTRY (43_programs.md R213). -/
def initEntry : Nat := 0

/-- SHOW_ENTRY = 22 + len(INIT_TABLE) (43_programs.md R213). -/
def Params.showEntry (p : Params) : Nat := 22 + p.initTable.length

/-- `H − 1` as a 16-bit value (43_programs.md R207). -/
def Params.lastRow (p : Params) : Half := BitVec.ofNat 16 (p.height - 1)

/-- `W − 1` as a 16-bit value (43_programs.md R207). -/
def Params.lastColumn (p : Params) : Half := BitVec.ofNat 16 (p.width - 1)

/-- The 39 register indexes of the groups of 43_programs.md R204, in rising order. -/
def groupIndexes : List Half :=
  [0x01, 0x02, 0x03, 0x07, 0x08, 0x09, 0x0A, 0x0B, 0x0C, 0x0D, 0x0E, 0x0F, 0x10, 0x11, 0x12, 0x13, 0x14,
   0x20, 0x21, 0x30, 0x31, 0x32, 0x33, 0x34, 0x35, 0x36, 0x37, 0x38, 0x39,
   0x50, 0x51, 0x52, 0x53, 0x54, 0x55, 0x56, 0x57, 0x58, 0x59]

/-- A register entry from a counted index. -/
def TableShape.entry (r : Fin 39 × Half) : TableEntry := .reg (groupIndexes.getD r.1.val 0x01) r.2

/-- The table of a shape: its three delays are 40, 10 and 50 ms (43_programs.md R204). -/
def TableShape.table (t : TableShape) : List TableEntry :=
  t.lead.map TableShape.entry ++
  [.reg (0x10 + BitVec.ofNat 16 t.power.1.val) t.power.2] ++ t.more.map TableShape.entry ++ [.delay 40] ++
  t.mid.map TableShape.entry ++ [.delay 10] ++ t.late.map TableShape.entry ++ [.delay 50] ++
  t.tail.map TableShape.entry

/-- The default parameters, with the OPEN ones free (00_scope.md R5; log 2). -/
def Params.default : Params where
  width := 220
  height := 176
  busHz := 32000000
  busMode := Config.busMode
  clkPerMs := Config.clkPerMsLessOne + 1
  initTable := Config.tableShape.table
  initCsLevel := false

/-- The microword of a table entry (43_programs.md R205). -/
def TableEntry.instr : TableEntry → Instr
  | .reg i v => .wreg i v
  | .delay ms => .delay ms

/-- S+0 to S+8 of 43_programs.md R207: the show microprogram without its END. -/
def Params.showBody (p : Params) : List Instr :=
  [.wreg 0x0003 0x1018,
   .wreg 0x0036 p.lastRow, .wreg 0x0037 0,
   .wreg 0x0038 p.lastColumn, .wreg 0x0039 0,
   .wreg 0x0020 p.lastRow, .wreg 0x0021 0,
   .wcmd 0x0022, .stream]

/-- The show microprogram (43_programs.md R207). -/
def Params.showProgram (p : Params) : List Instr := p.showBody ++ [.endProg]

/-- Steps (a) to (c) of the init microprogram, indexes 0 to 8 (43_programs.md R211). -/
def Params.initHead (p : Params) : List Instr :=
  [.pins 0x7 (if p.initCsLevel then 0x4 else 0x0), .delay 150,
   .pins 0x1 0x1, .delay 150, .pins 0x1 0x0, .delay 150, .pins 0x1 0x1, .delay 50,
   .pins 0x8 0x0]

/-- Steps (f), (g) and the return, indexes 19+L to 21+L (43_programs.md R211). -/
def initTail : List Instr := [.delay 50, .pins 0x8 0x8, .endProg]

/-- The init microprogram (43_programs.md R211). -/
def Params.initProgram (p : Params) : List Instr :=
  p.initHead ++ p.initTable.map TableEntry.instr ++ [.fill 0x0000] ++ p.showBody ++ initTail

/-- The instructions of UROM in order: INIT at index 0, SHOW after it (43_programs.md R213). -/
def Params.uromProgram (p : Params) : List Instr := p.initProgram ++ p.showProgram

/-- The contents of UROM, fixed when the block is elaborated (10_state.md R39, 43_programs.md R213). -/
def Params.urom (p : Params) : List Microword := p.uromProgram.map encode

end Sys2Proof
end

