-- ==== Sys2Proof/Machine/State.lean ====
section
/-! DEFINITION. The state of one instance as plain data (spec 10_state.md R20 to R44), the reasons a step may
stop, and the state after reset. -/

namespace Sys2Proof.Machine

/-- The top-level mode of the sequencer (10_state.md R21). -/
inductive Mode where
  | idle
  | busy
  | fault
deriving DecidableEq, Repr

/-- What BUSY is executing (10_state.md R22). -/
inductive Prog where
  | noProg
  | initProg
  | showProg
  | hostOp
deriving DecidableEq, Repr

/-- The causes of 60_exceptions.md R280; codes 6 to 15 are reserved and have no name. -/
inductive Cause where
  | xportFault
  | illegalOp
  | reservedBits
  | uromDecode
  | uromRange
deriving DecidableEq, Repr

/-- An event of the observation trace (10_state.md R40). -/
inductive Event where
  /-- the pin changed to the level -/
  | pin (p : Pin) (level : Bool)
  /-- the transport accepted the byte while DC was at the level -/
  | byte (b : Byte) (dc : Bool)
  /-- a wait of so many milliseconds completed -/
  | wait (ms : Half)
  /-- the block entered FAULT with the cause code -/
  | fault (code : BitVec 4)
  /-- a block reset happened -/
  | reset
deriving DecidableEq, Repr

/-- An action of the sequencer (00_scope.md R9, R10; 40_phase_sequencer.md R120). `sendFb` and `fillByte`
take their address from the byte counter `sc`; `waiting` is a `waitMs` whose counters are loaded. -/
inductive Action where
  /-- SetPin(p, v) -/
  | setPin (p : Pin) (level : Bool)
  /-- Send(b) -/
  | send (b : Byte)
  /-- the Send of STREAM that carries FB[sc] (42_framebuffer_ops.md R172, R173) -/
  | sendFb
  /-- Drain -/
  | drain
  /-- WaitMs(n), not begun -/
  | waitMs (ms : Half)
  /-- WaitMs(n), begun: the delay FSM is counting (41_delay_and_pins.md R152) -/
  | waiting (ms : Half)
  /-- the write of FILL to FB[sc]: the low byte of the value at an even address, the high byte at an odd
  one (42_framebuffer_ops.md R170) -/
  | fillByte (value : Half)
  /-- Finish, the action of END (43_programs.md R201) -/
  | finish
deriving DecidableEq, Repr

/-- The frame buffer as the bytes that something has written: pairs of an address and a byte, addresses
strictly rising. An unlisted address has no entry here and reads as its free power-up byte (log 4). -/
abbrev Memory := List Host.Cell

/-- The state of one instance. -/
structure State where
  /-- the parameters (00_scope.md R5), fixed: no step writes them (log 2) -/
  cfg       : Params
  /-- UROM (10_state.md R39), fixed: no step writes it (log 3) -/
  urom      : List Microword
  /-- R21 -/
  mode      : Mode
  /-- R22 -/
  prog      : Prog
  /-- R23: index of the next microword to fetch -/
  upc       : Nat
  /-- R24: the microword being executed -/
  uw        : Microword
  /-- R25: the actions the current microword has not yet performed -/
  pending   : List Action
  /-- R27: byte counter of the fill and stream engines -/
  sc        : Nat
  /-- R28: whole milliseconds still to wait -/
  dlyMs     : Half
  /-- R28: clock cycles left in the current millisecond -/
  dlyPre    : Nat
  /-- R29: the register behind `tx_data` -/
  txb       : Byte
  /-- R29: the register behind `tx_valid` -/
  txv       : Bool
  /-- R31: bit 0 RST, 1 DC, 2 CS, 3 BL -/
  pins      : BitVec 4
  /-- R30 -/
  initDone  : Bool
  /-- R30, sticky -/
  reqErr    : Bool
  /-- R30: code of the last fault or rejection (60_exceptions.md R280) -/
  errCode   : BitVec 4
  /-- R38: the frame buffer -/
  fb        : Memory
  /-- R40: what the panel's wires carried, oldest first -/
  trace     : List Event
  /-- R34, 20_memory.md R66: the registered read data of the host port -/
  fbRdata   : Half
  /-- R34, 20_memory.md R66: the registered error of the host port -/
  fbErr     : Bool
  /-- R43: bytes the transport has accepted and not yet shifted out, oldest first (log 12) -/
  xportHeld : List Byte
  /-- 70_reset_and_hazards.md R320: whether the edge just past had `rst = 1` (log 8) -/
  rstHeld   : Bool
  /-- the MODEL's own: the input wires at the coming clock edges, next first (log 1) -/
  inputs    : List EdgeIn
  /-- the MODEL's own: clock edges so far, the argument of the free values (log 1) -/
  edge      : Nat
deriving DecidableEq, Repr

/-- Why a step stops. The block's FAULT mode is no stop: it is a state (60_exceptions.md R283). -/
inductive Fault where
  /-- Raised by the fill and stream engines when the byte counter has passed the end of the frame buffer
  (20_memory.md R78: no such byte exists). Safe: no state that a run reaches raises it (log 16). -/
  | noSuchFrameBufferByte
deriving DecidableEq, Repr

/-- Why an instruction is given no meaning. -/
inductive Refusal where
  /-- Raised by `exec` for an instruction that has no meaning yet. Safe. No arm raises it. -/
  | notModelled (mnemonic : String)
deriving DecidableEq, Repr

/-- The state right after reset of an instance with parameters `p` (10_state.md R44, 43_programs.md R213).
`fb` lists nothing, so every byte holds any value. `fbRdata`, `fbErr`: log 5; `rstHeld`: log 8. -/
def State.powerOn (p : Params) : State where
  cfg := p
  urom := p.urom
  mode := .busy
  prog := .initProg
  upc := initEntry
  uw := 0
  pending := []
  sc := 0
  dlyMs := 0
  dlyPre := 0
  txb := 0
  txv := false
  pins := 0b0100
  initDone := false
  reqErr := false
  errCode := 0
  fb := []
  trace := [.reset]
  fbRdata := 0
  fbErr := false
  xportHeld := []
  rstHeld := true
  inputs := []
  edge := 0

/-- The state right after reset of the block at its default parameters. -/
def State.reset : State := State.powerOn Params.default

/-- A block is elaborated only from legal parameters: anything else is refused before any step
(00_scope.md R6, 43_programs.md R204). -/
def State.elaborate (p : Params) : Option State := if p.legal then some (State.powerOn p) else none

end Sys2Proof.Machine
end

