-- ==== Sys2Proof/Machine/Flags.lean ====
section
/-! DEFINITION. The status flags and the cause codes: every way the spec writes them (10_state.md R30, R36;
60_exceptions.md R280; 45_host_ops.md R261 to R263). -/

namespace Sys2Proof.Machine

/-- The code of a cause (60_exceptions.md R280). Code 0 is NONE. -/
def Cause.code : Cause → BitVec 4
  | .xportFault => 1
  | .illegalOp => 2
  | .reservedBits => 3
  | .uromDecode => 4
  | .uromRange => 5

/-- The flags of an accepted request: `req_err` and `err_code` cleared (45_host_ops.md R261). -/
def State.clearErrors (s : State) : State := { s with reqErr := false, errCode := 0 }

/-- The flags of a rejected request, and nothing else (45_host_ops.md R262). -/
def State.reject (c : Cause) (s : State) : State := { s with reqErr := true, errCode := c.code }

/-- A request turned away in FAULT: `req_err` is set and `err_code` keeps the fault's cause
(45_host_ops.md R263). -/
def State.refuseInFault (s : State) : State := { s with reqErr := true }

/-- The cause a request that is not well-formed is rejected with: ILLEGAL_OP if its OP is not legal from
the host, else RESERVED_BITS (45_host_ops.md R262, 60_exceptions.md R292). -/
def malformedCause (op : Opcode) : Cause := if op.legalHost then .reservedBits else .illegalOp

/-- END sets `init_done` at the end of INIT only (43_programs.md R201). -/
def initDoneAtEnd (s : State) : Bool := s.initDone || decide (s.prog = .initProg)

/-- One bit as a bit vector. -/
def bit1 (b : Bool) : BitVec 1 := BitVec.ofBool b

/-- `status[7:0]` = ERR_CODE, REQ_ERR, FAULT, INIT_DONE, BUSY (10_state.md R36). -/
def status (s : State) : BitVec 8 :=
  s.errCode ++ bit1 s.reqErr ++ bit1 (decide (s.mode = .fault)) ++ bit1 s.initDone ++
    bit1 (decide (s.mode = .busy))

/-- `req_ready` = 1 exactly when `mode` is IDLE or FAULT (10_state.md R32). -/
def reqReady (s : State) : Bool := decide (s.mode ≠ .busy)

end Sys2Proof.Machine
end

