-- ==== Sys2Proof/Machine/Operands.lean ====
section
/-! DEFINITION. Operands and the action lists they expand into (spec 30_encoding.md R93, R94, R98, R99;
20_memory.md R76). -/

namespace Sys2Proof.Machine

/-- `v[15:8]`. -/
def highByte (v : Half) : Byte := v.extractLsb' 8 8

/-- `v[7:0]`. -/
def lowByte (v : Half) : Byte := v.extractLsb' 0 8

/-- `{hi, lo}`. -/
def halfOf (hi lo : Byte) : Half := hi ++ lo

/-- The bytes sent for a 16-bit operand, high byte first (20_memory.md R76, 30_encoding.md R93). -/
def wireBytes (v : Half) : List Byte := [highByte v, lowByte v]

/-- The bit of `pins` that a pin is, and of the mask and levels of PINS (10_state.md R31,
30_encoding.md R94). -/
def pinBit : Pin → Nat
  | .rst => 0
  | .dc => 1
  | .cs => 2
  | .bl => 3

/-- The order in which one PINS moves its pins (41_delay_and_pins.md R155, R156). -/
def pinOrder : List Pin := [.rst, .dc, .cs, .bl]

/-- A phase at a DC level around the actions that send its bytes: DC, CS low, the bytes, Drain, CS high
(30_encoding.md R98, 40_phase_sequencer.md R128). -/
def phaseOf (dc : Bool) (sends : List Action) : List Action :=
  [.setPin .dc dc, .setPin .cs false] ++ sends ++ [.drain, .setPin .cs true]

/-- `Phase(d, bs)` (30_encoding.md R98). -/
def phase (dc : Bool) (bytes : List Byte) : List Action := phaseOf dc (bytes.map .send)

/-- The command phase of a register index (40_phase_sequencer.md R122, R123). -/
def commandPhase (index : Half) : List Action := phase false (wireBytes index)

/-- The data phase of a value (40_phase_sequencer.md R122, R124). -/
def dataPhase (value : Half) : List Action := phase true (wireBytes value)

/-- The action PINS performs for one pin: none if its mask bit is 0, whatever its level bit
(41_delay_and_pins.md R155, 30_encoding.md R94). -/
def pinAction (mask levels : BitVec 4) (p : Pin) : Option Action :=
  if mask.getLsbD (pinBit p) then some (.setPin p (levels.getLsbD (pinBit p))) else none

/-- The actions of PINS, in the order RST, DC, CS, BL (41_delay_and_pins.md R155). -/
def pinActions (mask levels : BitVec 4) : List Action := pinOrder.filterMap (pinAction mask levels)

/-- The actions of FILL: one byte each (42_framebuffer_ops.md R170, R171). -/
def fillActions (p : Params) (value : Half) : List Action := List.replicate p.fbBytes (.fillByte value)

/-- The actions of STREAM: one data phase with every byte of the frame buffer
(42_framebuffer_ops.md R172). -/
def streamActions (p : Params) : List Action := phaseOf true (List.replicate p.fbBytes .sendFb)

/-- The byte FILL writes at an address (42_framebuffer_ops.md R170). -/
def fillByteAt (value : Half) (a : Nat) : Byte := if a % 2 = 0 then lowByte value else highByte value

end Sys2Proof.Machine
end

