-- ==== Sys2Proof/Machine/Ops.lean ====
section
/-! DEFINITION. The named operations over memory and registers that the meanings and the sequencer share:
the frame buffer and its host port (20_memory.md), pins and transport registers (40_phase_sequencer.md R120),
the delay counters (41_delay_and_pins.md R152), entering FAULT (60_exceptions.md R283) and leaving it
(60 R288, 43_programs.md R202), accepting and completing microwords (45_host_ops.md R261,
40_phase_sequencer.md R126), and reset (70_reset_and_hazards.md R320). -/

namespace Sys2Proof.Machine

/-! ### The frame buffer -/

/-- The one definition of what an address that memory does not list holds: no written byte. Such a byte of
the frame buffer reads as its free power-up value, see `fbByte` (log 4). -/
def Memory.unlisted : Option Byte := none

/-- The entry of an address. -/
def Memory.entry : Memory → Nat → Option Byte
  | [], _ => Memory.unlisted
  | (b, v) :: m, a => if b = a then some v else Memory.entry m a

/-- Writing one byte, keeping the addresses strictly rising. -/
def Memory.write : Memory → Nat → Byte → Memory
  | [], a, v => [(a, v)]
  | (b, w) :: m, a, v =>
    if a < b then (a, v) :: (b, w) :: m
    else if a = b then (a, v) :: m
    else (b, w) :: Memory.write m a v

/-- The canonical form: addresses strictly rising. (No entry can equal what an unlisted address holds,
which is no entry.) -/
abbrev Memory.wf (m : Memory) : Prop := m.Pairwise (fun x y => x.1 < y.1)

/-- `FB[a]`, also `MemRead(a, 1)` (20_memory.md R64): the last byte written, else the free power-up byte
(20_memory.md R80, 10_state.md R44; log 4). -/
def fbByte (m : Memory) (a : Nat) : Byte := (Memory.entry m a).getD (Config.fbPowerUp a)

/-- `MemRead(a, 2)` = {FB[a+1], FB[a]} (20_memory.md R64). -/
def fbHalf (m : Memory) (a : Nat) : Half := halfOf (fbByte m (a + 1)) (fbByte m a)

/-- `MemWrite(a, 2, v)` (20_memory.md R64). -/
def fbWriteHalf (m : Memory) (a : Nat) (v : Half) : Memory :=
  Memory.write (Memory.write m a (lowByte v)) (a + 1) (highByte v)

/-! ### The host's frame-buffer port -/

/-- A host access fails: a halfword at an odd address, or an access past the end
(20_memory.md R66 to R68). -/
def hostAccessFails (p : Params) (i : EdgeIn) : Bool :=
  if i.fbSize then decide (i.fbAddr % 2 = 1) || decide (p.fbBytes ≤ i.fbAddr + 1)
  else decide (p.fbBytes ≤ i.fbAddr)

/-- What a host read returns (20_memory.md R66, R68). -/
def hostReadValue (m : Memory) (i : EdgeIn) : Half :=
  if i.fbSize then fbHalf m i.fbAddr else (fbByte m i.fbAddr).setWidth 16

/-- What a host write leaves in the frame buffer (20_memory.md R67, R68). -/
def hostWritten (m : Memory) (i : EdgeIn) : Memory :=
  if i.fbSize then fbWriteHalf m i.fbAddr i.fbWdata else Memory.write m i.fbAddr (lowByte i.fbWdata)

/-- One edge of the host's frame-buffer port (20_memory.md R66 to R69): its only effects are on the frame
buffer and on its own registered outputs. After a failed access `fb_rdata` is a free value (log 6); a
write that succeeds leaves `fb_rdata` as it was (log 6). -/
def State.hostPort (i : EdgeIn) (s : State) : State :=
  if i.fbEn then
    if hostAccessFails s.cfg i then { s with fbErr := true, fbRdata := Config.freeRdata s.edge }
    else if i.fbWe then { s with fbErr := false, fb := hostWritten s.fb i }
    else { s with fbErr := false, fbRdata := hostReadValue s.fb i }
  else s

/-! ### Trace, pins and transport -/

/-- `Emit(e)` (00_scope.md R9, 10_state.md R40). -/
def State.emit (e : Event) (s : State) : State := { s with trace := s.trace ++ [e] }

/-- The level of a pin (10_state.md R31). -/
def pinLevel (pins : BitVec 4) (p : Pin) : Bool := pins.getLsbD (pinBit p)

/-- The pins register with one pin at a level. -/
def withPin (pins : BitVec 4) (p : Pin) (v : Bool) : BitVec 4 :=
  if v then pins ||| BitVec.twoPow 4 (pinBit p) else pins &&& ~~~ BitVec.twoPow 4 (pinBit p)

/-- The body of `SetPin(p, v)`, after its hold: it emits only on a change (40_phase_sequencer.md R120). -/
def State.drivePin (p : Pin) (v : Bool) (s : State) : State :=
  if pinLevel s.pins p = v then s
  else { s with pins := withPin s.pins p v, trace := s.trace ++ [.pin p v] }

/-- The start of a `Send`: the byte is offered to the transport (40_phase_sequencer.md R120,
10_state.md R29). -/
def State.offer (b : Byte) (s : State) : State := { s with txb := b, txv := true }

/-- The acceptance that ends a `Send`: the event, and the byte is the transport's
(40_phase_sequencer.md R120, 10_state.md R43). -/
def State.accepted (s : State) : State :=
  { s with
    txv := false
    trace := s.trace ++ [.byte s.txb (pinLevel s.pins .dc)]
    xportHeld := s.xportHeld ++ [s.txb] }

/-- `sc` counts one byte of the frame buffer (42_framebuffer_ops.md R170, R172). -/
def State.countByte (s : State) : State := { s with sc := s.sc + 1 }

/-- An edge at which the transport reports idle: every byte it has accepted has been completely shifted
out (10_state.md R33; log 12). -/
def State.noteIdle (i : EdgeIn) (s : State) : State :=
  if i.txIdle then { s with xportHeld := [] } else s

/-- The write of FILL to the address `sc` (42_framebuffer_ops.md R170). -/
def State.fillStore (v : Half) (s : State) : State :=
  { s with fb := Memory.write s.fb s.sc (fillByteAt v s.sc) }

/-- Replacing the list of actions still to perform. -/
def State.withPending (l : List Action) (s : State) : State := { s with pending := l }

/-! ### The delay FSM (41_delay_and_pins.md R152) -/

/-- The start cycle. -/
def State.loadDelay (ms : Half) (s : State) : State :=
  { s with dlyMs := ms, dlyPre := s.cfg.clkPerMs - 1 }

/-- A later cycle that does not complete the wait. -/
def State.countDelay (s : State) : State :=
  if s.dlyPre = 0 then { s with dlyPre := s.cfg.clkPerMs - 1, dlyMs := s.dlyMs - 1 }
  else { s with dlyPre := s.dlyPre - 1 }

/-! ### Taking a fault and leaving it -/

/-- `raise Fault(c)`, the one way into FAULT (60_exceptions.md R283). The pins, `req_err`, `upc`, `uw`,
`sc`, the delay counters and `FB` keep their values. -/
def State.raiseFault (c : Cause) (s : State) : State :=
  { s with
    mode := .fault
    prog := .noProg
    pending := []
    txv := false
    initDone := false
    errCode := c.code
    trace := s.trace ++ [.fault c.code] }

/-- A transport fault (60_exceptions.md R284): Fault(1). Whether the transport kept a byte it accepted at
this very edge is a free value; no `Byte` event is emitted (93 I2; log 13). -/
def State.transportFault (i : EdgeIn) (s : State) : State :=
  let held := if s.txv && i.txReady && Config.cutByteReached s.edge then s.xportHeld ++ [s.txb] else s.xportHeld
  { s.raiseFault .xportFault with xportHeld := held }

/-- The start of the init microprogram, from IDLE or from FAULT: the one way out of FAULT but reset
(43_programs.md R202, 60_exceptions.md R288). -/
def State.enterInit (s : State) : State :=
  { s with
    initDone := false
    reqErr := false
    errCode := 0
    mode := .busy
    prog := .initProg
    upc := initEntry }

/-- The start of the show microprogram (43_programs.md R203). -/
def State.enterShow (s : State) : State :=
  { s with
    reqErr := false
    errCode := 0
    mode := .busy
    prog := .showProg
    upc := s.cfg.showEntry }

/-! ### Dispatching a microword -/

/-- Where a microword that is being executed came from: the sequencer fetches only in BUSY, and the
request port takes a word only in IDLE and FAULT (43_programs.md R200, 45_host_ops.md R260; log 14). -/
def State.context (s : State) : Context := if s.mode = .busy then .urom else .host

/-- A microword fetched from UROM begins: its actions are pending (43_programs.md R200). -/
def State.begin (acts : List Action) (s : State) : State := { s with pending := acts }

/-- A request that is no program start is accepted in IDLE (45_host_ops.md R261). -/
def State.acceptRequest (i : Instr) (acts : List Action) (s : State) : State :=
  { s with
    reqErr := false
    errCode := 0
    uw := encode i
    mode := .busy
    prog := .hostOp
    pending := acts }

/-- The fill and stream engines start counting at 0 (42_framebuffer_ops.md R171; log 17). -/
def State.resetCounter (s : State) : State := { s with sc := 0 }

/-- A microword that is legal from UROM and from the host (30_encoding.md R91): its actions begin, or the
request is accepted, or it is turned away in FAULT. -/
def runEither (i : Instr) (acts : List Action) (s : State) : Host.Outcome State Fault Refusal :=
  match s.mode with
  | .busy => .next (s.begin acts)
  | .idle => .next (s.acceptRequest i acts)
  | .fault => .next s.refuseInFault

/-- A microword that is legal only from UROM (30_encoding.md R91): the host's is rejected with code 2, or
turned away in FAULT (45_host_ops.md R262, R263). -/
def runFromRom (acts : List Action) (s : State) : Host.Outcome State Fault Refusal :=
  match s.mode with
  | .busy => .next (s.begin acts)
  | .idle => .next (s.reject .illegalOp)
  | .fault => .next s.refuseInFault

/-- A request that is legal only from the host (30_encoding.md R91) and is accepted only in IDLE: fetched
from UROM it raises Fault(4) (60_exceptions.md R282); in FAULT it is turned away. -/
def runFromHost (accepted : State) (s : State) : Host.Outcome State Fault Refusal :=
  match s.mode with
  | .busy => .next (s.raiseFault .uromDecode)
  | .idle => .next accepted
  | .fault => .next s.refuseInFault

/-- The end of a program, the body of `Finish` (43_programs.md R201). -/
def State.finishProgram (s : State) : State :=
  { s with
    initDone := initDoneAtEnd s
    mode := .idle
    prog := .noProg }

/-- The completion of a host microword (40_phase_sequencer.md R126). -/
def State.completeHostOp (s : State) : State := { s with mode := .idle, prog := .noProg }

/-! ### Reset and the clock edge -/

/-- An edge with `rst = 1`: every element takes its reset value but `FB`, which keeps what it holds; the
event is appended once for each run of such edges (70_reset_and_hazards.md R320). The transport is reset
with the block and holds no byte (70 R324; log 12). -/
def State.resetEdge (inReset : Bool) (s : State) : State :=
  { s with
    mode := .busy
    prog := .initProg
    upc := initEntry
    uw := 0
    pending := []
    sc := 0
    dlyMs := 0
    dlyPre := 0
    txb := 0
    txv := false
    pins := 0b0100
    initDone := false
    reqErr := false
    errCode := 0
    trace := if inReset then s.trace else s.trace ++ [.reset]
    xportHeld := [] }

/-- The input wires at the coming edge: the list's next sample, else a free one (log 1). -/
def State.nextInput (s : State) : EdgeIn :=
  match s.inputs with
  | i :: _ => i
  | [] => Config.freeEdge s.edge

/-- The model's own bookkeeping of one edge: its inputs are used up, it is counted, and whether it was a
reset edge is noted (log 1, log 8). -/
def State.tick (i : EdgeIn) (s : State) : State :=
  { s with inputs := s.inputs.tail, edge := s.edge + 1, rstHeld := i.rst }

/-- The fetched word is in `uw` and `upc` counts it (43_programs.md R200). -/
def State.fetched (w : Microword) (s : State) : State := { s with uw := w, upc := s.upc + 1 }

end Sys2Proof.Machine
end

