-- ==== Sys2Proof/Machine/Actions.lean ====
section
/-! DEFINITION. One action of the sequencer at one clock edge (spec 00_scope.md R10, 40_phase_sequencer.md R120,
R121, R131, 41_delay_and_pins.md R152, 42_framebuffer_ops.md R170, R172, 70_reset_and_hazards.md R340).
The state an action is performed in is the state after the host's access of this edge, so what an action leaves
is the state at the start of the next cycle. -/

namespace Sys2Proof.Machine

/-- The dispatch of the head of `pending` (S_ACT of 70_reset_and_hazards.md R340): a `Send` at the head
starts at once, so `txv = 1` exactly while a `Send` holds (10_state.md R29). The Send of STREAM reads its
byte once, in its first cycle (42_framebuffer_ops.md R173), which begins at this edge: it sees the frame
buffer at the start of that cycle (20_memory.md R73), with every write of this edge in it (log 9, log 10). -/
def dispatchHead (s : State) : Host.Outcome State Fault Refusal :=
  match s.pending with
  | .send b :: _ => .next (s.offer b)
  | .sendFb :: _ => if s.sc < s.cfg.fbBytes then .next (s.offer (fbByte s.fb s.sc)) else .fault .noSuchFrameBufferByte
  | _ => .next s

/-- The head action has been performed: the next one is dispatched. -/
def advance (rest : List Action) (s : State) : Host.Outcome State Fault Refusal :=
  dispatchHead (s.withPending rest)

/-- `SetPin(p, v)` holds until the transport is idle (40_phase_sequencer.md R120, R121). -/
def performSetPin (i : EdgeIn) (p : Pin) (v : Bool) (rest : List Action) (s : State) :
    Host.Outcome State Fault Refusal :=
  if i.txIdle then advance rest (s.drivePin p v) else .next s

/-- `Send(b)` holds until the transport takes the byte (40_phase_sequencer.md R120, R131). A `Send` that
was not dispatched (no run reaches that) starts now. -/
def performSend (i : EdgeIn) (rest : List Action) (s : State) :
    Host.Outcome State Fault Refusal :=
  if s.txv then
    if i.txReady then advance rest s.accepted else .next s
  else dispatchHead s

/-- The `Send` of STREAM: as `Send`, and `sc` counts the byte (42_framebuffer_ops.md R172). -/
def performSendFb (i : EdgeIn) (rest : List Action) (s : State) :
    Host.Outcome State Fault Refusal :=
  if s.txv then
    if i.txReady then advance rest s.accepted.countByte else .next s
  else dispatchHead s

/-- `Drain` holds until the transport is idle (40_phase_sequencer.md R120, R131). -/
def performDrain (i : EdgeIn) (rest : List Action) (s : State) :
    Host.Outcome State Fault Refusal :=
  if i.txIdle then advance rest s else .next s

/-- The start cycle of `WaitMs(n)` (41_delay_and_pins.md R152). -/
def performWaitMs (ms : Half) (rest : List Action) (s : State) : Host.Outcome State Fault Refusal :=
  .next ((s.loadDelay ms).withPending (.waiting ms :: rest))

/-- A later cycle of `WaitMs(n)`: it completes when no whole millisecond is left, and emits `Wait(n)`
(41_delay_and_pins.md R150, R152). -/
def performWaiting (ms : Half) (rest : List Action) (s : State) :
    Host.Outcome State Fault Refusal :=
  if s.dlyMs = 0 then advance rest (s.emit (.wait ms)) else .next s.countDelay

/-- One byte of FILL (42_framebuffer_ops.md R170, R171). -/
def performFillByte (v : Half) (rest : List Action) (s : State) :
    Host.Outcome State Fault Refusal :=
  if s.sc < s.cfg.fbBytes then advance rest (s.fillStore v).countByte else .fault .noSuchFrameBufferByte

/-- `Finish` (43_programs.md R201). -/
def performFinish (rest : List Action) (s : State) : Host.Outcome State Fault Refusal :=
  advance rest s.finishProgram

/-- The head action of `pending` at one edge. -/
def perform (i : EdgeIn) (a : Action) (rest : List Action) (s : State) :
    Host.Outcome State Fault Refusal :=
  match a with
  | .setPin p v => performSetPin i p v rest s
  | .send _ => performSend i rest s
  | .sendFb => performSendFb i rest s
  | .drain => performDrain i rest s
  | .waitMs ms => performWaitMs ms rest s
  | .waiting ms => performWaiting ms rest s
  | .fillByte v => performFillByte v rest s
  | .finish => performFinish rest s

end Sys2Proof.Machine
end

