-- ==== Sys2Proof/Machine/DelayPins.lean ====
section
/-! DEFINITION. DELAY and PINS (spec 41_delay_and_pins.md R150, R155). -/

namespace Sys2Proof.Machine

/-- DELAY: wait at least `ms` milliseconds (R150). -/
def execDelay (ms : Half) (s : State) : Host.Outcome State Fault Refusal := runFromRom [.waitMs ms] s

/-- PINS: drive the masked pins (R155). -/
def execPins (mask levels : BitVec 4) (s : State) : Host.Outcome State Fault Refusal :=
  runFromRom (pinActions mask levels) s

end Sys2Proof.Machine
end

