-- ==== Sys2Proof/Machine/FrameBuffer.lean ====
section
/-! DEFINITION. FILL and STREAM (spec 42_framebuffer_ops.md R170 to R175). Both count `sc` from 0. -/

namespace Sys2Proof.Machine

/-- A frame-buffer engine legal only from UROM: its actions are pending and `sc` starts at 0 (R171;
log 17). -/
def runEngine (acts : List Action) (s : State) : Host.Outcome State Fault Refusal :=
  match s.mode with
  | .busy => runFromRom acts s.resetCounter
  | .idle => runFromRom acts s
  | .fault => runFromRom acts s

/-- FILL: write the value to every entry (R170). -/
def execFill (value : Half) (s : State) : Host.Outcome State Fault Refusal :=
  runEngine (fillActions s.cfg value) s

/-- STREAM: send the whole frame buffer as one data phase (R172). -/
def execStream (s : State) : Host.Outcome State Fault Refusal := runEngine (streamActions s.cfg) s

end Sys2Proof.Machine
end

