-- ==== Sys2Proof/Machine/Phase.lean ====
section
/-! DEFINITION. The phase sequencer's microwords NOP, WREG, WCMD and WDAT (spec 40_phase_sequencer.md R122 to
R125). A meaning is the start of its microword: the sequencer then performs the pending actions one at a
time (00_scope.md R10; log 14). -/

namespace Sys2Proof.Machine

/-- NOP: no action (R125). -/
def execNop (s : State) : Host.Outcome State Fault Refusal := runEither .nop [] s

/-- WREG: a command phase with the index, a data phase with the value (R122). -/
def execWreg (index value : Half) (s : State) : Host.Outcome State Fault Refusal :=
  runEither (.wreg index value) (commandPhase index ++ dataPhase value) s

/-- WCMD: a command phase only (R123). -/
def execWcmd (index : Half) (s : State) : Host.Outcome State Fault Refusal :=
  runEither (.wcmd index) (commandPhase index) s

/-- WDAT: a data phase only (R124). -/
def execWdat (value : Half) (s : State) : Host.Outcome State Fault Refusal :=
  runEither (.wdat value) (dataPhase value) s

end Sys2Proof.Machine
end

