-- ==== Sys2Proof/Machine/Programs.lean ====
section
/-! DEFINITION. END, INIT and SHOW (spec 43_programs.md R201 to R203). -/

namespace Sys2Proof.Machine

/-- END: its one action ends the running program (R201). -/
def execEndProg (s : State) : Host.Outcome State Fault Refusal := runFromRom [.finish] s

/-- INIT: run the init microprogram. It is the one request accepted in FAULT (R202, 45_host_ops.md R263);
from UROM it is illegal (60_exceptions.md R282). -/
def execInit (s : State) : Host.Outcome State Fault Refusal :=
  match s.mode with
  | .busy => .next (s.raiseFault .uromDecode)
  | .idle => .next s.enterInit
  | .fault => .next s.enterInit

/-- SHOW: run the show microprogram (R203). -/
def execShowFb (s : State) : Host.Outcome State Fault Refusal := runFromHost s.enterShow s

end Sys2Proof.Machine
end

