-- ==== Sys2Proof/Machine/Stubs.lean ====
section
/-! DEFINITION. The no-op extension points (spec 45_host_ops.md R265 to R269): accepted with no action, which
is the effect the spec gives them (93_implementation_defined.md I6). -/

namespace Sys2Proof.Machine

/-- POWER_OFF (R265). -/
def execPowerOff (s : State) : Host.Outcome State Fault Refusal := runFromHost (s.acceptRequest .powerOff []) s

/-- POWER_ON (R266). -/
def execPowerOn (s : State) : Host.Outcome State Fault Refusal := runFromHost (s.acceptRequest .powerOn []) s

/-- CONTRAST: every argument behaves the same (R267). -/
def execContrast (arg : Half) (s : State) : Host.Outcome State Fault Refusal :=
  runFromHost (s.acceptRequest (.contrast arg) []) s

/-- INVERT: every argument behaves the same (R268). -/
def execInvert (arg : Half) (s : State) : Host.Outcome State Fault Refusal :=
  runFromHost (s.acceptRequest (.invert arg) []) s

/-- ROTATE: every argument behaves the same (R269). -/
def execRotate (arg : Half) (s : State) : Host.Outcome State Fault Refusal :=
  runFromHost (s.acceptRequest (.rotate arg) []) s

end Sys2Proof.Machine
end

