-- ==== Sys2Proof/Machine/Dispatch.lean ====
section
/-! DEFINITION. One arm per microword. -/

namespace Sys2Proof.Machine

def exec (i : Instr) (s : State) : Host.Outcome State Fault Refusal :=
  match i with
  | .nop => Sys2Proof.Machine.execNop s
  | .wreg index value => Sys2Proof.Machine.execWreg index value s
  | .wcmd index => Sys2Proof.Machine.execWcmd index s
  | .wdat value => Sys2Proof.Machine.execWdat value s
  | .delay ms => Sys2Proof.Machine.execDelay ms s
  | .pins mask levels => Sys2Proof.Machine.execPins mask levels s
  | .fill value => Sys2Proof.Machine.execFill value s
  | .stream => Sys2Proof.Machine.execStream s
  | .endProg => Sys2Proof.Machine.execEndProg s
  | .init => Sys2Proof.Machine.execInit s
  | .showFb => Sys2Proof.Machine.execShowFb s
  | .powerOff => Sys2Proof.Machine.execPowerOff s
  | .powerOn => Sys2Proof.Machine.execPowerOn s
  | .contrast arg => Sys2Proof.Machine.execContrast arg s
  | .invert arg => Sys2Proof.Machine.execInvert arg s
  | .rotate arg => Sys2Proof.Machine.execRotate arg s

end Sys2Proof.Machine
end

