-- ==== Sys2Proof/Machine/Sequencer.lean ====
section
/-! DEFINITION. The fetch loop (spec 43_programs.md R200), taking a request (45_host_ops.md R260 to R263), and
what one clock edge does in the order of 60_exceptions.md R291. -/

namespace Sys2Proof.Machine

/-- The word of UROM at an index; none from UROM_LEN on. -/
def uromWord : List Microword → Nat → Option Microword
  | [], _ => none
  | w :: _, 0 => some w
  | _ :: l, n + 1 => uromWord l n

/-- A fetched word is decoded and begins, or raises Fault(4) (43_programs.md R200, 60_exceptions.md R282):
a word that is not legal from UROM raises it in its meaning. -/
def beginFetched (w : Microword) (s : State) : Host.Outcome State Fault Refusal :=
  match decode w with
  | .ok i => exec i s
  | .error _ => .next (s.raiseFault .uromDecode)

/-- Fetch (43_programs.md R200): the range is checked before the word is decoded (60_exceptions.md R281,
R292). -/
def fetch (s : State) : Host.Outcome State Fault Refusal :=
  match uromWord s.urom s.upc with
  | none => .next (s.raiseFault .uromRange)
  | some w => beginFetched w (s.fetched w)

/-- A request word that is not well-formed whatever its context (45_host_ops.md R262, R263): in FAULT it is
not decoded for a cause. -/
def rejectMalformed (op : Opcode) (s : State) : State :=
  match s.mode with
  | .fault => s.refuseInFault
  | .idle => s.reject (malformedCause op)
  | .busy => s.reject (malformedCause op)

/-- Taking a request (45_host_ops.md R260): the word is decoded with the host's context. -/
def takeRequest (w : Microword) (s : State) : Host.Outcome State Fault Refusal :=
  match decode w with
  | .ok i => exec i s
  | .error (.reservedBits op) => .next (rejectMalformed op s)

/-- The sequencer between two microwords: the next fetch of a program, or the completion of a host
microword (40_phase_sequencer.md R126). BUSY with no program, which no run reaches, holds (log 15). -/
def betweenWords (s : State) : Host.Outcome State Fault Refusal :=
  match s.prog with
  | .initProg => fetch s
  | .showProg => fetch s
  | .hostOp => .next s.completeHostOp
  | .noProg => .next s

/-- The step of the sequencer in BUSY: one action, a fetch, or a completion (60_exceptions.md R291). -/
def seqStep (i : EdgeIn) (s : State) : Host.Outcome State Fault Refusal :=
  match s.pending with
  | [] => betweenWords s
  | a :: rest => perform i a rest s

/-- The request port in IDLE and FAULT (10_state.md R32, 45_host_ops.md R260). -/
def portStep (i : EdgeIn) (s : State) : Host.Outcome State Fault Refusal :=
  if i.reqValid then takeRequest i.reqWord s else .next s

/-- What happens at every edge beside the list of 60_exceptions.md R291: the edge is counted, the
transport's idle report is noted, and the host's frame-buffer access takes place (10_state.md R34,
20_memory.md R66 to R69; log 7). The host's write lands before the fill engine's (20_memory.md R73). -/
def atPorts (i : EdgeIn) (s : State) : State := ((s.tick i).noteIdle i).hostPort i

/-- One clock edge with given input wires, by the priorities of 60_exceptions.md R291: reset, a transport
fault, the sequencer, a request. -/
def edgeStep (i : EdgeIn) (s : State) : Host.Outcome State Fault Refusal :=
  if i.rst then .next ((atPorts i s).resetEdge s.rstHeld)
  else if i.txFault && decide (s.mode ≠ .fault) then .next ((atPorts i s).transportFault i)
  else
    match s.mode with
    | .busy => seqStep i (atPorts i s)
    | .idle => portStep i (atPorts i s)
    | .fault => portStep i (atPorts i s)

/-- UROM with a word at an index, padded with NOP words where it is shorter. -/
def putWord : Nat → Microword → List Microword → List Microword
  | 0, w, [] => [w]
  | 0, w, _ :: l => w :: l
  | n + 1, w, [] => 0 :: putWord n w []
  | n + 1, w, x :: l => x :: putWord n w l

/-- A word placed where the next step fetches it from UROM: at `upc`, in a program, between two
microwords, with a quiet edge to come (log 19). -/
def State.placeInUrom (w : Microword) (s : State) : State :=
  { s with
    mode := .busy
    prog := if s.prog = .showProg then .showProg else .initProg
    pending := []
    txv := false
    urom := putWord s.upc w s.urom
    inputs := EdgeIn.quiet :: s.inputs }

/-- A word placed where the next step takes it as a request: at the request port, in IDLE, at an edge that
is otherwise quiet (log 19). -/
def State.placeAtPort (w : Microword) (s : State) : State :=
  { s with
    mode := .idle
    prog := .noProg
    pending := []
    txv := false
    inputs := { EdgeIn.quiet with reqValid := true, reqWord := w } :: s.inputs }

/-- A word placed where its operation is legal: in UROM if it is legal there, else at the request port
(30_encoding.md R91; log 19). -/
def State.placeWord (w : Microword) (s : State) : State :=
  if (opcodeOf w).legalRom then s.placeInUrom w else s.placeAtPort w

/-- The same for a numbered word of the opcode table; a number that is no 36-bit word places nothing. -/
def State.placeTableWord (nbits w : Nat) (s : State) : State :=
  match tableWord nbits w with
  | some uw => s.placeWord uw
  | none => s

end Sys2Proof.Machine
end

