-- ==== Sys2Proof/Machine/Step.lean ====
section
/-! DEFINITION. One step: one clock edge (log 9). -/

namespace Sys2Proof.Machine

/-- One clock edge, with the input wires that the state holds for it (log 1). -/
def step (s : State) : Host.Outcome State Fault Refusal := edgeStep s.nextInput s

/-- The state with a numbered word of the opcode table where the very next step runs it (log 19). -/
def State.withFetchWord (s : State) (nbits w : Nat) : State := s.placeTableWord nbits w

end Sys2Proof.Machine
end

