-- ==== Sys2Proof/Machine/Assembler.lean ====
section
/-! DEFINITION. The assembly syntax and the pseudo-instructions (spec 30_encoding.md R100, R101). A line is a
list of characters; its words are split at blanks and its operands at commas (log 25). -/

namespace Sys2Proof.Machine

/-- The names an assembly line may begin with: the sixteen mnemonics and the pseudo-instructions. -/
inductive AsmName where
  | op (o : Opcode)
  | setPin | blOff | blOn | clear | wait | reg | writeReg
deriving DecidableEq, Repr

/-- An operand as written: a number, a pin's name, or nothing between two commas. -/
inductive AsmOperand where
  | num (n : Nat)
  | pin (p : Pin)
  | omitted
deriving DecidableEq, Repr

/-- What an assembly line is: blank, one microword, or refused. -/
inductive AsmLine where
  | blank
  | word (i : Instr)
  | refused
deriving DecidableEq, Repr

/-- An operand of 16 bits; one that does not fit is refused (R100). -/
def asHalf (n : Nat) : Option Half := if n < 65536 then some (BitVec.ofNat 16 n) else none

/-- An operand of 4 bits; one that does not fit is refused (R100). -/
def asNibble (n : Nat) : Option (BitVec 4) := if n < 16 then some (BitVec.ofNat 4 n) else none

/-- A microword written with no operand. -/
def noOperand (i : Instr) : List AsmOperand → Option Instr
  | [] => some i
  | _ :: _ => none

/-- A microword written with one 16-bit operand. -/
def oneHalf (f : Half → Instr) : List AsmOperand → Option Instr
  | [.num n] => (asHalf n).map f
  | _ => none

/-- A microword written with two 16-bit operands. -/
def twoHalves (f : Half → Half → Instr) : List AsmOperand → Option Instr
  | [.num m, .num n] => (asHalf m).bind fun a => (asHalf n).map (f a)
  | _ => none

/-- A microword written with two 4-bit operands. -/
def twoNibbles (f : BitVec 4 → BitVec 4 → Instr) : List AsmOperand → Option Instr
  | [.num m, .num n] => (asNibble m).bind fun a => (asNibble n).map (f a)
  | _ => none

/-- `SETPIN p, v` is `PINS (1 << n(p)), (v << n(p))` (R101). -/
def setPinInstr (p : Pin) (v : Bool) : Instr :=
  .pins (BitVec.twoPow 4 (pinBit p)) (if v then BitVec.twoPow 4 (pinBit p) else 0)

/-- `BL_OFF` (R101). -/
def blOffInstr : Instr := .pins 0x8 0x0

/-- `BL_ON` (R101). -/
def blOnInstr : Instr := .pins 0x8 0x8

/-- `CLEAR` (R101). -/
def clearInstr : Instr := .fill 0x0000

/-- `WRITEREG [index], [value]`, the source's `writeRegister` with operands that may each be absent
(R101, 40_phase_sequencer.md R129). -/
def writeRegInstr : Option Half → Option Half → Instr
  | some i, some v => .wreg i v
  | some i, none => .wcmd i
  | none, some v => .wdat v
  | none, none => .nop

/-- An optional operand of WRITEREG: absent, or a number that fits (R101). -/
def optionalHalf : AsmOperand → Option (Option Half)
  | .omitted => some none
  | .num n => (asHalf n).map some
  | .pin _ => none

/-- The operands of WRITEREG; the value, or both, may be left out (R101). -/
def writeRegOperands : List AsmOperand → Option Instr
  | [] => some (writeRegInstr none none)
  | [i] => (optionalHalf i).map fun a => writeRegInstr a none
  | [i, v] => (optionalHalf i).bind fun a => (optionalHalf v).map (writeRegInstr a)
  | _ => none

/-- The operands of SETPIN: a pin and a level (R101). DEDUCED: R101 gives no range for `v`; the model's
choice is that it is a level, 0 or 1, as in `SetPin(p, v)` of 00_scope.md R9, and any other `v` is refused (log 30). -/
def setPinOperands : List AsmOperand → Option Instr
  | [.pin p, .num n] => if n = 0 then some (setPinInstr p false) else if n = 1 then some (setPinInstr p true) else none
  | _ => none

/-- The microword of a mnemonic and its operands: what the syntax leaves out encodes as 0 (R100). -/
def assembleOp : Opcode → List AsmOperand → Option Instr
  | .nop => noOperand .nop
  | .wreg => twoHalves .wreg
  | .wcmd => oneHalf .wcmd
  | .wdat => oneHalf .wdat
  | .delay => oneHalf .delay
  | .pins => twoNibbles .pins
  | .fill => oneHalf .fill
  | .stream => noOperand .stream
  | .endProg => noOperand .endProg
  | .init => noOperand .init
  | .showFb => noOperand .showFb
  | .powerOff => noOperand .powerOff
  | .powerOn => noOperand .powerOn
  | .contrast => oneHalf .contrast
  | .invert => oneHalf .invert
  | .rotate => oneHalf .rotate

/-- The microword of a name and its operands (R100, R101). -/
def assembleWords : AsmName → List AsmOperand → Option Instr
  | .op o => assembleOp o
  | .setPin => setPinOperands
  | .blOff => noOperand blOffInstr
  | .blOn => noOperand blOnInstr
  | .clear => noOperand clearInstr
  | .wait => oneHalf .delay
  | .reg => twoHalves .wreg
  | .writeReg => writeRegOperands

/-- The mnemonics of R100. -/
def asmMnemonics : List (List Char × AsmName) :=
  [(['N','O','P'], .op .nop),
   (['W','R','E','G'], .op .wreg),
   (['W','C','M','D'], .op .wcmd),
   (['W','D','A','T'], .op .wdat),
   (['D','E','L','A','Y'], .op .delay),
   (['P','I','N','S'], .op .pins),
   (['F','I','L','L'], .op .fill),
   (['S','T','R','E','A','M'], .op .stream),
   (['E','N','D'], .op .endProg),
   (['I','N','I','T'], .op .init),
   (['S','H','O','W'], .op .showFb),
   (['P','O','W','E','R','_','O','F','F'], .op .powerOff),
   (['P','O','W','E','R','_','O','N'], .op .powerOn),
   (['C','O','N','T','R','A','S','T'], .op .contrast),
   (['I','N','V','E','R','T'], .op .invert),
   (['R','O','T','A','T','E'], .op .rotate)]

/-- The pseudo-instructions of R101. -/
def asmPseudos : List (List Char × AsmName) :=
  [(['S','E','T','P','I','N'], .setPin),
   (['B','L','_','O','F','F'], .blOff),
   (['B','L','_','O','N'], .blOn),
   (['C','L','E','A','R'], .clear),
   (['W','A','I','T'], .wait),
   (['R','E','G'], .reg),
   (['W','R','I','T','E','R','E','G'], .writeReg)]

/-- The names a line may begin with. -/
def asmNames : List (List Char × AsmName) := asmMnemonics ++ asmPseudos

/-- The names of the pins (R101). -/
def asmPins : List (List Char × Pin) :=
  [(['R','S','T'], .rst), (['D','C'], .dc), (['C','S'], .cs), (['B','L'], .bl)]

/-- A word looked up in a table of names. -/
def lookupName {α : Type} (w : List Char) : List (List Char × α) → Option α
  | [] => none
  | (n, x) :: t => if n = w then some x else lookupName w t

/-- A digit of a base up to 16. -/
def digitOf (base : Nat) (c : Char) : Option Nat :=
  let n := c.toNat
  let d := if 48 ≤ n ∧ n ≤ 57 then n - 48
    else if 65 ≤ n ∧ n ≤ 70 then n - 55
    else if 97 ≤ n ∧ n ≤ 102 then n - 87
    else 99
  if d < base then some d else none

/-- The digits of a number after the value `acc`. -/
def digitsFrom (base : Nat) : Nat → List Char → Option Nat
  | acc, [] => some acc
  | acc, c :: t =>
    match digitOf base c with
    | some d => digitsFrom base (acc * base + d) t
    | none => none

/-- A number: decimal, or hexadecimal with `0x` (R100). -/
def asmNumber : List Char → Option Nat
  | [] => none
  | '0' :: 'x' :: c :: t => digitsFrom 16 0 (c :: t)
  | w => digitsFrom 10 0 w

/-- A blank of a line. -/
def isBlank (c : Char) : Bool := c == ' ' || c == '\t'

/-- The line up to its comment: `;` starts one (R100). -/
def dropComment : List Char → List Char
  | [] => []
  | c :: t => if c = ';' then [] else c :: dropComment t

/-- A word without the blanks before and after it. -/
def trimBlanks (w : List Char) : List Char := ((w.dropWhile isBlank).reverse.dropWhile isBlank).reverse

/-- The parts of a text between its commas. -/
def splitCommas : List Char → List (List Char)
  | [] => [[]]
  | c :: t =>
    match splitCommas t with
    | [] => [[c]]
    | w :: ws => if c = ',' then [] :: w :: ws else (c :: w) :: ws

/-- One operand as written. -/
def asmOperand (w : List Char) : Option AsmOperand :=
  match trimBlanks w with
  | [] => some .omitted
  | c :: t =>
    match lookupName (c :: t) asmPins with
    | some p => some (.pin p)
    | none => (asmNumber (c :: t)).map .num

/-- The operands after a mnemonic: none at all, or those between the commas. -/
def asmOperands (w : List Char) : Option (List AsmOperand) :=
  match trimBlanks w with
  | [] => some []
  | c :: t => (splitCommas (c :: t)).mapM asmOperand

/-- One line of assembly: a mnemonic, then operands separated by commas (R100). -/
def assembleLine (line : List Char) : AsmLine :=
  match trimBlanks (dropComment line) with
  | [] => .blank
  | c :: t =>
    let name := (c :: t).takeWhile (fun x => !isBlank x)
    let rest := (c :: t).dropWhile (fun x => !isBlank x)
    match lookupName name asmNames, asmOperands rest with
    | some n, some ops =>
      match assembleWords n ops with
      | some i => .word i
      | none => .refused
    | _, _ => .refused

end Sys2Proof.Machine
end

