-- ==== Sys2Proof/Machine/Color.lean ====
section
/-! DEFINITION. The color encoder, a combinational port (spec 44_color_encoder.md R240 to R248). -/

namespace Sys2Proof.Machine

/-- `pack565` of three quantised channels: `(r5 << 11) | (g6 << 5) | b5` (R242, R244). -/
def pack565 (r5 : BitVec 5) (g6 : BitVec 6) (b5 : BitVec 5) : Half := r5 ++ g6 ++ b5

/-- The RGB565 value of three 8-bit channels, by truncation: `{r[7:3], g[7:2], b[7:3]}` (R240, R242). -/
def packRgb (r g b : Byte) : Half := pack565 (r.extractLsb' 3 5) (g.extractLsb' 2 6) (b.extractLsb' 3 5)

/-- `swap16(v)` = {v[7:0], v[15:8]} (R240). -/
def swap16 (v : Half) : Half := halfOf (lowByte v) (highByte v)

/-- `colorFromRGB(r, g, b)` (R240). -/
def colorFromRgb (r g b : Byte) : Half := swap16 (packRgb r g b)

end Sys2Proof.Machine
end

