-- ==== Sys2Proof/Machine/HostProtocols.lean ====
section
/-! DEFINITION. The host's moves as input edges (spec 45_host_ops.md R270), and the host-side protocols on the
frame-buffer port: drawing a pixel and `loadRaw` (42_framebuffer_ops.md R185 to R187). -/

namespace Sys2Proof.Machine

/-- A byte write at the frame-buffer port (20_memory.md R67). -/
def byteWriteEdge (a : Nat) (b : Byte) : EdgeIn :=
  { EdgeIn.quiet with fbEn := true, fbWe := true, fbAddr := a, fbWdata := b.setWidth 16 }

/-- A halfword write at the frame-buffer port (20_memory.md R68). -/
def halfWriteEdge (a : Nat) (v : Half) : EdgeIn :=
  { EdgeIn.quiet with fbEn := true, fbWe := true, fbSize := true, fbAddr := a, fbWdata := v }

/-- A byte read at the frame-buffer port (20_memory.md R66). -/
def byteReadEdge (a : Nat) : EdgeIn := { EdgeIn.quiet with fbEn := true, fbAddr := a }

/-- A halfword read at the frame-buffer port (20_memory.md R68). -/
def halfReadEdge (a : Nat) : EdgeIn := { EdgeIn.quiet with fbEn := true, fbSize := true, fbAddr := a }

/-- A request word offered at the request port (10_state.md R32). -/
def requestEdge (w : Microword) : EdgeIn := { EdgeIn.quiet with reqValid := true, reqWord := w }

/-- The entry of the pixel at column `x` and row `y`, `k = y·W + x` (20_memory.md R61). -/
def pixelEntry (p : Params) (x y : Nat) : Nat := y * p.width + x

/-- The even byte address of a pixel's entry (20_memory.md R61). -/
def pixelAddress (p : Params) (x y : Nat) : Nat := 2 * pixelEntry p x y

/-- Drawing one pixel: the color encoder's output is the entry (42_framebuffer_ops.md R185). -/
def drawPixelEdge (p : Params) (x y : Nat) (r g b : Byte) : EdgeIn :=
  halfWriteEdge (pixelAddress p x y) (colorFromRgb r g b)

/-- Byte writes at rising addresses, one per edge. -/
def writeBytesFrom (a : Nat) : List Byte → List EdgeIn
  | [] => []
  | b :: bs => byteWriteEdge a b :: writeBytesFrom (a + 1) bs

/-- `loadRaw(source)`: byte writes from address 0 for up to FB_BYTES bytes (42_framebuffer_ops.md R186). -/
def loadRaw (p : Params) (source : List Byte) : List EdgeIn := writeBytesFrom 0 (source.take p.fbBytes)

/-- Whether the host must signal a short load (42_framebuffer_ops.md R187). -/
def loadIsShort (p : Params) (source : List Byte) : Bool := decide (source.length < p.fbBytes)

end Sys2Proof.Machine
end

