-- ==== Sys2Proof/Machine/Observe.lean ====
section
/-! DEFINITION. What can be seen of the block: its output ports (spec 10_state.md R31 to R36), and the frame
projection of a trace (10_state.md R42). -/

namespace Sys2Proof.Machine

/-- The output ports: the pins (R31), `req_ready` (R32), the transport's byte (R33), the host port's
registered outputs (R34), `ce_out` (R35) and `status` (R36). -/
structure Outputs where
  pins    : BitVec 4
  reqReady : Bool
  txData  : Byte
  txValid : Bool
  fbRdata : Half
  fbErr   : Bool
  ceOut   : Half
  status  : BitVec 8
deriving DecidableEq, Repr

/-- The output ports of a state while the input wires are `i`. Only `ce_out` depends on the wires, and it
depends on nothing else (44_color_encoder.md R248). -/
def outputs (i : EdgeIn) (s : State) : Outputs where
  pins := s.pins
  reqReady := reqReady s
  txData := s.txb
  txValid := s.txv
  fbRdata := s.fbRdata
  fbErr := s.fbErr
  ceOut := colorFromRgb i.ceR i.ceG i.ceB
  status := status s

/-- An item of the frame projection: a phase, with its DC level and its bytes, or a wait. -/
inductive FrameItem where
  | phase (dc : Bool) (bytes : List Byte)
  | wait (ms : Half)
deriving DecidableEq, Repr

/-- The frame projection from a point where the bytes of `phase`, if any, were sent since CS last went low.
A phase is the bytes up to the next `Pin(CS, 1)`, at the DC level of its bytes; pin events are removed and
waits stay in place (10_state.md R42). A reset takes CS to 1 (R44), so it ends a phase too. A span with no
byte is no phase, and bytes that the trace leaves without a `Pin(CS, 1)` are its last phase (log 22). -/
def projectFrom : Option (Bool × List Byte) → List Event → List FrameItem
  | none, [] => []
  | some (dc, bs), [] => [.phase dc bs]
  | none, .byte b dc :: t => projectFrom (some (dc, [b])) t
  | some (dc, bs), .byte b _ :: t => projectFrom (some (dc, bs ++ [b])) t
  | none, .pin _ _ :: t => projectFrom none t
  | some (dc, bs), .pin p v :: t =>
    if p = .cs ∧ v = true then .phase dc bs :: projectFrom none t else projectFrom (some (dc, bs)) t
  | ph, .wait ms :: t => .wait ms :: projectFrom ph t
  | ph, .fault _ :: t => projectFrom ph t
  | none, .reset :: t => projectFrom none t
  | some (dc, bs), .reset :: t => .phase dc bs :: projectFrom none t

/-- The frame projection of a trace (10_state.md R42). -/
def frameProjection (t : List Event) : List FrameItem := projectFrom none t

/-- The number of bytes of a trace. -/
def byteCount : List Event → Nat
  | [] => 0
  | .byte _ _ :: t => byteCount t + 1
  | .pin _ _ :: t => byteCount t
  | .wait _ :: t => byteCount t
  | .fault _ :: t => byteCount t
  | .reset :: t => byteCount t

end Sys2Proof.Machine
end

