-- ==== Sys2Proof/Safety.lean ====
section
/-! DEFINITION. The terms that claims about the block are stated in: which edges are calm, what the pending
actions are about to do, and the invariant of every reachable state. -/

namespace Sys2Proof.Machine

/-- An edge without reset and without transport fault, at which the transport is ready and idle. The host's
wires may carry anything. -/
def calm (i : EdgeIn) : Bool := !i.rst && !i.txFault && i.txReady && i.txIdle

/-- An edge at which the host writes nothing to the frame buffer. -/
def noHostWrite (i : EdgeIn) : Bool := !(i.fbEn && i.fbWe)

/-- The state's next edges are calm ones: `n` of them are listed. -/
def CalmFor (n : Nat) (s : State) : Prop := n ≤ s.inputs.length ∧ ∀ i ∈ s.inputs.take n, calm i = true

/-- The next `n` edges are calm and the host writes nothing to the frame buffer at them. -/
def QuietFor (n : Nat) (s : State) : Prop := CalmFor n s ∧ ∀ i ∈ s.inputs.take n, noHostWrite i = true

/-- An edge without reset and without transport fault. The transport may be busy and the host's wires may
carry anything. -/
def undisturbed (i : EdgeIn) : Bool := !i.rst && !i.txFault

/-- The state's next `n` edges are listed and undisturbed. -/
def UndisturbedFor (n : Nat) (s : State) : Prop :=
  n ≤ s.inputs.length ∧ ∀ i ∈ s.inputs.take n, undisturbed i = true

/-- A run of `n` edges answers the next state `t`. -/
def RunsTo (n : Nat) (s t : State) : Prop := Host.Core.run Sys2Proof.core n s = .next t

/-- The sequencer is about to fetch the word `w` from UROM, and `w` is the instruction `i`
(43_programs.md R200). -/
def AboutToFetch (w : Microword) (i : Instr) (s : State) : Prop :=
  s.mode = .busy ∧ (s.prog = .initProg ∨ s.prog = .showProg) ∧ s.pending = [] ∧
  uromWord s.urom s.upc = some w ∧ decode w = .ok i ∧ s.txv = false

/-- What every microword that UROM holds leaves of a program's registers when it is complete, whatever its
own effect: the program goes on, `upc` counts the word, `uw` holds it, no flag has moved. -/
structure WordDone (w : Microword) (s t : State) : Prop where
  cfg : t.cfg = s.cfg
  urom : t.urom = s.urom
  mode : t.mode = s.mode
  prog : t.prog = s.prog
  upc : t.upc = s.upc + 1
  uw : t.uw = w
  pending : t.pending = []
  txv : t.txv = false
  initDone : t.initDone = s.initDone
  reqErr : t.reqErr = s.reqErr
  errCode : t.errCode = s.errCode

/-- Every byte of the frame buffer reads the same (20_memory.md R64). -/
def SameBytes (s t : State) : Prop := ∀ a, fbByte t.fb a = fbByte s.fb a

/-- The host offers the word `w` in IDLE, and `w` is the instruction `i` (45_host_ops.md R260). -/
def AboutToTake (w : Microword) (i : Instr) (s : State) : Prop :=
  s.mode = .idle ∧ s.pending = [] ∧ s.txv = false ∧ decode w = .ok i ∧
  ∃ e r, s.inputs = e :: r ∧ e.reqValid = true ∧ e.reqWord = w

/-- What every host microword leaves when it is complete, whatever its own effect (45_host_ops.md R261,
40_phase_sequencer.md R126): the block is back in IDLE, `uw` holds the word, the errors are cleared. -/
structure HostWordDone (w : Microword) (s t : State) : Prop where
  cfg : t.cfg = s.cfg
  urom : t.urom = s.urom
  mode : t.mode = .idle
  prog : t.prog = .noProg
  upc : t.upc = s.upc
  uw : t.uw = w
  pending : t.pending = []
  txv : t.txv = false
  initDone : t.initDone = s.initDone
  reqErr : t.reqErr = false
  errCode : t.errCode = 0

/-- Everything of the sequencer is the same: the registers of 10_state.md R20 but `FB`. -/
structure SameSequencer (s t : State) : Prop where
  cfg : t.cfg = s.cfg
  urom : t.urom = s.urom
  mode : t.mode = s.mode
  prog : t.prog = s.prog
  upc : t.upc = s.upc
  uw : t.uw = s.uw
  pending : t.pending = s.pending
  sc : t.sc = s.sc
  dlyMs : t.dlyMs = s.dlyMs
  dlyPre : t.dlyPre = s.dlyPre
  txb : t.txb = s.txb
  txv : t.txv = s.txv
  pins : t.pins = s.pins
  initDone : t.initDone = s.initDone
  reqErr : t.reqErr = s.reqErr
  errCode : t.errCode = s.errCode
  trace : t.trace = s.trace

/-- The host writes the byte at address `a` at the edge `i` (20_memory.md R67, R68). -/
def hostWrites (p : Params) (i : EdgeIn) (a : Nat) : Prop :=
  i.fbEn = true ∧ i.fbWe = true ∧ hostAccessFails p i = false ∧
  (a = i.fbAddr ∨ (i.fbSize = true ∧ a = i.fbAddr + 1))

/-- The pin events of driving a pin of `pins` to a level: none where it has that level
(40_phase_sequencer.md R120). -/
def driveEvents (pins : BitVec 4) (p : Pin) (v : Bool) : List Event :=
  if pinLevel pins p = v then [] else [.pin p v]

/-- The events of a phase that starts at given pin levels (30_encoding.md R98, 40_phase_sequencer.md R120,
R127): CS always rises at its end. -/
def phaseEvents (pins : BitVec 4) (dc : Bool) (bytes : List Byte) : List Event :=
  driveEvents pins .dc dc ++ driveEvents pins .cs false ++ bytes.map (fun b => .byte b dc) ++ [.pin .cs true]

/-- The pins after a phase: DC at the phase's level, CS high (40_phase_sequencer.md R122 to R124). -/
def phasePins (pins : BitVec 4) (dc : Bool) : BitVec 4 := withPin (withPin pins .dc dc) .cs true

/-- The bytes of the frame buffer in address order, from address `a` on (42_framebuffer_ops.md R174). -/
def fbBytesFrom (m : Memory) : Nat → Nat → List Byte
  | _, 0 => []
  | a, n + 1 => fbByte m a :: fbBytesFrom m (a + 1) n

/-- The frame buffer's bytes in the order STREAM sends them. -/
def fbContents (s : State) : List Byte := fbBytesFrom s.fb 0 s.cfg.fbBytes

/-- The bytes a list of events hands to the transport, in their order (10_state.md R40). -/
def sentBytes : List Event → List Byte
  | [] => []
  | .byte b _ :: l => b :: sentBytes l
  | .pin _ _ :: l => sentBytes l
  | .wait _ :: l => sentBytes l
  | .fault _ :: l => sentBytes l
  | .reset :: l => sentBytes l

/-- The events of a WREG from given pin levels (40_phase_sequencer.md R122). -/
def wregEvents (pins : BitVec 4) (index value : Half) : List Event :=
  phaseEvents pins false (wireBytes index) ++ phaseEvents (phasePins pins false) true (wireBytes value)

/-- The pins after WREG: DC and CS high (40_phase_sequencer.md R122). -/
def wregPins (pins : BitVec 4) : BitVec 4 := phasePins pins true

/-- The events of S+0 to S+8 of the show microprogram, from given pin levels, with the bytes that STREAM
finds (43_programs.md R207, R215). -/
def showEvents (p : Params) (pins : BitVec 4) (contents : List Byte) : List Event :=
  wregEvents pins 0x0003 0x1018 ++
  wregEvents (wregPins pins) 0x0036 p.lastRow ++ wregEvents (wregPins pins) 0x0037 0 ++
  wregEvents (wregPins pins) 0x0038 p.lastColumn ++ wregEvents (wregPins pins) 0x0039 0 ++
  wregEvents (wregPins pins) 0x0020 p.lastRow ++ wregEvents (wregPins pins) 0x0021 0 ++
  phaseEvents (wregPins pins) false (wireBytes 0x0022) ++
  phaseEvents (phasePins (wregPins pins) false) true contents

/-- The events of the entries of INIT_TABLE, from given pin levels (43_programs.md R205, R214). -/
def tableEvents : BitVec 4 → List TableEntry → List Event
  | _, [] => []
  | pins, .reg i v :: t => wregEvents pins i v ++ tableEvents (wregPins pins) t
  | pins, .delay ms :: t => .wait ms :: tableEvents pins t

/-- The pins after the entries of INIT_TABLE. -/
def tablePins : BitVec 4 → List TableEntry → BitVec 4
  | pins, [] => pins
  | pins, .reg _ _ :: t => tablePins (wregPins pins) t
  | pins, .delay _ :: t => tablePins pins t

/-- The clock edges that a word of UROM takes while the transport is ready and idle
(70_reset_and_hazards.md R341). A word that is not legal from UROM takes its fetch. -/
def instrEdges (p : Params) : Instr → Nat
  | .nop => 1
  | .wreg _ _ => 13
  | .wcmd _ => 7
  | .wdat _ => 7
  | .delay ms => ms.toNat * p.clkPerMs + 3
  | .pins mask _ => 1 + (pinOrder.filter fun q => mask.getLsbD (pinBit q)).length
  | .fill _ => 1 + p.fbBytes
  | .stream => p.fbBytes + 5
  | .endProg => 2
  | .init | .showFb | .powerOff | .powerOn | .contrast _ | .invert _ | .rotate _ => 1

/-- The clock edges that a list of UROM words takes. -/
def programEdges (p : Params) : List Instr → Nat
  | [] => 0
  | i :: l => instrEdges p i + programEdges p l

/-- The frame-buffer bytes an action list still has to send or to fill. -/
def fbActions : List Action → Nat
  | [] => 0
  | .sendFb :: t => fbActions t + 1
  | .fillByte _ :: t => fbActions t + 1
  | .setPin _ _ :: t | .send _ :: t | .drain :: t | .waitMs _ :: t | .waiting _ :: t | .finish :: t => fbActions t

/-- The list starts with a `Send`. -/
def startsSend : List Action → Bool
  | [] => false
  | .send _ :: _ | .sendFb :: _ => true
  | .setPin _ _ :: _ | .drain :: _ | .waitMs _ :: _ | .waiting _ :: _ | .fillByte _ :: _ | .finish :: _ => false

/-- With CS at the level `cs`, every `Send` of the list happens while CS = 0. -/
def framed : Bool → List Action → Bool
  | _, [] => true
  | cs, .setPin p v :: t => framed (if p = .cs then v else cs) t
  | cs, .send _ :: t => !cs && framed cs t
  | cs, .sendFb :: t => !cs && framed cs t
  | cs, .drain :: t | cs, .waitMs _ :: t | cs, .waiting _ :: t | cs, .fillByte _ :: t | cs, .finish :: t => framed cs t

/-- The list holds an action that waits for the transport to be idle. -/
def waitsForIdle : List Action → Bool
  | [] => false
  | .setPin _ _ :: _ | .drain :: _ => true
  | .send _ :: t | .sendFb :: t | .waitMs _ :: t | .waiting _ :: t | .fillByte _ :: t | .finish :: t => waitsForIdle t

/-- Every `Send` of the list is followed by an action that waits for the transport to be idle. -/
def drains : List Action → Bool
  | [] => true
  | .send _ :: t | .sendFb :: t => waitsForIdle t && drains t
  | .setPin _ _ :: t | .drain :: t | .waitMs _ :: t | .waiting _ :: t | .fillByte _ :: t | .finish :: t => drains t

/-- The invariant behind 20_memory.md R82: a byte the transport still holds is waited for before the block
can be IDLE. After a fault nothing waits, until step (a) of the next INIT does. -/
structure Shifted (s : State) : Prop where
  sends : drains s.pending = true
  held : s.xportHeld = [] ∨ waitsForIdle s.pending = true ∨ s.mode = .fault ∨
    (s.prog = .initProg ∧ s.upc = 0 ∧ s.pending = [])

/-- An event without the value of its byte. -/
def eraseByte : Event → Event
  | .byte _ dc => .byte 0 dc
  | .pin p v => .pin p v
  | .wait ms => .wait ms
  | .fault c => .fault c
  | .reset => .reset

/-- Two states that differ only in the contents of the frame buffer and in bytes that came from it: what the
host reads, the byte on offer, the values of sent bytes. -/
structure SameButBytes (s t : State) : Prop where
  cfg : t.cfg = s.cfg
  urom : t.urom = s.urom
  mode : t.mode = s.mode
  prog : t.prog = s.prog
  upc : t.upc = s.upc
  uw : t.uw = s.uw
  pending : t.pending = s.pending
  sc : t.sc = s.sc
  dlyMs : t.dlyMs = s.dlyMs
  dlyPre : t.dlyPre = s.dlyPre
  txv : t.txv = s.txv
  pins : t.pins = s.pins
  initDone : t.initDone = s.initDone
  reqErr : t.reqErr = s.reqErr
  errCode : t.errCode = s.errCode
  trace : t.trace.map eraseByte = s.trace.map eraseByte
  fbErr : t.fbErr = s.fbErr
  xportHeld : t.xportHeld.length = s.xportHeld.length
  rstHeld : t.rstHeld = s.rstHeld
  inputs : t.inputs = s.inputs
  edge : t.edge = s.edge

/-- The invariant of the states that a run reaches. -/
structure Inv (s : State) : Prop where
  /-- the instance was elaborated (00_scope.md R6, 43_programs.md R204) -/
  legal : s.cfg.legal = true
  /-- UROM holds what it was built with (10_state.md R39) -/
  uromBuilt : s.urom = s.cfg.urom
  /-- the frame buffer is in canonical form -/
  memory : Memory.wf s.fb
  /-- no byte outside 0 … FB_BYTES − 1 is ever written (20_memory.md R78) -/
  inside : ∀ c ∈ s.fb, c.1 < s.cfg.fbBytes
  /-- R22: `prog` is NONE exactly when `mode` is not BUSY -/
  running : s.mode = .busy ↔ s.prog ≠ .noProg
  /-- R25: `pending` is empty when `mode` is not BUSY -/
  resting : s.mode ≠ .busy → s.pending = []
  /-- R29: `txv = 1` exactly while a `Send` holds -/
  offering : s.txv = startsSend s.pending
  /-- the byte on offer is that of the `Send` -/
  offered : ∀ b rest, s.pending = .send b :: rest → s.txb = b
  /-- R27: the byte counter with what is left to count stays within FB_BYTES -/
  counted : s.sc + fbActions s.pending ≤ s.cfg.fbBytes
  /-- R41: every pending `Send` happens while CS = 0 -/
  selected : framed (pinLevel s.pins .cs) s.pending = true
  /-- `Finish` is the only action of its microword, in a program -/
  finishing : .finish ∈ s.pending → s.pending = [.finish] ∧ (s.prog = .initProg ∨ s.prog = .showProg)
  /-- the init microprogram ends at its END, at index 21+L (43_programs.md R211) -/
  inInit : s.prog = .initProg →
    s.initDone = false ∧ (if s.pending = [.finish] then s.upc = s.cfg.showEntry else s.upc < s.cfg.showEntry)
  /-- the show microprogram ends at its END, at index 31+L (43_programs.md R213) -/
  inShow : s.prog = .showProg →
    s.initDone = true ∧ s.cfg.showEntry ≤ s.upc ∧
    (if s.pending = [.finish] then s.upc = s.cfg.uromLen else s.upc < s.cfg.uromLen)
  /-- a host microword runs only after INIT (43_programs.md R203) -/
  inHostOp : s.prog = .hostOp → s.initDone = true
  /-- R23: `upc` never passes UROM_LEN -/
  upcRange : s.upc ≤ s.cfg.uromLen
  /-- no error stands while BUSY (45_host_ops.md R261, 43_programs.md R202, R203) -/
  busyFlags : s.mode = .busy → s.reqErr = false ∧ s.errCode = 0
  /-- IDLE is reached only after INIT (43_programs.md R203); an error there is a rejection
  (45_host_ops.md R262) -/
  idleFlags : s.mode = .idle →
    s.initDone = true ∧ (s.reqErr = false ∧ s.errCode = 0 ∨ s.reqErr = true ∧ (s.errCode = 2 ∨ s.errCode = 3))
  /-- with a UROM built by R213 the only fault is a transport fault (60_exceptions.md R281, R282) -/
  faultFlags : s.mode = .fault → s.initDone = false ∧ s.errCode = 1
  /-- R28, 41_delay_and_pins.md R152: the prescaler counts below CLK_PER_MS -/
  prescaler : s.dlyPre < s.cfg.clkPerMs

end Sys2Proof.Machine
end

