-- ==== Sys2Proof/Certificates/Slice0/Obligations.lean ====
section
/-! DEFINITION. The statements about the model. Rule numbers are those of spec/; "log n" is
notes/assumptions/n.md. -/

section

open Sys2Proof Sys2Proof.Machine

/-! ### Encoding -/

/-- R90 to R97: decoding gives back every encoded instruction, with every operand at every value, and the word
is well-formed exactly in the contexts where the instruction is legal. -/
def Obligations.DecodeEncodeAgree : Prop :=
  ∀ i : Instr, decode (encode i) = .ok i ∧ ∀ c, wordWellFormed c (encode i) = i.wellFormed c

/-- R90 to R97: a word that decodes is the encoding of what it decodes to: no two words share an instruction. -/
def Obligations.EncodeDecodeAgree : Prop :=
  ∀ (w : Microword) (i : Instr), decode w = .ok i → encode i = w

/-- R92, R95, R96: which fields must be 0, by operation; a word decodes exactly when they are, and a word that
does not decode keeps its operation. -/
def Obligations.MustBeZeroFields : Prop :=
  ∀ (o : Opcode) (a b : Half),
    let clear : Prop :=
      match o with
      | .wreg => True
      | .wcmd => b = 0
      | .pins => a.toNat < 16 ∧ b.toNat < 16
      | .wdat | .delay | .fill | .contrast | .invert | .rotate => a = 0
      | .nop | .stream | .endProg | .init | .showFb | .powerOff | .powerOn => a = 0 ∧ b = 0
    (clear → ∃ i, decode (packWord o.code a b) = .ok i ∧ i.opcode = o) ∧
    (¬ clear → decode (packWord o.code a b) = .error (.reservedBits o))

/-- A word of every operation, written out from R90 to R94 (vectors V-E1 to V-E20 of 95_test_vectors.md). -/
def Obligations.SampleWordsDecode : Prop :=
  decode 0x000000000 = .ok .nop ∧ decode 0x100031018 = .ok (.wreg 0x0003 0x1018) ∧
  decode 0x200220000 = .ok (.wcmd 0x0022) ∧ decode 0x30000F800 = .ok (.wdat 0xF800) ∧
  decode 0x400000096 = .ok (.delay 150) ∧ decode 0x500010003 = .ok (.pins 0b0001 0b0011) ∧
  decode 0x600001F00 = .ok (.fill 0x1F00) ∧ decode 0x700000000 = .ok .stream ∧
  decode 0x800000000 = .ok .endProg ∧ decode 0x900000000 = .ok .init ∧ decode 0xA00000000 = .ok .showFb ∧
  decode 0xB00000000 = .ok .powerOff ∧ decode 0xC00000000 = .ok .powerOn ∧
  decode 0xD0000FFFF = .ok (.contrast 0xFFFF) ∧ decode 0xE00000001 = .ok (.invert 1) ∧
  decode 0xF00000002 = .ok (.rotate 2) ∧
  decode 0x200220001 = .error (.reservedBits .wcmd) ∧ decode 0x500100000 = .error (.reservedBits .pins)

/-- R101: the expansions of the pseudo-instructions. SETPIN's level is 0 or 1; of another `v` nothing is said here
(log 30). -/
def Obligations.PseudoInstructions : Prop :=
  (∀ (p : Pin) (v : Bool), ∃ n, (p = .rst ∧ n = 0 ∨ p = .dc ∧ n = 1 ∨ p = .cs ∧ n = 2 ∨ p = .bl ∧ n = 3) ∧
    assembleWords .setPin [.pin p, .num (if v then 1 else 0)] =
      some (.pins (1 <<< n) (if v then 1 <<< n else 0))) ∧
  assembleWords .blOff [] = some (.pins 0x8 0x0) ∧
  assembleWords .blOn [] = some (.pins 0x8 0x8) ∧
  assembleWords .clear [] = some (.fill 0x0000) ∧ colorFromRgb 0 0 0 = 0x0000 ∧
  (∀ ops, assembleWords .wait ops = assembleWords (.op .delay) ops) ∧
  (∀ ops, assembleWords .reg ops = assembleWords (.op .wreg) ops) ∧
  (∀ m n : Nat, m < 65536 → n < 65536 →
    assembleWords .writeReg [.num m, .num n] = some (.wreg (BitVec.ofNat 16 m) (BitVec.ofNat 16 n)) ∧
    assembleWords .writeReg [.num m] = some (.wcmd (BitVec.ofNat 16 m)) ∧
    assembleWords .writeReg [.omitted, .num n] = some (.wdat (BitVec.ofNat 16 n)) ∧
    assembleWords .writeReg [] = some .nop)

/-! ### What a step runs -/

/-- A step runs the fetched instruction: `exec` at the state whose ports have had their edge, with the word in
`uw` and `upc` past it (R200). -/
def Obligations.StepRunsFetchedInstruction : Prop :=
  ∀ (w : Microword) (i : Instr) (s : State), AboutToFetch w i s → undisturbed s.nextInput = true →
    step s = exec i { atPorts s.nextInput s with uw := w, upc := s.upc + 1 } ∧
    SameSequencer s (atPorts s.nextInput s) ∧
    (noHostWrite s.nextInput = true → SameBytes s (atPorts s.nextInput s))

/-- A step runs the requested instruction: `exec` at the state whose ports have had their edge (R260). In FAULT
`tx_fault` does not matter (R286). -/
def Obligations.StepRunsRequestedInstruction : Prop :=
  ∀ (i : Instr) (s : State), s.mode ≠ .busy → s.nextInput.rst = false →
    (s.nextInput.txFault = false ∨ s.mode = .fault) → s.nextInput.reqValid = true →
    decode s.nextInput.reqWord = .ok i →
    step s = exec i (atPorts s.nextInput s) ∧ SameSequencer s (atPorts s.nextInput s)

/-- R291: what happens at one clock edge, by priority. Items 3 and 4 never compete. The frame-buffer port has its
edge in every case, at a reset edge too (log 7). -/
def Obligations.EdgePriority : Prop :=
  ∀ (i : EdgeIn) (s : State),
    (i.rst = true → edgeStep i s = .next ((atPorts i s).resetEdge s.rstHeld)) ∧
    (i.rst = false → i.txFault = true → s.mode ≠ .fault →
      edgeStep i s = .next ((atPorts i s).transportFault i)) ∧
    (i.rst = false → i.txFault = false → s.mode = .busy → edgeStep i s = seqStep i (atPorts i s) ∧
      ∀ v w, edgeStep { i with reqValid := v, reqWord := w } s = edgeStep i s) ∧
    (i.rst = false → (i.txFault = false ∨ s.mode = .fault) → s.mode ≠ .busy →
      edgeStep i s = if i.reqValid then takeRequest i.reqWord (atPorts i s) else .next (atPorts i s)) ∧
    (reqReady s = true ↔ s.mode ≠ .busy)

/-- R281: a fetch past the end of UROM raises Fault(5) and reads nothing; a UROM built by R213 never lets it
happen. -/
def Obligations.FetchPastTheEndFaults : Prop :=
  (∀ s : State, s.mode = .busy → (s.prog = .initProg ∨ s.prog = .showProg) → s.pending = [] →
    s.urom.length ≤ s.upc → undisturbed s.nextInput = true →
    ∃ t, step s = .next t ∧ t.mode = .fault ∧ t.errCode = 5 ∧ t.trace = s.trace ++ [.fault 5] ∧ t.uw = s.uw ∧
      t.upc = s.upc ∧ t.pins = s.pins) ∧
  (∀ s : State, Inv s → s.mode = .busy → (s.prog = .initProg ∨ s.prog = .showProg) → s.pending = [] →
    s.upc < s.urom.length)

/-- R282: a fetched word that is not well-formed for UROM raises Fault(4) and is not executed; a UROM built by
R213 holds no such word. -/
def Obligations.IllFormedRomWordFaults : Prop :=
  (∀ (w : Microword) (s : State), s.mode = .busy → (s.prog = .initProg ∨ s.prog = .showProg) → s.pending = [] →
    uromWord s.urom s.upc = some w → wordWellFormed .urom w = false → undisturbed s.nextInput = true →
    ∃ t, step s = .next t ∧ t.mode = .fault ∧ t.errCode = 4 ∧ t.trace = s.trace ++ [.fault 4] ∧ t.uw = w ∧
      t.upc = s.upc + 1 ∧ t.pending = [] ∧ t.pins = s.pins ∧ t.sc = s.sc) ∧
  (∀ (p : Params) (n : Nat) (w : Microword), uromWord p.urom n = some w → wordWellFormed .urom w = true)

/-- R262: a request that is not well-formed is rejected in IDLE with code 2 or 3; nothing else changes. -/
def Obligations.RejectedRequests : Prop :=
  ∀ (w : Microword) (s : State), s.mode = .idle → wordWellFormed .host w = false →
    takeRequest w s =
      .next { s with reqErr := true
                     errCode := if 4 ≤ (fieldOp w).toNat ∧ (fieldOp w).toNat ≤ 8 then 2 else 3 }

/-- R263: in FAULT only a well-formed INIT is accepted, as R202 says; every other word sets `req_err` alone. (What
`uw` holds during INIT before its first fetch is left open here.) -/
def Obligations.RequestsInFault : Prop :=
  ∀ (w : Microword) (s : State), s.mode = .fault →
    ∃ held : Microword, takeRequest w s =
      if w = 0x900000000 then
        .next { s with initDone := false, reqErr := false, errCode := 0, mode := .busy, prog := .initProg
                       upc := 0, uw := held }
      else .next { s with reqErr := true }

/-- R36: the layout of the status output; bits 0 and 2 are never both 1. -/
def Obligations.StatusLayout : Prop :=
  ∀ (i : EdgeIn) (s : State),
    (outputs i s).status.getLsbD 0 = decide (s.mode = .busy) ∧
    (outputs i s).status.getLsbD 1 = s.initDone ∧
    (outputs i s).status.getLsbD 2 = decide (s.mode = .fault) ∧
    (outputs i s).status.getLsbD 3 = s.reqErr ∧
    (outputs i s).status.extractLsb' 4 4 = s.errCode ∧
    ((outputs i s).status.getLsbD 0 && (outputs i s).status.getLsbD 2) = false

/-! ### The meanings -/

/-- R98, R99, R122 to R125: NOP, WREG, WCMD and WDAT from UROM begin: their actions are pending and nothing
else moves. -/
def Obligations.RomPhaseWordsBegin : Prop :=
  ∀ (s : State) (a b : Half), s.mode = .busy →
    exec .nop s = .next { s with pending := [] } ∧
    exec (.wreg a b) s = .next { s with pending :=
      [.setPin .dc false, .setPin .cs false, .send (a.extractLsb' 8 8), .send (a.extractLsb' 0 8), .drain,
       .setPin .cs true, .setPin .dc true, .setPin .cs false, .send (b.extractLsb' 8 8),
       .send (b.extractLsb' 0 8), .drain, .setPin .cs true] } ∧
    exec (.wcmd a) s = .next { s with pending :=
      [.setPin .dc false, .setPin .cs false, .send (a.extractLsb' 8 8), .send (a.extractLsb' 0 8), .drain,
       .setPin .cs true] } ∧
    exec (.wdat b) s = .next { s with pending :=
      [.setPin .dc true, .setPin .cs false, .send (b.extractLsb' 8 8), .send (b.extractLsb' 0 8), .drain,
       .setPin .cs true] }

/-- R99, R150, R155, R201: DELAY, PINS and END from UROM begin. PINS moves RST, DC, CS and BL in this order,
each only if its mask bit is 1. -/
def Obligations.RomControlWordsBegin : Prop :=
  ∀ (s : State) (ms : Half) (m l : BitVec 4), s.mode = .busy →
    exec (.delay ms) s = .next { s with pending := [.waitMs ms] } ∧
    exec (.pins m l) s = .next { s with pending :=
      (if m.getLsbD 0 then [.setPin .rst (l.getLsbD 0)] else []) ++
      (if m.getLsbD 1 then [.setPin .dc (l.getLsbD 1)] else []) ++
      (if m.getLsbD 2 then [.setPin .cs (l.getLsbD 2)] else []) ++
      (if m.getLsbD 3 then [.setPin .bl (l.getLsbD 3)] else []) } ∧
    exec .endProg s = .next { s with pending := [.finish] }

/-- R99, R170 to R172: FILL and STREAM from UROM begin, with one action for each byte of the frame buffer, and
`sc` counts from 0 (log 17). -/
def Obligations.RomEnginesBegin : Prop :=
  ∀ (s : State) (v : Half), s.mode = .busy →
    exec (.fill v) s =
      .next { s with sc := 0, pending := List.replicate (2 * s.cfg.width * s.cfg.height) (.fillByte v) } ∧
    exec .stream s =
      .next { s with sc := 0, pending :=
        [.setPin .dc true, .setPin .cs false] ++
        List.replicate (2 * s.cfg.width * s.cfg.height) .sendFb ++ [.drain, .setPin .cs true] }

/-- R261: NOP, WREG, WCMD and WDAT are accepted in IDLE, with the actions they have in UROM (R264). -/
def Obligations.HostPhaseWordsAccepted : Prop :=
  ∀ (s : State) (a b : Half), s.mode = .idle →
    let taken (w : Microword) (l : List Action) : State :=
      { s with reqErr := false, errCode := 0, uw := w, mode := .busy, prog := .hostOp, pending := l }
    exec .nop s = .next (taken (encode .nop) []) ∧
    exec (.wreg a b) s = .next (taken (encode (.wreg a b))
      [.setPin .dc false, .setPin .cs false, .send (a.extractLsb' 8 8), .send (a.extractLsb' 0 8), .drain,
       .setPin .cs true, .setPin .dc true, .setPin .cs false, .send (b.extractLsb' 8 8),
       .send (b.extractLsb' 0 8), .drain, .setPin .cs true]) ∧
    exec (.wcmd a) s = .next (taken (encode (.wcmd a))
      [.setPin .dc false, .setPin .cs false, .send (a.extractLsb' 8 8), .send (a.extractLsb' 0 8), .drain,
       .setPin .cs true]) ∧
    exec (.wdat b) s = .next (taken (encode (.wdat b))
      [.setPin .dc true, .setPin .cs false, .send (b.extractLsb' 8 8), .send (b.extractLsb' 0 8), .drain,
       .setPin .cs true])

/-- R261, R265 to R269: the five stubs are accepted in IDLE with no action, whatever their argument. -/
def Obligations.HostStubsAccepted : Prop :=
  ∀ (s : State) (arg : Half), s.mode = .idle →
    let taken (w : Microword) : State :=
      { s with reqErr := false, errCode := 0, uw := w, mode := .busy, prog := .hostOp, pending := [] }
    exec .powerOff s = .next (taken (encode .powerOff)) ∧
    exec .powerOn s = .next (taken (encode .powerOn)) ∧
    exec (.contrast arg) s = .next (taken (encode (.contrast arg))) ∧
    exec (.invert arg) s = .next (taken (encode (.invert arg))) ∧
    exec (.rotate arg) s = .next (taken (encode (.rotate arg)))

/-- R202, R203: INIT is accepted in IDLE and in FAULT, SHOW in IDLE: their programs start, and `uw` keeps its
word (log 18). An accepted INIT shows `status` = 0x01. -/
def Obligations.ProgramRequestsAccepted : Prop :=
  ∀ s : State,
    (s.mode = .idle ∨ s.mode = .fault →
      let t : State := { s with initDone := false, reqErr := false, errCode := 0, mode := .busy
                                prog := .initProg, upc := 0 }
      exec .init s = .next t ∧ status t = 0x01) ∧
    (s.mode = .idle →
      exec .showFb s = .next { s with reqErr := false, errCode := 0, mode := .busy, prog := .showProg
                                      upc := 22 + s.cfg.initTable.length })

/-- R262, R263, R282: where a form is turned away. From the host, an operation that is legal only from UROM is
rejected with code 2 in IDLE; in FAULT all but INIT set `req_err` alone; from UROM an operation that is legal
only from the host raises Fault(4). -/
def Obligations.TurnedAwayForms : Prop :=
  ∀ (i : Instr) (s : State),
    (s.mode = .idle → i.opcode.legalHost = false → exec i s = .next { s with reqErr := true, errCode := 2 }) ∧
    (s.mode = .fault → i ≠ .init → exec i s = .next { s with reqErr := true }) ∧
    (s.mode = .busy → i.opcode.legalRom = false →
      exec i s = .next { s with mode := .fault, prog := .noProg, pending := [], txv := false, initDone := false
                                errCode := 4, trace := s.trace ++ [.fault 4] }) ∧
    (i.opcode.legalHost = false ↔
      (∃ ms, i = .delay ms) ∨ (∃ m l, i = .pins m l) ∨ (∃ v, i = .fill v) ∨ i = .stream ∨ i = .endProg)

/-- The frame of every meaning: whatever `exec` begins, accepts, rejects or faults, no pin moves, no byte of the
frame buffer changes, no byte is sent, the delay counters and the ports stay; `upc` moves only where INIT or
SHOW starts, `sc` only where an engine starts (log 17), `uw` only for a request accepted in IDLE. The model's choice
in it: an INIT accepted in FAULT keeps `uw` (log 18). -/
def Obligations.ExecFrame : Prop :=
  ∀ (i : Instr) (s t : State), exec i s = .next t →
    t.cfg = s.cfg ∧ t.urom = s.urom ∧ t.pins = s.pins ∧ t.fb = s.fb ∧ SameBytes s t ∧ t.txb = s.txb ∧
    t.dlyMs = s.dlyMs ∧ t.dlyPre = s.dlyPre ∧ t.fbRdata = s.fbRdata ∧ t.fbErr = s.fbErr ∧
    t.xportHeld = s.xportHeld ∧ t.rstHeld = s.rstHeld ∧ t.inputs = s.inputs ∧ t.edge = s.edge ∧
    (t.trace = s.trace ∨ t.mode = .fault ∧ s.mode = .busy ∧ t.trace = s.trace ++ [.fault 4]) ∧
    (t.upc = s.upc ∨ i = .init ∨ i = .showFb) ∧
    (t.sc = s.sc ∨ s.mode = .busy ∧ ((∃ v, i = .fill v) ∨ i = .stream)) ∧
    (t.uw = s.uw ∨ s.mode = .idle ∧ t.uw = encode i) ∧
    (t.initDone = s.initDone ∨ t.initDone = false ∧ (i = .init ∨ t.mode = .fault))

/-! ### Whole microwords -/

/-- R122, R341: WREG from UROM takes 13 edges of a ready transport: its two phases, high byte first, from any
pin levels; it leaves DC and CS at 1 and everything else as it was. -/
def Obligations.WregRuns : Prop :=
  ∀ (w : Microword) (a b : Half) (s : State), AboutToFetch w (.wreg a b) s → CalmFor 13 s →
    ∃ t, RunsTo 13 s t ∧ WordDone w s t ∧ t.sc = s.sc ∧ t.dlyMs = s.dlyMs ∧ t.dlyPre = s.dlyPre ∧
      t.trace = s.trace ++ wregEvents s.pins a b ∧
      pinLevel t.pins .dc = true ∧ pinLevel t.pins .cs = true ∧
      pinLevel t.pins .rst = pinLevel s.pins .rst ∧ pinLevel t.pins .bl = pinLevel s.pins .bl ∧
      (QuietFor 13 s → SameBytes s t)

/-- R123 to R125, R341: WCMD and WDAT from UROM take 7 edges, NOP takes its fetch and does nothing. -/
def Obligations.WcmdWdatNopRun : Prop :=
  ∀ (w : Microword) (v : Half) (s : State),
    (AboutToFetch w (.wcmd v) s → CalmFor 7 s →
      ∃ t, RunsTo 7 s t ∧ WordDone w s t ∧ t.sc = s.sc ∧ t.dlyMs = s.dlyMs ∧ t.dlyPre = s.dlyPre ∧
        t.trace = s.trace ++ phaseEvents s.pins false [v.extractLsb' 8 8, v.extractLsb' 0 8] ∧
        t.pins = phasePins s.pins false ∧ (QuietFor 7 s → SameBytes s t)) ∧
    (AboutToFetch w (.wdat v) s → CalmFor 7 s →
      ∃ t, RunsTo 7 s t ∧ WordDone w s t ∧ t.sc = s.sc ∧ t.dlyMs = s.dlyMs ∧ t.dlyPre = s.dlyPre ∧
        t.trace = s.trace ++ phaseEvents s.pins true [v.extractLsb' 8 8, v.extractLsb' 0 8] ∧
        t.pins = phasePins s.pins true ∧ (QuietFor 7 s → SameBytes s t)) ∧
    (AboutToFetch w .nop s → UndisturbedFor 1 s →
      ∃ t, step s = .next t ∧ WordDone w s t ∧ t.sc = s.sc ∧ t.dlyMs = s.dlyMs ∧ t.dlyPre = s.dlyPre ∧
        t.trace = s.trace ∧ t.pins = s.pins ∧ t.txb = s.txb ∧
        (noHostWrite s.nextInput = true → SameBytes s t))

/-- R153: after the fetch, the start edge of a DELAY is followed by its completion edge exactly
`ms·CLK_PER_MS + 1` edges later, and nothing is emitted before it. Flags, pins and `FB` stay (R150). -/
def Obligations.DelayRuns : Prop :=
  ∀ (w : Microword) (ms : Half) (s : State), AboutToFetch w (.delay ms) s → 1 ≤ s.cfg.clkPerMs →
    UndisturbedFor (1 + (1 + (ms.toNat * s.cfg.clkPerMs + 1))) s →
    (∃ t, RunsTo (1 + (1 + (ms.toNat * s.cfg.clkPerMs + 1))) s t ∧ WordDone w s t ∧
      t.trace = s.trace ++ [.wait ms] ∧ t.pins = s.pins ∧ t.sc = s.sc ∧
      ((∀ i ∈ s.inputs.take (1 + (1 + (ms.toNat * s.cfg.clkPerMs + 1))), noHostWrite i = true) →
        SameBytes s t)) ∧
    (∀ k t, k ≤ 1 + (ms.toNat * s.cfg.clkPerMs + 1) → RunsTo k s t → t.trace = s.trace)

/-- R152: the delay FSM, edge by edge; no counter wraps. -/
def Obligations.DelayCounterSteps : Prop :=
  ∀ (ms : Half) (rest : List Action) (s : State), s.mode = .busy → undisturbed s.nextInput = true →
    (s.pending = .waitMs ms :: rest →
      ∃ t, step s = .next t ∧ t.pending = .waiting ms :: rest ∧ t.dlyMs = ms ∧
        t.dlyPre = s.cfg.clkPerMs - 1 ∧ t.trace = s.trace) ∧
    (s.pending = .waiting ms :: rest → s.dlyMs ≠ 0 → s.dlyPre = 0 →
      ∃ t, step s = .next t ∧ t.pending = s.pending ∧ t.dlyMs.toNat + 1 = s.dlyMs.toNat ∧
        t.dlyPre = s.cfg.clkPerMs - 1 ∧ t.trace = s.trace) ∧
    (s.pending = .waiting ms :: rest → s.dlyMs ≠ 0 → s.dlyPre ≠ 0 →
      ∃ t, step s = .next t ∧ t.pending = s.pending ∧ t.dlyMs = s.dlyMs ∧ t.dlyPre + 1 = s.dlyPre ∧
        t.trace = s.trace) ∧
    (s.pending = [.waiting ms] → s.dlyMs = 0 →
      ∃ t, step s = .next t ∧ t.pending = [] ∧ t.trace = s.trace ++ [.wait ms])

/-- R155, R341: PINS from UROM takes one edge for its fetch and one for each masked pin. Each masked pin gets
its level, in the order RST, DC, CS, BL, with an event only on a change; the others keep theirs. -/
def Obligations.PinsRuns : Prop :=
  ∀ (w : Microword) (m l : BitVec 4) (s : State), AboutToFetch w (.pins m l) s →
    CalmFor (instrEdges s.cfg (.pins m l)) s →
    ∃ t, RunsTo (instrEdges s.cfg (.pins m l)) s t ∧ WordDone w s t ∧ t.sc = s.sc ∧ t.dlyMs = s.dlyMs ∧
      t.dlyPre = s.dlyPre ∧
      (∀ q, pinLevel t.pins q =
        if m.getLsbD (pinBit q) then l.getLsbD (pinBit q) else pinLevel s.pins q) ∧
      t.trace = s.trace ++ ([Pin.rst, Pin.dc, Pin.cs, Pin.bl].filter fun q =>
        m.getLsbD (pinBit q) && (l.getLsbD (pinBit q) != pinLevel s.pins q)).map
          (fun q => Event.pin q (l.getLsbD (pinBit q))) ∧
      (QuietFor (instrEdges s.cfg (.pins m l)) s → SameBytes s t)

/-- R170, R171, R341: FILL from UROM takes `1 + FB_BYTES` edges; if the host writes nothing meanwhile, every
entry then holds the value, little-endian (R62). It sends nothing, moves no pin and emits nothing. -/
def Obligations.FillRuns : Prop :=
  ∀ (w : Microword) (v : Half) (s : State), AboutToFetch w (.fill v) s →
    UndisturbedFor (1 + s.cfg.fbBytes) s →
    (∀ i ∈ s.inputs.take (1 + s.cfg.fbBytes), noHostWrite i = true) →
    ∃ t, RunsTo (1 + s.cfg.fbBytes) s t ∧ WordDone w s t ∧ t.dlyMs = s.dlyMs ∧ t.dlyPre = s.dlyPre ∧
      t.txb = s.txb ∧ t.pins = s.pins ∧ t.trace = s.trace ∧ t.sc = s.cfg.fbBytes ∧
      (∀ k, k < s.cfg.width * s.cfg.height → fbHalf t.fb (2 * k) = v) ∧
      (∀ a, s.cfg.fbBytes ≤ a → fbByte t.fb a = fbByte s.fb a)

/-- R172 to R175, R341: STREAM from UROM takes `FB_BYTES + 5` edges and sends exactly `FB_BYTES` bytes in one
phase: entry after entry, each low byte first, unmodified, if the host writes nothing meanwhile. -/
def Obligations.StreamRuns : Prop :=
  ∀ (w : Microword) (s : State), AboutToFetch w .stream s → QuietFor (s.cfg.fbBytes + 5) s →
    ∃ t, RunsTo (s.cfg.fbBytes + 5) s t ∧ WordDone w s t ∧ t.dlyMs = s.dlyMs ∧ t.dlyPre = s.dlyPre ∧
      t.sc = s.cfg.fbBytes ∧ SameBytes s t ∧ t.pins = phasePins s.pins true ∧
      t.trace = s.trace ++ phaseEvents s.pins true (fbContents s) ∧
      (fbContents s).length = s.cfg.fbBytes ∧
      fbContents s = (List.range (s.cfg.width * s.cfg.height)).flatMap (fun k =>
        [(fbHalf s.fb (2 * k)).extractLsb' 0 8, (fbHalf s.fb (2 * k)).extractLsb' 8 8]) ∧
      (s.cfg.width = 220 → s.cfg.height = 176 → (fbContents s).length = 77440)

/-- R201: END: the program is over; the END of INIT sets `init_done`, that of SHOW leaves it. That it takes two edges,
its fetch and one of its own (S_DONE), is the reference FSM's count (R340, R341) as log 9 has it. -/
def Obligations.EndRuns : Prop :=
  ∀ (w : Microword) (s : State), AboutToFetch w .endProg s → UndisturbedFor 2 s →
    ∃ t, RunsTo 2 s t ∧ t.mode = .idle ∧ t.prog = .noProg ∧
      t.initDone = (if s.prog = .initProg then true else s.initDone) ∧
      t.cfg = s.cfg ∧ t.urom = s.urom ∧ t.upc = s.upc + 1 ∧ t.uw = w ∧ t.pending = [] ∧ t.sc = s.sc ∧
      t.dlyMs = s.dlyMs ∧ t.dlyPre = s.dlyPre ∧ t.txb = s.txb ∧ t.txv = false ∧ t.pins = s.pins ∧
      t.reqErr = s.reqErr ∧ t.errCode = s.errCode ∧ t.trace = s.trace ∧
      ((∀ i ∈ s.inputs.take 2, noHostWrite i = true) → SameBytes s t)

/-- R261, R264, R126, R265 to R269: a host microword from IDLE is taken at one edge, performs the phases it has
in UROM, and one edge later the block is in IDLE again. NOP and the stubs show BUSY for one edge and do nothing
else. The counts 14, 8 and 2 are the reference FSM's (R340, R341): the edge that takes the word, one for each action,
and one for the completion (S_DONE), as log 9 has it. -/
def Obligations.HostWordsRun : Prop :=
  ∀ (w : Microword) (a b : Half) (s : State),
    (AboutToTake w (.wreg a b) s → CalmFor 14 s →
      ∃ t, RunsTo 14 s t ∧ HostWordDone w s t ∧ t.trace = s.trace ++ wregEvents s.pins a b ∧
        t.pins = phasePins s.pins true ∧ t.sc = s.sc ∧ t.dlyMs = s.dlyMs ∧ t.dlyPre = s.dlyPre ∧
        (QuietFor 14 s → SameBytes s t)) ∧
    (AboutToTake w (.wcmd a) s → CalmFor 8 s →
      ∃ t, RunsTo 8 s t ∧ HostWordDone w s t ∧
        t.trace = s.trace ++ phaseEvents s.pins false [a.extractLsb' 8 8, a.extractLsb' 0 8] ∧
        t.pins = phasePins s.pins false ∧ t.sc = s.sc ∧ t.dlyMs = s.dlyMs ∧ t.dlyPre = s.dlyPre ∧
        (QuietFor 8 s → SameBytes s t)) ∧
    (AboutToTake w (.wdat b) s → CalmFor 8 s →
      ∃ t, RunsTo 8 s t ∧ HostWordDone w s t ∧
        t.trace = s.trace ++ phaseEvents s.pins true [b.extractLsb' 8 8, b.extractLsb' 0 8] ∧
        t.pins = phasePins s.pins true ∧ t.sc = s.sc ∧ t.dlyMs = s.dlyMs ∧ t.dlyPre = s.dlyPre ∧
        (QuietFor 8 s → SameBytes s t)) ∧
    (∀ i ∈ [Instr.nop, .powerOff, .powerOn, .contrast b, .invert b, .rotate b],
      AboutToTake w i s → UndisturbedFor 2 s →
      ∃ u t, RunsTo 1 s u ∧ u.mode = .busy ∧ RunsTo 2 s t ∧ HostWordDone w s t ∧ t.trace = s.trace ∧
        t.pins = s.pins ∧ t.sc = s.sc ∧ t.txb = s.txb ∧ t.dlyMs = s.dlyMs ∧ t.dlyPre = s.dlyPre ∧
        ((∀ e ∈ s.inputs.take 2, noHostWrite e = true) → SameBytes s t))

/-! ### Whole programs -/

/-- R207, R215: SHOW, in the edges of the reference FSM (R341; log 9), from the request to IDLE: the window and
address registers, the GRAM trigger, the whole frame buffer; and at the defaults, from DC = 1 and CS = 1, the trace of R215 to the letter. -/
def Obligations.ShowRuns : Prop :=
  (∀ (w : Microword) (s : State), AboutToTake w .showFb s → s.urom = s.cfg.urom →
    QuietFor (1 + programEdges s.cfg s.cfg.showProgram) s →
    ∃ t, RunsTo (1 + programEdges s.cfg s.cfg.showProgram) s t ∧ t.mode = .idle ∧ t.prog = .noProg ∧
      t.upc = s.cfg.uromLen ∧ t.initDone = s.initDone ∧ t.reqErr = false ∧ t.errCode = 0 ∧
      t.pins = phasePins s.pins true ∧ SameBytes s t ∧
      t.trace = s.trace ++ showEvents s.cfg s.pins (fbContents s)) ∧
  (∀ (p : Params) (pins : BitVec 4) (contents : List Byte), p.width = 220 → p.height = 176 →
    pinLevel pins .dc = true → pinLevel pins .cs = true →
    let reg (i : Byte) (v1 v0 : Byte) : List Event :=
      [.pin .dc false, .pin .cs false, .byte 0x00 false, .byte i false, .pin .cs true, .pin .dc true,
       .pin .cs false, .byte v1 true, .byte v0 true, .pin .cs true]
    let lines : List (List Event) :=
      [reg 0x03 0x10 0x18, reg 0x36 0x00 0xAF, reg 0x37 0x00 0x00, reg 0x38 0x00 0xDB, reg 0x39 0x00 0x00,
       reg 0x20 0x00 0xAF, reg 0x21 0x00 0x00,
       [.pin .dc false, .pin .cs false, .byte 0x00 false, .byte 0x22 false, .pin .cs true],
       [.pin .dc true, .pin .cs false], contents.map (fun b => .byte b true), [.pin .cs true]]
    showEvents p pins contents = lines.flatten)

/-- R211, R214: INIT from reset, in the edges of the reference FSM (R341; log 9), for every legal instance: the
trace step by step (the `Pin(CS,0)` of step (a) only where INIT_CS_LEVEL = 0), and the block then in IDLE with the frame buffer black. -/
def Obligations.InitRuns : Prop :=
  ∀ (p : Params) (ins : List EdgeIn), p.legal = true →
    QuietFor (programEdges p p.initProgram) { State.powerOn p with inputs := ins } →
    let tablePins0 : BitVec 4 := if p.initCsLevel then 0b0101 else 0b0001
    let stages : List (List Event) :=
      [[.reset], if p.initCsLevel then [] else [.pin .cs false],
       [.wait 150, .pin .rst true, .wait 150, .pin .rst false, .wait 150, .pin .rst true, .wait 50],
       tableEvents tablePins0 p.initTable,
       showEvents p (tablePins tablePins0 p.initTable) (List.replicate p.fbBytes 0),
       [.wait 50, .pin .bl true]]
    ∃ t, RunsTo (programEdges p p.initProgram) { State.powerOn p with inputs := ins } t ∧
      t.mode = .idle ∧ t.prog = .noProg ∧ t.initDone = true ∧ t.upc = 22 + p.initTable.length ∧
      t.reqErr = false ∧ t.errCode = 0 ∧ t.pins = 0b1111 ∧ t.pending = [] ∧ t.txv = false ∧
      (∀ a, a < p.fbBytes → fbByte t.fb a = 0) ∧
      t.trace = stages.flatten

/-- R207, R211: the words of the two microprograms, as numbers, for every legal instance. -/
def Obligations.ProgramWords : Prop :=
  ∀ p : Params, p.legal = true →
    let h := p.height - 1
    let v := p.width - 1
    let showWords : List Nat :=
      [0x100031018, 0x100360000 + h, 0x100370000, 0x100380000 + v, 0x100390000, 0x100200000 + h,
       0x100210000, 0x200220000, 0x700000000]
    p.showProgram.map (fun i => (encode i).toNat) = showWords ++ [0x800000000] ∧
    p.initProgram.map (fun i => (encode i).toNat) =
      [0x500070000 + (if p.initCsLevel then 4 else 0), 0x400000096, 0x500010001, 0x400000096, 0x500010000,
       0x400000096, 0x500010001, 0x400000032, 0x500080000] ++
      p.initTable.map (fun e => match e with
        | .reg i x => 0x100000000 + i.toNat * 65536 + x.toNat
        | .delay ms => 0x400000000 + ms.toNat) ++
      [0x600000000] ++ showWords ++ [0x400000032, 0x500080008, 0x800000000]

/-- R213: the layout of UROM; every word of it is well-formed for UROM, and a fetch never passes its end. -/
def Obligations.UromLayout : Prop :=
  (∀ p : Params,
    initEntry = 0 ∧ p.showEntry = 22 + p.initTable.length ∧ p.uromLen = 32 + p.initTable.length ∧
    p.urom.length = p.uromLen ∧
    (∀ k, k ≤ 21 + p.initTable.length → uromWord p.urom k = (p.initProgram.map encode)[k]?) ∧
    (∀ k, k < 10 → uromWord p.urom (22 + p.initTable.length + k) = (p.showProgram.map encode)[k]?) ∧
    (∀ k w, uromWord p.urom k = some w → wordWellFormed .urom w = true)) ∧
  (∀ s : State, Inv s → s.mode = .busy → (s.prog = .initProg ∨ s.prog = .showProg) → s.pending = [] →
    s.upc < s.cfg.uromLen)

/-! ### The invariant -/

/-- R44, R5, R6, R204: the invariant holds after reset of every legal instance and of the default one, whose
parameters are legal whatever the free table and clock rate are (log 2). -/
def Obligations.ResetMeetsInv : Prop :=
  Params.default.legal = true ∧ Params.default.fbBytes = 77440 ∧ Params.default.fbAddrW = 17 ∧
  Inv State.reset ∧ Shifted State.reset ∧ ∀ p : Params, p.legal = true → Inv (State.powerOn p)

/-- Every step keeps the invariant, from every state that meets it. -/
def Obligations.StepKeepsInv : Prop :=
  ∀ s t : State, Inv s → step s = .next t → Inv t

/-- From every state that meets the invariant, a step answers a next state: the block never stops. -/
def Obligations.StepNeverStops : Prop :=
  ∀ s : State, Inv s → ∃ t, step s = .next t

/-- R23, R27, R28: the counters fit the widths the spec gives them. -/
def Obligations.CountersFit : Prop :=
  ∀ s : State, Inv s →
    s.upc < 2 ^ s.cfg.upcW ∧ s.sc < 2 ^ (s.cfg.fbAddrW + 1) ∧ s.dlyPre < 2 ^ s.cfg.preW

/-- R79: no step writes UROM, and none changes a parameter. -/
def Obligations.UromNeverWritten : Prop :=
  ∀ s t : State, step s = .next t → t.urom = s.urom ∧ t.cfg = s.cfg

/-- R82, items 1 and 2: the block is IDLE only when no action is pending and the transport has shifted out
every byte; every step keeps what this rests on. -/
def Obligations.ShiftedOutWhenIdle : Prop :=
  (∀ s t : State, Inv s → Shifted s → step s = .next t → Shifted t) ∧
  (∀ s : State, Inv s → Shifted s → s.mode = .idle → s.pending = [] ∧ s.txv = false ∧ s.xportHeld = [])

/-- R41: a step emits at most one event; a `Byte` is the byte on offer, at the DC level of the pins, while
CS = 0, and no pin moves at that edge. -/
def Obligations.BytesOnlyWhileSelected : Prop :=
  ∀ s t : State, Inv s → step s = .next t →
    ∃ ev, t.trace = s.trace ++ ev ∧ ev.length ≤ 1 ∧
      ∀ b dc, Event.byte b dc ∈ ev →
        s.txv = true ∧ b = s.txb ∧ dc = pinLevel s.pins .dc ∧ pinLevel s.pins .cs = false ∧ t.pins = s.pins

/-- R31, R121, R331: outside reset the pins move only by a `SetPin` at the head of the pending actions, one pin
at a time, at an edge where the transport is idle and no `Send` is on offer. -/
def Obligations.PinsMoveOnlyWhenIdle : Prop :=
  ∀ s t : State, Inv s → step s = .next t → t.pins ≠ s.pins → s.nextInput.rst = false →
    s.nextInput.txIdle = true ∧ s.txv = false ∧
    ∃ q v rest, s.pending = .setPin q v :: rest ∧ t.trace = s.trace ++ [.pin q v] ∧
      ∀ r, pinLevel t.pins r = if r = q then v else pinLevel s.pins r

/-- R131: while a `Send` holds because the transport is not ready, or a `Drain` because it is not idle, nothing
of the sequencer moves, for any number of edges without fault or reset. -/
def Obligations.HoldsWithoutLimit : Prop :=
  ∀ (n : Nat) (s : State), s.mode = .busy → UndisturbedFor n s →
    (s.txv = true ∧ startsSend s.pending = true ∧ (∀ i ∈ s.inputs.take n, i.txReady = false)) ∨
    ((∃ rest, s.pending = .drain :: rest) ∧ (∀ i ∈ s.inputs.take n, i.txIdle = false)) →
    ∃ t, RunsTo n s t ∧ SameSequencer s t

/-- R120, R121, R131 (V-P9): a transport that is not ready or not idle can only delay. In BUSY an edge either
leaves the sequencer as it was or does what it would do with the transport ready and idle. -/
def Obligations.StallsOnlyDelay : Prop :=
  ∀ (i : EdgeIn) (s t : State), s.mode = .busy → undisturbed i = true → edgeStep i s = .next t →
    SameSequencer s t ∨
    ∃ u, edgeStep { i with txReady := true, txIdle := true } s = .next u ∧ SameSequencer t u ∧ SameBytes t u

/-- R65: outside the effects of FILL and of the host's writes no byte of the frame buffer changes. -/
def Obligations.FrameBufferWriters : Prop :=
  ∀ (s t : State) (a : Nat), step s = .next t → fbByte t.fb a ≠ fbByte s.fb a →
    hostWrites s.cfg s.nextInput a ∨
    (s.mode = .busy ∧ a = s.sc ∧ undisturbed s.nextInput = true ∧ ∃ v rest, s.pending = .fillByte v :: rest)

/-- R73: in one cycle reads see the frame buffer as it was at the cycle's start, then the host's write lands, then
FILL's. The host port's clauses hold at reset and fault edges too (log 7), where R291 could be read otherwise and
where `fb_rdata` is not cleared (log 5). A Send of STREAM that starts at this edge has its first cycle after it (R340;
log 9, log 10), so its byte is that of the frame buffer this edge leaves. -/
def Obligations.EdgeOrderOfFrameBuffer : Prop :=
  (∀ s t : State, step s = .next t → s.nextInput.fbEn = true → s.nextInput.fbWe = false →
    hostAccessFails s.cfg s.nextInput = false → t.fbRdata = hostReadValue s.fb s.nextInput) ∧
  (∀ (s t : State) (rest : List Action), step s = .next t → s.mode = .busy →
    undisturbed s.nextInput = true → t.pending = .sendFb :: rest → s.pending ≠ t.pending →
    t.txb = fbByte t.fb t.sc) ∧
  (∀ (s t : State) (v : Half) (rest : List Action), step s = .next t → s.mode = .busy →
    undisturbed s.nextInput = true → s.pending = .fillByte v :: rest →
    fbByte t.fb s.sc = (if s.sc % 2 = 0 then v.extractLsb' 0 8 else v.extractLsb' 8 8) ∧
    ∀ a, a ≠ s.sc → fbByte t.fb a = fbByte (s.hostPort s.nextInput).fb a)

/-- No secret of the frame buffer moves the sequencer: two states that differ only in the buffer's contents and
in bytes that came from it take steps that differ only so (R172 "regardless of buffer contents", R208). -/
def Obligations.ContentsMoveNothing : Prop :=
  ∀ s s' t : State, SameButBytes s s' → step s = .next t → ∃ t', step s' = .next t' ∧ SameButBytes t t'

/-! ### Faults and reset -/

/-- R283, R284: at every edge with `tx_fault = 1` outside FAULT and reset the block enters FAULT with code 1:
the action in progress does not complete, no byte is emitted, everything R283 does not name keeps its value. The
model's choices in it: the host's access takes place at this edge too (log 7), and what the transport then holds is
left open as R33 leaves it (log 12, log 13). -/
def Obligations.TransportFault : Prop :=
  ∀ (i : EdgeIn) (s : State), i.rst = false → i.txFault = true → s.mode ≠ .fault →
    ∃ t, edgeStep i s = .next t ∧ t.mode = .fault ∧ t.prog = .noProg ∧ t.pending = [] ∧ t.txv = false ∧
      t.initDone = false ∧ t.errCode = 1 ∧ t.trace = s.trace ++ [.fault 1] ∧ t.pins = s.pins ∧
      t.upc = s.upc ∧ t.uw = s.uw ∧ t.sc = s.sc ∧ t.dlyMs = s.dlyMs ∧ t.dlyPre = s.dlyPre ∧
      t.reqErr = s.reqErr ∧ t.txb = s.txb ∧ t.cfg = s.cfg ∧ t.urom = s.urom ∧
      (∀ a, fbByte t.fb a = fbByte (s.hostPort i).fb a) ∧
      (let kept := if i.txIdle then [] else s.xportHeld
       t.xportHeld = kept ∨ s.txv = true ∧ i.txReady = true ∧ t.xportHeld = kept ++ [s.txb])

/-- R288, R21: FAULT is left in exactly two ways. An edge with `rst = 1` leaves it, an edge that takes INIT leaves it,
both to UROM index 0; at every other edge the block stays in it, no pin moves and nothing is emitted. -/
def Obligations.FaultLeftByInitOrReset : Prop :=
  ∀ s t : State, s.mode = .fault → step s = .next t →
    (s.nextInput.rst = false ∧ ¬(s.nextInput.reqValid = true ∧ s.nextInput.reqWord = 0x900000000) ∧
      t.mode = .fault ∧ t.trace = s.trace ∧ t.pins = s.pins ∧ t.pending = s.pending ∧ t.txv = s.txv ∧
      t.errCode = s.errCode ∧ t.initDone = s.initDone) ∨
    (s.nextInput.rst = true ∧ t.mode = .busy ∧ t.prog = .initProg ∧ t.upc = 0) ∨
    (s.nextInput.rst = false ∧ s.nextInput.reqValid = true ∧ s.nextInput.reqWord = 0x900000000 ∧
      t.mode = .busy ∧ t.prog = .initProg ∧ t.upc = 0 ∧ t.initDone = false ∧ t.reqErr = false ∧ t.errCode = 0 ∧
      t.trace = s.trace ∧ t.pins = s.pins)

/-- R286: in FAULT a standing `tx_fault` raises nothing more; after an INIT is accepted under it, the next edge
raises Fault(1) again before any pin moves. -/
def Obligations.FaultAgainAfterInit : Prop :=
  (∀ (i : EdgeIn) (s : State), s.mode = .fault → i.rst = false →
    edgeStep i s = edgeStep { i with txFault := false } s) ∧
  (∀ (s : State) (i j : EdgeIn) (r : List EdgeIn), s.mode = .fault → s.inputs = i :: j :: r →
    i.rst = false → i.txFault = true → i.reqValid = true → i.reqWord = 0x900000000 →
    j.rst = false → j.txFault = true →
    ∃ u t, RunsTo 1 s u ∧ u.mode = .busy ∧ RunsTo 2 s t ∧ t.mode = .fault ∧ t.errCode = 1 ∧
      t.pins = s.pins ∧ t.trace = s.trace ++ [.fault 1])

/-- R44, R320: a run of edges with `rst = 1` leaves the reset values, keeps the frame buffer (the host writing
nothing) and appends one `Reset` event; at the first edge after it the sequencer fetches. Whether a run is the
beginning of one is told by the model's field `rstHeld` (log 8): each run leaves it true, and any edge with
`rst = 0` leaves it false, so that the next run appends its event. -/
def Obligations.ResetRun : Prop :=
  (∀ (n : Nat) (s : State), n + 1 ≤ s.inputs.length → (∀ i ∈ s.inputs.take (n + 1), i.rst = true) →
    ∃ t, RunsTo (n + 1) s t ∧ t.mode = .busy ∧ t.prog = .initProg ∧ t.upc = 0 ∧ t.uw = 0 ∧ t.pending = [] ∧
      t.sc = 0 ∧ t.dlyMs = 0 ∧ t.dlyPre = 0 ∧ t.txb = 0 ∧ t.txv = false ∧ t.pins = 0b0100 ∧
      t.initDone = false ∧ t.reqErr = false ∧ t.errCode = 0 ∧ t.cfg = s.cfg ∧ t.urom = s.urom ∧
      t.trace = (if s.rstHeld then s.trace else s.trace ++ [.reset]) ∧ t.rstHeld = true ∧
      ((∀ i ∈ s.inputs.take (n + 1), noHostWrite i = true) → SameBytes s t) ∧
      (undisturbed t.nextInput = true → step t = fetch (atPorts t.nextInput t))) ∧
  (∀ s t : State, s.nextInput.rst = false → step s = .next t → t.rstHeld = false)

/-- R44: the reset values of every element of R20, each byte of the frame buffer a free value. -/
def Obligations.ResetValues : Prop :=
  let s := State.reset
  s.mode = .busy ∧ s.prog = .initProg ∧ s.upc = 0 ∧ s.uw = 0 ∧ s.pending = [] ∧ s.sc = 0 ∧ s.dlyMs = 0 ∧
  s.dlyPre = 0 ∧ s.txb = 0 ∧ s.txv = false ∧
  pinLevel s.pins .rst = false ∧ pinLevel s.pins .dc = false ∧ pinLevel s.pins .cs = true ∧
  pinLevel s.pins .bl = false ∧ s.initDone = false ∧ s.reqErr = false ∧ s.errCode = 0 ∧
  (∀ a, fbByte s.fb a = Config.fbPowerUp a) ∧ ∃ before, s.trace = before ++ [.reset]

/-! ### The host's frame-buffer port -/

/-- R66, R67, R68: every access of the host's port; without one its outputs hold. What `fb_rdata` holds after a
failed access or a write is left open. -/
def Obligations.HostPortAccesses : Prop :=
  ∀ (i : EdgeIn) (s : State),
    (i.fbEn = false → s.hostPort i = s) ∧
    (i.fbEn = true → i.fbSize = false →
      (s.cfg.fbBytes ≤ i.fbAddr → ∃ v, s.hostPort i = { s with fbErr := true, fbRdata := v }) ∧
      (i.fbAddr < s.cfg.fbBytes → i.fbWe = false →
        s.hostPort i = { s with fbErr := false, fbRdata := (fbByte s.fb i.fbAddr).setWidth 16 }) ∧
      (i.fbAddr < s.cfg.fbBytes → i.fbWe = true →
        ∃ m v, s.hostPort i = { s with fbErr := false, fbRdata := v, fb := m } ∧
          ∀ a, fbByte m a = if a = i.fbAddr then i.fbWdata.extractLsb' 0 8 else fbByte s.fb a)) ∧
    (i.fbEn = true → i.fbSize = true →
      (i.fbAddr % 2 = 1 ∨ s.cfg.fbBytes ≤ i.fbAddr + 1 →
        ∃ v, s.hostPort i = { s with fbErr := true, fbRdata := v }) ∧
      (i.fbAddr % 2 = 0 → i.fbAddr + 1 < s.cfg.fbBytes → i.fbWe = false →
        s.hostPort i = { s with fbErr := false, fbRdata := fbByte s.fb (i.fbAddr + 1) ++ fbByte s.fb i.fbAddr }) ∧
      (i.fbAddr % 2 = 0 → i.fbAddr + 1 < s.cfg.fbBytes → i.fbWe = true →
        ∃ m v, s.hostPort i = { s with fbErr := false, fbRdata := v, fb := m } ∧
          ∀ a, fbByte m a =
            if a = i.fbAddr then i.fbWdata.extractLsb' 0 8
            else if a = i.fbAddr + 1 then i.fbWdata.extractLsb' 8 8 else fbByte s.fb a))

/-- R69: a failed host access changes nothing but `fb_err` and `fb_rdata`: the edge is otherwise the same as
without the access. That it is made, and `fb_err` set, at a reset edge too is the model's choice (log 7, log 5). -/
def Obligations.FailedAccessChangesNothing : Prop :=
  ∀ (i : EdgeIn) (s t : State), i.fbEn = true → hostAccessFails s.cfg i = true → edgeStep i s = .next t →
    t.fbErr = true ∧
    edgeStep { i with fbEn := false } s = .next { t with fbErr := s.fbErr, fbRdata := s.fbRdata }

/-- R77: the mixed-width view of the frame buffer. -/
def Obligations.MixedWidthView : Prop :=
  ∀ (m : Memory) (a : Nat) (x y : Byte) (v : Half),
    fbHalf (Memory.write (Memory.write m a x) (a + 1) y) a = y ++ x ∧
    fbByte (fbWriteHalf m a v) a = v.extractLsb' 0 8 ∧
    fbByte (fbWriteHalf m a v) (a + 1) = v.extractLsb' 8 8 ∧
    ∀ b, b ≠ a → b ≠ a + 1 → fbByte (fbWriteHalf m a v) b = fbByte m b

/-- R61 to R63, R185, R172, R174: a pixel drawn in IDLE with the color encoder's output lies at the two bytes of its
entry, and of the bytes a STREAM of that frame buffer then sends, number 2k is the high byte of its RGB565 value and
number 2k + 1 the low byte. -/
def Obligations.PixelReachesTheWire : Prop :=
  ∀ (s : State) (x y : Nat) (r g b : Byte) (rest : List EdgeIn), s.mode = .idle →
    x < s.cfg.width → y < s.cfg.height → s.inputs = drawPixelEdge s.cfg x y r g b :: rest →
    let k := y * s.cfg.width + x
    let high := (packRgb r g b).extractLsb' 8 8
    let low := (packRgb r g b).extractLsb' 0 8
    ∃ t, step s = .next t ∧ t.fbErr = false ∧ SameSequencer s t ∧
      fbByte t.fb (2 * k) = high ∧ fbByte t.fb (2 * k + 1) = low ∧
      (∀ a, a ≠ 2 * k → a ≠ 2 * k + 1 → fbByte t.fb a = fbByte s.fb a) ∧
      ∀ pins, let sent := sentBytes (phaseEvents pins true (fbContents t))
        sent.length = s.cfg.fbBytes ∧ sent[2 * k]? = some high ∧ sent[2 * k + 1]? = some low

/-- R186, R187: `loadRaw` in IDLE writes the source's bytes from address 0 up to `FB_BYTES`; a short source
leaves the rest as it was, and the block records nothing. -/
def Obligations.LoadRawWrites : Prop :=
  ∀ (s : State) (source : List Byte) (rest : List EdgeIn), s.mode = .idle →
    s.inputs = loadRaw s.cfg source ++ rest →
    ∃ t, RunsTo (min source.length s.cfg.fbBytes) s t ∧ SameSequencer s t ∧
      ∀ a, fbByte t.fb a = if h : a < source.length ∧ a < s.cfg.fbBytes then source[a]'h.1 else fbByte s.fb a

/-! ### The color encoder and the frame projection -/

/-- R241, R244: the encoder bit by bit, and its inverse property. -/
def Obligations.ColorEncoder : Prop :=
  ∀ r g b : Byte,
    colorFromRgb r g b =
      g.extractLsb' 2 3 ++ b.extractLsb' 3 5 ++ r.extractLsb' 3 5 ++ g.extractLsb' 5 3 ∧
    (swap16 (colorFromRgb r g b)).toNat =
      ((r.toNat >>> 3) <<< 11) ||| ((g.toNat >>> 2) <<< 5) ||| (b.toNat >>> 3)

/-- R247: each output has exactly the inputs that share its kept bits: 3, 2 and 3 dropped bits are free, and
different dropped bits are different inputs, so there are 2^3 · 2^2 · 2^3 of them. -/
def Obligations.ColorManyToOne : Prop :=
  ∀ v : Half, ∃ (r5 : BitVec 5) (g6 : BitVec 6) (b5 : BitVec 5),
    let input (d : BitVec 3 × BitVec 2 × BitVec 3) : Byte × Byte × Byte := (r5 ++ d.1, g6 ++ d.2.1, b5 ++ d.2.2)
    Function.Injective input ∧ ∀ r g b : Byte, colorFromRgb r g b = v ↔ ∃ d, (r, g, b) = input d

/-- R42, R74 (V-S3 of 95_test_vectors.md): what the panel receives of a SHOW does not depend on the levels the
pins start at: the phases are those of R207 and R215. -/
def Obligations.ProjectionOfShow : Prop :=
  ∀ (p : Params) (pins : BitVec 4) (contents : List Byte), contents ≠ [] →
    let reg (i v : Half) : List FrameItem := [.phase false (wireBytes i), .phase true (wireBytes v)]
    frameProjection (showEvents p pins contents) =
      reg 0x03 0x1018 ++ reg 0x36 p.lastRow ++ reg 0x37 0 ++ reg 0x38 p.lastColumn ++ reg 0x39 0 ++
      reg 0x20 p.lastRow ++ reg 0x21 0 ++ [.phase false (wireBytes 0x22), .phase true contents]

end
end

