-- ==== Sys2Proof/Laws/State.lean ====
section
/-! SUPPORT. One lemma per field per update of State: what each named update leaves in each field. -/

namespace Sys2Proof.Machine.State

variable (s : State)

/-! ### clearErrors -/

@[simp] theorem clearErrors_cfg : s.clearErrors.cfg = s.cfg := rfl
@[simp] theorem clearErrors_urom : s.clearErrors.urom = s.urom := rfl
@[simp] theorem clearErrors_mode : s.clearErrors.mode = s.mode := rfl
@[simp] theorem clearErrors_prog : s.clearErrors.prog = s.prog := rfl
@[simp] theorem clearErrors_upc : s.clearErrors.upc = s.upc := rfl
@[simp] theorem clearErrors_uw : s.clearErrors.uw = s.uw := rfl
@[simp] theorem clearErrors_pending : s.clearErrors.pending = s.pending := rfl
@[simp] theorem clearErrors_sc : s.clearErrors.sc = s.sc := rfl
@[simp] theorem clearErrors_dlyMs : s.clearErrors.dlyMs = s.dlyMs := rfl
@[simp] theorem clearErrors_dlyPre : s.clearErrors.dlyPre = s.dlyPre := rfl
@[simp] theorem clearErrors_txb : s.clearErrors.txb = s.txb := rfl
@[simp] theorem clearErrors_txv : s.clearErrors.txv = s.txv := rfl
@[simp] theorem clearErrors_pins : s.clearErrors.pins = s.pins := rfl
@[simp] theorem clearErrors_initDone : s.clearErrors.initDone = s.initDone := rfl
@[simp] theorem clearErrors_reqErr : s.clearErrors.reqErr = false := rfl
@[simp] theorem clearErrors_errCode : s.clearErrors.errCode = 0 := rfl
@[simp] theorem clearErrors_fb : s.clearErrors.fb = s.fb := rfl
@[simp] theorem clearErrors_trace : s.clearErrors.trace = s.trace := rfl
@[simp] theorem clearErrors_fbRdata : s.clearErrors.fbRdata = s.fbRdata := rfl
@[simp] theorem clearErrors_fbErr : s.clearErrors.fbErr = s.fbErr := rfl
@[simp] theorem clearErrors_xportHeld : s.clearErrors.xportHeld = s.xportHeld := rfl
@[simp] theorem clearErrors_rstHeld : s.clearErrors.rstHeld = s.rstHeld := rfl
@[simp] theorem clearErrors_inputs : s.clearErrors.inputs = s.inputs := rfl
@[simp] theorem clearErrors_edge : s.clearErrors.edge = s.edge := rfl

/-! ### reject -/

@[simp] theorem reject_cfg (c : Cause) : (s.reject c).cfg = s.cfg := rfl
@[simp] theorem reject_urom (c : Cause) : (s.reject c).urom = s.urom := rfl
@[simp] theorem reject_mode (c : Cause) : (s.reject c).mode = s.mode := rfl
@[simp] theorem reject_prog (c : Cause) : (s.reject c).prog = s.prog := rfl
@[simp] theorem reject_upc (c : Cause) : (s.reject c).upc = s.upc := rfl
@[simp] theorem reject_uw (c : Cause) : (s.reject c).uw = s.uw := rfl
@[simp] theorem reject_pending (c : Cause) : (s.reject c).pending = s.pending := rfl
@[simp] theorem reject_sc (c : Cause) : (s.reject c).sc = s.sc := rfl
@[simp] theorem reject_dlyMs (c : Cause) : (s.reject c).dlyMs = s.dlyMs := rfl
@[simp] theorem reject_dlyPre (c : Cause) : (s.reject c).dlyPre = s.dlyPre := rfl
@[simp] theorem reject_txb (c : Cause) : (s.reject c).txb = s.txb := rfl
@[simp] theorem reject_txv (c : Cause) : (s.reject c).txv = s.txv := rfl
@[simp] theorem reject_pins (c : Cause) : (s.reject c).pins = s.pins := rfl
@[simp] theorem reject_initDone (c : Cause) : (s.reject c).initDone = s.initDone := rfl
@[simp] theorem reject_reqErr (c : Cause) : (s.reject c).reqErr = true := rfl
@[simp] theorem reject_errCode (c : Cause) : (s.reject c).errCode = c.code := rfl
@[simp] theorem reject_fb (c : Cause) : (s.reject c).fb = s.fb := rfl
@[simp] theorem reject_trace (c : Cause) : (s.reject c).trace = s.trace := rfl
@[simp] theorem reject_fbRdata (c : Cause) : (s.reject c).fbRdata = s.fbRdata := rfl
@[simp] theorem reject_fbErr (c : Cause) : (s.reject c).fbErr = s.fbErr := rfl
@[simp] theorem reject_xportHeld (c : Cause) : (s.reject c).xportHeld = s.xportHeld := rfl
@[simp] theorem reject_rstHeld (c : Cause) : (s.reject c).rstHeld = s.rstHeld := rfl
@[simp] theorem reject_inputs (c : Cause) : (s.reject c).inputs = s.inputs := rfl
@[simp] theorem reject_edge (c : Cause) : (s.reject c).edge = s.edge := rfl

/-! ### refuseInFault -/

@[simp] theorem refuseInFault_cfg : s.refuseInFault.cfg = s.cfg := rfl
@[simp] theorem refuseInFault_urom : s.refuseInFault.urom = s.urom := rfl
@[simp] theorem refuseInFault_mode : s.refuseInFault.mode = s.mode := rfl
@[simp] theorem refuseInFault_prog : s.refuseInFault.prog = s.prog := rfl
@[simp] theorem refuseInFault_upc : s.refuseInFault.upc = s.upc := rfl
@[simp] theorem refuseInFault_uw : s.refuseInFault.uw = s.uw := rfl
@[simp] theorem refuseInFault_pending : s.refuseInFault.pending = s.pending := rfl
@[simp] theorem refuseInFault_sc : s.refuseInFault.sc = s.sc := rfl
@[simp] theorem refuseInFault_dlyMs : s.refuseInFault.dlyMs = s.dlyMs := rfl
@[simp] theorem refuseInFault_dlyPre : s.refuseInFault.dlyPre = s.dlyPre := rfl
@[simp] theorem refuseInFault_txb : s.refuseInFault.txb = s.txb := rfl
@[simp] theorem refuseInFault_txv : s.refuseInFault.txv = s.txv := rfl
@[simp] theorem refuseInFault_pins : s.refuseInFault.pins = s.pins := rfl
@[simp] theorem refuseInFault_initDone : s.refuseInFault.initDone = s.initDone := rfl
@[simp] theorem refuseInFault_reqErr : s.refuseInFault.reqErr = true := rfl
@[simp] theorem refuseInFault_errCode : s.refuseInFault.errCode = s.errCode := rfl
@[simp] theorem refuseInFault_fb : s.refuseInFault.fb = s.fb := rfl
@[simp] theorem refuseInFault_trace : s.refuseInFault.trace = s.trace := rfl
@[simp] theorem refuseInFault_fbRdata : s.refuseInFault.fbRdata = s.fbRdata := rfl
@[simp] theorem refuseInFault_fbErr : s.refuseInFault.fbErr = s.fbErr := rfl
@[simp] theorem refuseInFault_xportHeld : s.refuseInFault.xportHeld = s.xportHeld := rfl
@[simp] theorem refuseInFault_rstHeld : s.refuseInFault.rstHeld = s.rstHeld := rfl
@[simp] theorem refuseInFault_inputs : s.refuseInFault.inputs = s.inputs := rfl
@[simp] theorem refuseInFault_edge : s.refuseInFault.edge = s.edge := rfl

/-! ### emit -/

@[simp] theorem emit_cfg (e : Event) : (s.emit e).cfg = s.cfg := rfl
@[simp] theorem emit_urom (e : Event) : (s.emit e).urom = s.urom := rfl
@[simp] theorem emit_mode (e : Event) : (s.emit e).mode = s.mode := rfl
@[simp] theorem emit_prog (e : Event) : (s.emit e).prog = s.prog := rfl
@[simp] theorem emit_upc (e : Event) : (s.emit e).upc = s.upc := rfl
@[simp] theorem emit_uw (e : Event) : (s.emit e).uw = s.uw := rfl
@[simp] theorem emit_pending (e : Event) : (s.emit e).pending = s.pending := rfl
@[simp] theorem emit_sc (e : Event) : (s.emit e).sc = s.sc := rfl
@[simp] theorem emit_dlyMs (e : Event) : (s.emit e).dlyMs = s.dlyMs := rfl
@[simp] theorem emit_dlyPre (e : Event) : (s.emit e).dlyPre = s.dlyPre := rfl
@[simp] theorem emit_txb (e : Event) : (s.emit e).txb = s.txb := rfl
@[simp] theorem emit_txv (e : Event) : (s.emit e).txv = s.txv := rfl
@[simp] theorem emit_pins (e : Event) : (s.emit e).pins = s.pins := rfl
@[simp] theorem emit_initDone (e : Event) : (s.emit e).initDone = s.initDone := rfl
@[simp] theorem emit_reqErr (e : Event) : (s.emit e).reqErr = s.reqErr := rfl
@[simp] theorem emit_errCode (e : Event) : (s.emit e).errCode = s.errCode := rfl
@[simp] theorem emit_fb (e : Event) : (s.emit e).fb = s.fb := rfl
@[simp] theorem emit_trace (e : Event) : (s.emit e).trace = s.trace ++ [e] := rfl
@[simp] theorem emit_fbRdata (e : Event) : (s.emit e).fbRdata = s.fbRdata := rfl
@[simp] theorem emit_fbErr (e : Event) : (s.emit e).fbErr = s.fbErr := rfl
@[simp] theorem emit_xportHeld (e : Event) : (s.emit e).xportHeld = s.xportHeld := rfl
@[simp] theorem emit_rstHeld (e : Event) : (s.emit e).rstHeld = s.rstHeld := rfl
@[simp] theorem emit_inputs (e : Event) : (s.emit e).inputs = s.inputs := rfl
@[simp] theorem emit_edge (e : Event) : (s.emit e).edge = s.edge := rfl

/-! ### offer -/

@[simp] theorem offer_cfg (b : Byte) : (s.offer b).cfg = s.cfg := rfl
@[simp] theorem offer_urom (b : Byte) : (s.offer b).urom = s.urom := rfl
@[simp] theorem offer_mode (b : Byte) : (s.offer b).mode = s.mode := rfl
@[simp] theorem offer_prog (b : Byte) : (s.offer b).prog = s.prog := rfl
@[simp] theorem offer_upc (b : Byte) : (s.offer b).upc = s.upc := rfl
@[simp] theorem offer_uw (b : Byte) : (s.offer b).uw = s.uw := rfl
@[simp] theorem offer_pending (b : Byte) : (s.offer b).pending = s.pending := rfl
@[simp] theorem offer_sc (b : Byte) : (s.offer b).sc = s.sc := rfl
@[simp] theorem offer_dlyMs (b : Byte) : (s.offer b).dlyMs = s.dlyMs := rfl
@[simp] theorem offer_dlyPre (b : Byte) : (s.offer b).dlyPre = s.dlyPre := rfl
@[simp] theorem offer_txb (b : Byte) : (s.offer b).txb = b := rfl
@[simp] theorem offer_txv (b : Byte) : (s.offer b).txv = true := rfl
@[simp] theorem offer_pins (b : Byte) : (s.offer b).pins = s.pins := rfl
@[simp] theorem offer_initDone (b : Byte) : (s.offer b).initDone = s.initDone := rfl
@[simp] theorem offer_reqErr (b : Byte) : (s.offer b).reqErr = s.reqErr := rfl
@[simp] theorem offer_errCode (b : Byte) : (s.offer b).errCode = s.errCode := rfl
@[simp] theorem offer_fb (b : Byte) : (s.offer b).fb = s.fb := rfl
@[simp] theorem offer_trace (b : Byte) : (s.offer b).trace = s.trace := rfl
@[simp] theorem offer_fbRdata (b : Byte) : (s.offer b).fbRdata = s.fbRdata := rfl
@[simp] theorem offer_fbErr (b : Byte) : (s.offer b).fbErr = s.fbErr := rfl
@[simp] theorem offer_xportHeld (b : Byte) : (s.offer b).xportHeld = s.xportHeld := rfl
@[simp] theorem offer_rstHeld (b : Byte) : (s.offer b).rstHeld = s.rstHeld := rfl
@[simp] theorem offer_inputs (b : Byte) : (s.offer b).inputs = s.inputs := rfl
@[simp] theorem offer_edge (b : Byte) : (s.offer b).edge = s.edge := rfl

/-! ### accepted -/

@[simp] theorem accepted_cfg : s.accepted.cfg = s.cfg := rfl
@[simp] theorem accepted_urom : s.accepted.urom = s.urom := rfl
@[simp] theorem accepted_mode : s.accepted.mode = s.mode := rfl
@[simp] theorem accepted_prog : s.accepted.prog = s.prog := rfl
@[simp] theorem accepted_upc : s.accepted.upc = s.upc := rfl
@[simp] theorem accepted_uw : s.accepted.uw = s.uw := rfl
@[simp] theorem accepted_pending : s.accepted.pending = s.pending := rfl
@[simp] theorem accepted_sc : s.accepted.sc = s.sc := rfl
@[simp] theorem accepted_dlyMs : s.accepted.dlyMs = s.dlyMs := rfl
@[simp] theorem accepted_dlyPre : s.accepted.dlyPre = s.dlyPre := rfl
@[simp] theorem accepted_txb : s.accepted.txb = s.txb := rfl
@[simp] theorem accepted_txv : s.accepted.txv = false := rfl
@[simp] theorem accepted_pins : s.accepted.pins = s.pins := rfl
@[simp] theorem accepted_initDone : s.accepted.initDone = s.initDone := rfl
@[simp] theorem accepted_reqErr : s.accepted.reqErr = s.reqErr := rfl
@[simp] theorem accepted_errCode : s.accepted.errCode = s.errCode := rfl
@[simp] theorem accepted_fb : s.accepted.fb = s.fb := rfl
@[simp] theorem accepted_trace : s.accepted.trace = s.trace ++ [.byte s.txb (pinLevel s.pins .dc)] := rfl
@[simp] theorem accepted_fbRdata : s.accepted.fbRdata = s.fbRdata := rfl
@[simp] theorem accepted_fbErr : s.accepted.fbErr = s.fbErr := rfl
@[simp] theorem accepted_xportHeld : s.accepted.xportHeld = s.xportHeld ++ [s.txb] := rfl
@[simp] theorem accepted_rstHeld : s.accepted.rstHeld = s.rstHeld := rfl
@[simp] theorem accepted_inputs : s.accepted.inputs = s.inputs := rfl
@[simp] theorem accepted_edge : s.accepted.edge = s.edge := rfl

/-! ### countByte -/

@[simp] theorem countByte_cfg : s.countByte.cfg = s.cfg := rfl
@[simp] theorem countByte_urom : s.countByte.urom = s.urom := rfl
@[simp] theorem countByte_mode : s.countByte.mode = s.mode := rfl
@[simp] theorem countByte_prog : s.countByte.prog = s.prog := rfl
@[simp] theorem countByte_upc : s.countByte.upc = s.upc := rfl
@[simp] theorem countByte_uw : s.countByte.uw = s.uw := rfl
@[simp] theorem countByte_pending : s.countByte.pending = s.pending := rfl
@[simp] theorem countByte_sc : s.countByte.sc = s.sc + 1 := rfl
@[simp] theorem countByte_dlyMs : s.countByte.dlyMs = s.dlyMs := rfl
@[simp] theorem countByte_dlyPre : s.countByte.dlyPre = s.dlyPre := rfl
@[simp] theorem countByte_txb : s.countByte.txb = s.txb := rfl
@[simp] theorem countByte_txv : s.countByte.txv = s.txv := rfl
@[simp] theorem countByte_pins : s.countByte.pins = s.pins := rfl
@[simp] theorem countByte_initDone : s.countByte.initDone = s.initDone := rfl
@[simp] theorem countByte_reqErr : s.countByte.reqErr = s.reqErr := rfl
@[simp] theorem countByte_errCode : s.countByte.errCode = s.errCode := rfl
@[simp] theorem countByte_fb : s.countByte.fb = s.fb := rfl
@[simp] theorem countByte_trace : s.countByte.trace = s.trace := rfl
@[simp] theorem countByte_fbRdata : s.countByte.fbRdata = s.fbRdata := rfl
@[simp] theorem countByte_fbErr : s.countByte.fbErr = s.fbErr := rfl
@[simp] theorem countByte_xportHeld : s.countByte.xportHeld = s.xportHeld := rfl
@[simp] theorem countByte_rstHeld : s.countByte.rstHeld = s.rstHeld := rfl
@[simp] theorem countByte_inputs : s.countByte.inputs = s.inputs := rfl
@[simp] theorem countByte_edge : s.countByte.edge = s.edge := rfl

/-! ### fillStore -/

@[simp] theorem fillStore_cfg (v : Half) : (s.fillStore v).cfg = s.cfg := rfl
@[simp] theorem fillStore_urom (v : Half) : (s.fillStore v).urom = s.urom := rfl
@[simp] theorem fillStore_mode (v : Half) : (s.fillStore v).mode = s.mode := rfl
@[simp] theorem fillStore_prog (v : Half) : (s.fillStore v).prog = s.prog := rfl
@[simp] theorem fillStore_upc (v : Half) : (s.fillStore v).upc = s.upc := rfl
@[simp] theorem fillStore_uw (v : Half) : (s.fillStore v).uw = s.uw := rfl
@[simp] theorem fillStore_pending (v : Half) : (s.fillStore v).pending = s.pending := rfl
@[simp] theorem fillStore_sc (v : Half) : (s.fillStore v).sc = s.sc := rfl
@[simp] theorem fillStore_dlyMs (v : Half) : (s.fillStore v).dlyMs = s.dlyMs := rfl
@[simp] theorem fillStore_dlyPre (v : Half) : (s.fillStore v).dlyPre = s.dlyPre := rfl
@[simp] theorem fillStore_txb (v : Half) : (s.fillStore v).txb = s.txb := rfl
@[simp] theorem fillStore_txv (v : Half) : (s.fillStore v).txv = s.txv := rfl
@[simp] theorem fillStore_pins (v : Half) : (s.fillStore v).pins = s.pins := rfl
@[simp] theorem fillStore_initDone (v : Half) : (s.fillStore v).initDone = s.initDone := rfl
@[simp] theorem fillStore_reqErr (v : Half) : (s.fillStore v).reqErr = s.reqErr := rfl
@[simp] theorem fillStore_errCode (v : Half) : (s.fillStore v).errCode = s.errCode := rfl
@[simp] theorem fillStore_fb (v : Half) : (s.fillStore v).fb = Memory.write s.fb s.sc (fillByteAt v s.sc) := rfl
@[simp] theorem fillStore_trace (v : Half) : (s.fillStore v).trace = s.trace := rfl
@[simp] theorem fillStore_fbRdata (v : Half) : (s.fillStore v).fbRdata = s.fbRdata := rfl
@[simp] theorem fillStore_fbErr (v : Half) : (s.fillStore v).fbErr = s.fbErr := rfl
@[simp] theorem fillStore_xportHeld (v : Half) : (s.fillStore v).xportHeld = s.xportHeld := rfl
@[simp] theorem fillStore_rstHeld (v : Half) : (s.fillStore v).rstHeld = s.rstHeld := rfl
@[simp] theorem fillStore_inputs (v : Half) : (s.fillStore v).inputs = s.inputs := rfl
@[simp] theorem fillStore_edge (v : Half) : (s.fillStore v).edge = s.edge := rfl

/-! ### withPending -/

@[simp] theorem withPending_cfg (l : List Action) : (s.withPending l).cfg = s.cfg := rfl
@[simp] theorem withPending_urom (l : List Action) : (s.withPending l).urom = s.urom := rfl
@[simp] theorem withPending_mode (l : List Action) : (s.withPending l).mode = s.mode := rfl
@[simp] theorem withPending_prog (l : List Action) : (s.withPending l).prog = s.prog := rfl
@[simp] theorem withPending_upc (l : List Action) : (s.withPending l).upc = s.upc := rfl
@[simp] theorem withPending_uw (l : List Action) : (s.withPending l).uw = s.uw := rfl
@[simp] theorem withPending_pending (l : List Action) : (s.withPending l).pending = l := rfl
@[simp] theorem withPending_sc (l : List Action) : (s.withPending l).sc = s.sc := rfl
@[simp] theorem withPending_dlyMs (l : List Action) : (s.withPending l).dlyMs = s.dlyMs := rfl
@[simp] theorem withPending_dlyPre (l : List Action) : (s.withPending l).dlyPre = s.dlyPre := rfl
@[simp] theorem withPending_txb (l : List Action) : (s.withPending l).txb = s.txb := rfl
@[simp] theorem withPending_txv (l : List Action) : (s.withPending l).txv = s.txv := rfl
@[simp] theorem withPending_pins (l : List Action) : (s.withPending l).pins = s.pins := rfl
@[simp] theorem withPending_initDone (l : List Action) : (s.withPending l).initDone = s.initDone := rfl
@[simp] theorem withPending_reqErr (l : List Action) : (s.withPending l).reqErr = s.reqErr := rfl
@[simp] theorem withPending_errCode (l : List Action) : (s.withPending l).errCode = s.errCode := rfl
@[simp] theorem withPending_fb (l : List Action) : (s.withPending l).fb = s.fb := rfl
@[simp] theorem withPending_trace (l : List Action) : (s.withPending l).trace = s.trace := rfl
@[simp] theorem withPending_fbRdata (l : List Action) : (s.withPending l).fbRdata = s.fbRdata := rfl
@[simp] theorem withPending_fbErr (l : List Action) : (s.withPending l).fbErr = s.fbErr := rfl
@[simp] theorem withPending_xportHeld (l : List Action) : (s.withPending l).xportHeld = s.xportHeld := rfl
@[simp] theorem withPending_rstHeld (l : List Action) : (s.withPending l).rstHeld = s.rstHeld := rfl
@[simp] theorem withPending_inputs (l : List Action) : (s.withPending l).inputs = s.inputs := rfl
@[simp] theorem withPending_edge (l : List Action) : (s.withPending l).edge = s.edge := rfl

/-! ### loadDelay -/

@[simp] theorem loadDelay_cfg (ms : Half) : (s.loadDelay ms).cfg = s.cfg := rfl
@[simp] theorem loadDelay_urom (ms : Half) : (s.loadDelay ms).urom = s.urom := rfl
@[simp] theorem loadDelay_mode (ms : Half) : (s.loadDelay ms).mode = s.mode := rfl
@[simp] theorem loadDelay_prog (ms : Half) : (s.loadDelay ms).prog = s.prog := rfl
@[simp] theorem loadDelay_upc (ms : Half) : (s.loadDelay ms).upc = s.upc := rfl
@[simp] theorem loadDelay_uw (ms : Half) : (s.loadDelay ms).uw = s.uw := rfl
@[simp] theorem loadDelay_pending (ms : Half) : (s.loadDelay ms).pending = s.pending := rfl
@[simp] theorem loadDelay_sc (ms : Half) : (s.loadDelay ms).sc = s.sc := rfl
@[simp] theorem loadDelay_dlyMs (ms : Half) : (s.loadDelay ms).dlyMs = ms := rfl
@[simp] theorem loadDelay_dlyPre (ms : Half) : (s.loadDelay ms).dlyPre = s.cfg.clkPerMs - 1 := rfl
@[simp] theorem loadDelay_txb (ms : Half) : (s.loadDelay ms).txb = s.txb := rfl
@[simp] theorem loadDelay_txv (ms : Half) : (s.loadDelay ms).txv = s.txv := rfl
@[simp] theorem loadDelay_pins (ms : Half) : (s.loadDelay ms).pins = s.pins := rfl
@[simp] theorem loadDelay_initDone (ms : Half) : (s.loadDelay ms).initDone = s.initDone := rfl
@[simp] theorem loadDelay_reqErr (ms : Half) : (s.loadDelay ms).reqErr = s.reqErr := rfl
@[simp] theorem loadDelay_errCode (ms : Half) : (s.loadDelay ms).errCode = s.errCode := rfl
@[simp] theorem loadDelay_fb (ms : Half) : (s.loadDelay ms).fb = s.fb := rfl
@[simp] theorem loadDelay_trace (ms : Half) : (s.loadDelay ms).trace = s.trace := rfl
@[simp] theorem loadDelay_fbRdata (ms : Half) : (s.loadDelay ms).fbRdata = s.fbRdata := rfl
@[simp] theorem loadDelay_fbErr (ms : Half) : (s.loadDelay ms).fbErr = s.fbErr := rfl
@[simp] theorem loadDelay_xportHeld (ms : Half) : (s.loadDelay ms).xportHeld = s.xportHeld := rfl
@[simp] theorem loadDelay_rstHeld (ms : Half) : (s.loadDelay ms).rstHeld = s.rstHeld := rfl
@[simp] theorem loadDelay_inputs (ms : Half) : (s.loadDelay ms).inputs = s.inputs := rfl
@[simp] theorem loadDelay_edge (ms : Half) : (s.loadDelay ms).edge = s.edge := rfl

/-! ### raiseFault -/

@[simp] theorem raiseFault_cfg (c : Cause) : (s.raiseFault c).cfg = s.cfg := rfl
@[simp] theorem raiseFault_urom (c : Cause) : (s.raiseFault c).urom = s.urom := rfl
@[simp] theorem raiseFault_mode (c : Cause) : (s.raiseFault c).mode = .fault := rfl
@[simp] theorem raiseFault_prog (c : Cause) : (s.raiseFault c).prog = .noProg := rfl
@[simp] theorem raiseFault_upc (c : Cause) : (s.raiseFault c).upc = s.upc := rfl
@[simp] theorem raiseFault_uw (c : Cause) : (s.raiseFault c).uw = s.uw := rfl
@[simp] theorem raiseFault_pending (c : Cause) : (s.raiseFault c).pending = [] := rfl
@[simp] theorem raiseFault_sc (c : Cause) : (s.raiseFault c).sc = s.sc := rfl
@[simp] theorem raiseFault_dlyMs (c : Cause) : (s.raiseFault c).dlyMs = s.dlyMs := rfl
@[simp] theorem raiseFault_dlyPre (c : Cause) : (s.raiseFault c).dlyPre = s.dlyPre := rfl
@[simp] theorem raiseFault_txb (c : Cause) : (s.raiseFault c).txb = s.txb := rfl
@[simp] theorem raiseFault_txv (c : Cause) : (s.raiseFault c).txv = false := rfl
@[simp] theorem raiseFault_pins (c : Cause) : (s.raiseFault c).pins = s.pins := rfl
@[simp] theorem raiseFault_initDone (c : Cause) : (s.raiseFault c).initDone = false := rfl
@[simp] theorem raiseFault_reqErr (c : Cause) : (s.raiseFault c).reqErr = s.reqErr := rfl
@[simp] theorem raiseFault_errCode (c : Cause) : (s.raiseFault c).errCode = c.code := rfl
@[simp] theorem raiseFault_fb (c : Cause) : (s.raiseFault c).fb = s.fb := rfl
@[simp] theorem raiseFault_trace (c : Cause) : (s.raiseFault c).trace = s.trace ++ [.fault c.code] := rfl
@[simp] theorem raiseFault_fbRdata (c : Cause) : (s.raiseFault c).fbRdata = s.fbRdata := rfl
@[simp] theorem raiseFault_fbErr (c : Cause) : (s.raiseFault c).fbErr = s.fbErr := rfl
@[simp] theorem raiseFault_xportHeld (c : Cause) : (s.raiseFault c).xportHeld = s.xportHeld := rfl
@[simp] theorem raiseFault_rstHeld (c : Cause) : (s.raiseFault c).rstHeld = s.rstHeld := rfl
@[simp] theorem raiseFault_inputs (c : Cause) : (s.raiseFault c).inputs = s.inputs := rfl
@[simp] theorem raiseFault_edge (c : Cause) : (s.raiseFault c).edge = s.edge := rfl

/-! ### enterInit -/

@[simp] theorem enterInit_cfg : s.enterInit.cfg = s.cfg := rfl
@[simp] theorem enterInit_urom : s.enterInit.urom = s.urom := rfl
@[simp] theorem enterInit_mode : s.enterInit.mode = .busy := rfl
@[simp] theorem enterInit_prog : s.enterInit.prog = .initProg := rfl
@[simp] theorem enterInit_upc : s.enterInit.upc = initEntry := rfl
@[simp] theorem enterInit_uw : s.enterInit.uw = s.uw := rfl
@[simp] theorem enterInit_pending : s.enterInit.pending = s.pending := rfl
@[simp] theorem enterInit_sc : s.enterInit.sc = s.sc := rfl
@[simp] theorem enterInit_dlyMs : s.enterInit.dlyMs = s.dlyMs := rfl
@[simp] theorem enterInit_dlyPre : s.enterInit.dlyPre = s.dlyPre := rfl
@[simp] theorem enterInit_txb : s.enterInit.txb = s.txb := rfl
@[simp] theorem enterInit_txv : s.enterInit.txv = s.txv := rfl
@[simp] theorem enterInit_pins : s.enterInit.pins = s.pins := rfl
@[simp] theorem enterInit_initDone : s.enterInit.initDone = false := rfl
@[simp] theorem enterInit_reqErr : s.enterInit.reqErr = false := rfl
@[simp] theorem enterInit_errCode : s.enterInit.errCode = 0 := rfl
@[simp] theorem enterInit_fb : s.enterInit.fb = s.fb := rfl
@[simp] theorem enterInit_trace : s.enterInit.trace = s.trace := rfl
@[simp] theorem enterInit_fbRdata : s.enterInit.fbRdata = s.fbRdata := rfl
@[simp] theorem enterInit_fbErr : s.enterInit.fbErr = s.fbErr := rfl
@[simp] theorem enterInit_xportHeld : s.enterInit.xportHeld = s.xportHeld := rfl
@[simp] theorem enterInit_rstHeld : s.enterInit.rstHeld = s.rstHeld := rfl
@[simp] theorem enterInit_inputs : s.enterInit.inputs = s.inputs := rfl
@[simp] theorem enterInit_edge : s.enterInit.edge = s.edge := rfl

/-! ### enterShow -/

@[simp] theorem enterShow_cfg : s.enterShow.cfg = s.cfg := rfl
@[simp] theorem enterShow_urom : s.enterShow.urom = s.urom := rfl
@[simp] theorem enterShow_mode : s.enterShow.mode = .busy := rfl
@[simp] theorem enterShow_prog : s.enterShow.prog = .showProg := rfl
@[simp] theorem enterShow_upc : s.enterShow.upc = s.cfg.showEntry := rfl
@[simp] theorem enterShow_uw : s.enterShow.uw = s.uw := rfl
@[simp] theorem enterShow_pending : s.enterShow.pending = s.pending := rfl
@[simp] theorem enterShow_sc : s.enterShow.sc = s.sc := rfl
@[simp] theorem enterShow_dlyMs : s.enterShow.dlyMs = s.dlyMs := rfl
@[simp] theorem enterShow_dlyPre : s.enterShow.dlyPre = s.dlyPre := rfl
@[simp] theorem enterShow_txb : s.enterShow.txb = s.txb := rfl
@[simp] theorem enterShow_txv : s.enterShow.txv = s.txv := rfl
@[simp] theorem enterShow_pins : s.enterShow.pins = s.pins := rfl
@[simp] theorem enterShow_initDone : s.enterShow.initDone = s.initDone := rfl
@[simp] theorem enterShow_reqErr : s.enterShow.reqErr = false := rfl
@[simp] theorem enterShow_errCode : s.enterShow.errCode = 0 := rfl
@[simp] theorem enterShow_fb : s.enterShow.fb = s.fb := rfl
@[simp] theorem enterShow_trace : s.enterShow.trace = s.trace := rfl
@[simp] theorem enterShow_fbRdata : s.enterShow.fbRdata = s.fbRdata := rfl
@[simp] theorem enterShow_fbErr : s.enterShow.fbErr = s.fbErr := rfl
@[simp] theorem enterShow_xportHeld : s.enterShow.xportHeld = s.xportHeld := rfl
@[simp] theorem enterShow_rstHeld : s.enterShow.rstHeld = s.rstHeld := rfl
@[simp] theorem enterShow_inputs : s.enterShow.inputs = s.inputs := rfl
@[simp] theorem enterShow_edge : s.enterShow.edge = s.edge := rfl

/-! ### begin -/

@[simp] theorem begin_cfg (l : List Action) : (s.begin l).cfg = s.cfg := rfl
@[simp] theorem begin_urom (l : List Action) : (s.begin l).urom = s.urom := rfl
@[simp] theorem begin_mode (l : List Action) : (s.begin l).mode = s.mode := rfl
@[simp] theorem begin_prog (l : List Action) : (s.begin l).prog = s.prog := rfl
@[simp] theorem begin_upc (l : List Action) : (s.begin l).upc = s.upc := rfl
@[simp] theorem begin_uw (l : List Action) : (s.begin l).uw = s.uw := rfl
@[simp] theorem begin_pending (l : List Action) : (s.begin l).pending = l := rfl
@[simp] theorem begin_sc (l : List Action) : (s.begin l).sc = s.sc := rfl
@[simp] theorem begin_dlyMs (l : List Action) : (s.begin l).dlyMs = s.dlyMs := rfl
@[simp] theorem begin_dlyPre (l : List Action) : (s.begin l).dlyPre = s.dlyPre := rfl
@[simp] theorem begin_txb (l : List Action) : (s.begin l).txb = s.txb := rfl
@[simp] theorem begin_txv (l : List Action) : (s.begin l).txv = s.txv := rfl
@[simp] theorem begin_pins (l : List Action) : (s.begin l).pins = s.pins := rfl
@[simp] theorem begin_initDone (l : List Action) : (s.begin l).initDone = s.initDone := rfl
@[simp] theorem begin_reqErr (l : List Action) : (s.begin l).reqErr = s.reqErr := rfl
@[simp] theorem begin_errCode (l : List Action) : (s.begin l).errCode = s.errCode := rfl
@[simp] theorem begin_fb (l : List Action) : (s.begin l).fb = s.fb := rfl
@[simp] theorem begin_trace (l : List Action) : (s.begin l).trace = s.trace := rfl
@[simp] theorem begin_fbRdata (l : List Action) : (s.begin l).fbRdata = s.fbRdata := rfl
@[simp] theorem begin_fbErr (l : List Action) : (s.begin l).fbErr = s.fbErr := rfl
@[simp] theorem begin_xportHeld (l : List Action) : (s.begin l).xportHeld = s.xportHeld := rfl
@[simp] theorem begin_rstHeld (l : List Action) : (s.begin l).rstHeld = s.rstHeld := rfl
@[simp] theorem begin_inputs (l : List Action) : (s.begin l).inputs = s.inputs := rfl
@[simp] theorem begin_edge (l : List Action) : (s.begin l).edge = s.edge := rfl

/-! ### acceptRequest -/

@[simp] theorem acceptRequest_cfg (i : Instr) (l : List Action) : (s.acceptRequest i l).cfg = s.cfg := rfl
@[simp] theorem acceptRequest_urom (i : Instr) (l : List Action) : (s.acceptRequest i l).urom = s.urom := rfl
@[simp] theorem acceptRequest_mode (i : Instr) (l : List Action) : (s.acceptRequest i l).mode = .busy := rfl
@[simp] theorem acceptRequest_prog (i : Instr) (l : List Action) : (s.acceptRequest i l).prog = .hostOp := rfl
@[simp] theorem acceptRequest_upc (i : Instr) (l : List Action) : (s.acceptRequest i l).upc = s.upc := rfl
@[simp] theorem acceptRequest_uw (i : Instr) (l : List Action) : (s.acceptRequest i l).uw = encode i := rfl
@[simp] theorem acceptRequest_pending (i : Instr) (l : List Action) : (s.acceptRequest i l).pending = l := rfl
@[simp] theorem acceptRequest_sc (i : Instr) (l : List Action) : (s.acceptRequest i l).sc = s.sc := rfl
@[simp] theorem acceptRequest_dlyMs (i : Instr) (l : List Action) : (s.acceptRequest i l).dlyMs = s.dlyMs := rfl
@[simp] theorem acceptRequest_dlyPre (i : Instr) (l : List Action) : (s.acceptRequest i l).dlyPre = s.dlyPre := rfl
@[simp] theorem acceptRequest_txb (i : Instr) (l : List Action) : (s.acceptRequest i l).txb = s.txb := rfl
@[simp] theorem acceptRequest_txv (i : Instr) (l : List Action) : (s.acceptRequest i l).txv = s.txv := rfl
@[simp] theorem acceptRequest_pins (i : Instr) (l : List Action) : (s.acceptRequest i l).pins = s.pins := rfl
@[simp] theorem acceptRequest_initDone (i : Instr) (l : List Action) : (s.acceptRequest i l).initDone = s.initDone := rfl
@[simp] theorem acceptRequest_reqErr (i : Instr) (l : List Action) : (s.acceptRequest i l).reqErr = false := rfl
@[simp] theorem acceptRequest_errCode (i : Instr) (l : List Action) : (s.acceptRequest i l).errCode = 0 := rfl
@[simp] theorem acceptRequest_fb (i : Instr) (l : List Action) : (s.acceptRequest i l).fb = s.fb := rfl
@[simp] theorem acceptRequest_trace (i : Instr) (l : List Action) : (s.acceptRequest i l).trace = s.trace := rfl
@[simp] theorem acceptRequest_fbRdata (i : Instr) (l : List Action) : (s.acceptRequest i l).fbRdata = s.fbRdata := rfl
@[simp] theorem acceptRequest_fbErr (i : Instr) (l : List Action) : (s.acceptRequest i l).fbErr = s.fbErr := rfl
@[simp] theorem acceptRequest_xportHeld (i : Instr) (l : List Action) : (s.acceptRequest i l).xportHeld = s.xportHeld := rfl
@[simp] theorem acceptRequest_rstHeld (i : Instr) (l : List Action) : (s.acceptRequest i l).rstHeld = s.rstHeld := rfl
@[simp] theorem acceptRequest_inputs (i : Instr) (l : List Action) : (s.acceptRequest i l).inputs = s.inputs := rfl
@[simp] theorem acceptRequest_edge (i : Instr) (l : List Action) : (s.acceptRequest i l).edge = s.edge := rfl

/-! ### resetCounter -/

@[simp] theorem resetCounter_cfg : s.resetCounter.cfg = s.cfg := rfl
@[simp] theorem resetCounter_urom : s.resetCounter.urom = s.urom := rfl
@[simp] theorem resetCounter_mode : s.resetCounter.mode = s.mode := rfl
@[simp] theorem resetCounter_prog : s.resetCounter.prog = s.prog := rfl
@[simp] theorem resetCounter_upc : s.resetCounter.upc = s.upc := rfl
@[simp] theorem resetCounter_uw : s.resetCounter.uw = s.uw := rfl
@[simp] theorem resetCounter_pending : s.resetCounter.pending = s.pending := rfl
@[simp] theorem resetCounter_sc : s.resetCounter.sc = 0 := rfl
@[simp] theorem resetCounter_dlyMs : s.resetCounter.dlyMs = s.dlyMs := rfl
@[simp] theorem resetCounter_dlyPre : s.resetCounter.dlyPre = s.dlyPre := rfl
@[simp] theorem resetCounter_txb : s.resetCounter.txb = s.txb := rfl
@[simp] theorem resetCounter_txv : s.resetCounter.txv = s.txv := rfl
@[simp] theorem resetCounter_pins : s.resetCounter.pins = s.pins := rfl
@[simp] theorem resetCounter_initDone : s.resetCounter.initDone = s.initDone := rfl
@[simp] theorem resetCounter_reqErr : s.resetCounter.reqErr = s.reqErr := rfl
@[simp] theorem resetCounter_errCode : s.resetCounter.errCode = s.errCode := rfl
@[simp] theorem resetCounter_fb : s.resetCounter.fb = s.fb := rfl
@[simp] theorem resetCounter_trace : s.resetCounter.trace = s.trace := rfl
@[simp] theorem resetCounter_fbRdata : s.resetCounter.fbRdata = s.fbRdata := rfl
@[simp] theorem resetCounter_fbErr : s.resetCounter.fbErr = s.fbErr := rfl
@[simp] theorem resetCounter_xportHeld : s.resetCounter.xportHeld = s.xportHeld := rfl
@[simp] theorem resetCounter_rstHeld : s.resetCounter.rstHeld = s.rstHeld := rfl
@[simp] theorem resetCounter_inputs : s.resetCounter.inputs = s.inputs := rfl
@[simp] theorem resetCounter_edge : s.resetCounter.edge = s.edge := rfl

/-! ### finishProgram -/

@[simp] theorem finishProgram_cfg : s.finishProgram.cfg = s.cfg := rfl
@[simp] theorem finishProgram_urom : s.finishProgram.urom = s.urom := rfl
@[simp] theorem finishProgram_mode : s.finishProgram.mode = .idle := rfl
@[simp] theorem finishProgram_prog : s.finishProgram.prog = .noProg := rfl
@[simp] theorem finishProgram_upc : s.finishProgram.upc = s.upc := rfl
@[simp] theorem finishProgram_uw : s.finishProgram.uw = s.uw := rfl
@[simp] theorem finishProgram_pending : s.finishProgram.pending = s.pending := rfl
@[simp] theorem finishProgram_sc : s.finishProgram.sc = s.sc := rfl
@[simp] theorem finishProgram_dlyMs : s.finishProgram.dlyMs = s.dlyMs := rfl
@[simp] theorem finishProgram_dlyPre : s.finishProgram.dlyPre = s.dlyPre := rfl
@[simp] theorem finishProgram_txb : s.finishProgram.txb = s.txb := rfl
@[simp] theorem finishProgram_txv : s.finishProgram.txv = s.txv := rfl
@[simp] theorem finishProgram_pins : s.finishProgram.pins = s.pins := rfl
@[simp] theorem finishProgram_initDone : s.finishProgram.initDone = initDoneAtEnd s := rfl
@[simp] theorem finishProgram_reqErr : s.finishProgram.reqErr = s.reqErr := rfl
@[simp] theorem finishProgram_errCode : s.finishProgram.errCode = s.errCode := rfl
@[simp] theorem finishProgram_fb : s.finishProgram.fb = s.fb := rfl
@[simp] theorem finishProgram_trace : s.finishProgram.trace = s.trace := rfl
@[simp] theorem finishProgram_fbRdata : s.finishProgram.fbRdata = s.fbRdata := rfl
@[simp] theorem finishProgram_fbErr : s.finishProgram.fbErr = s.fbErr := rfl
@[simp] theorem finishProgram_xportHeld : s.finishProgram.xportHeld = s.xportHeld := rfl
@[simp] theorem finishProgram_rstHeld : s.finishProgram.rstHeld = s.rstHeld := rfl
@[simp] theorem finishProgram_inputs : s.finishProgram.inputs = s.inputs := rfl
@[simp] theorem finishProgram_edge : s.finishProgram.edge = s.edge := rfl

/-! ### completeHostOp -/

@[simp] theorem completeHostOp_cfg : s.completeHostOp.cfg = s.cfg := rfl
@[simp] theorem completeHostOp_urom : s.completeHostOp.urom = s.urom := rfl
@[simp] theorem completeHostOp_mode : s.completeHostOp.mode = .idle := rfl
@[simp] theorem completeHostOp_prog : s.completeHostOp.prog = .noProg := rfl
@[simp] theorem completeHostOp_upc : s.completeHostOp.upc = s.upc := rfl
@[simp] theorem completeHostOp_uw : s.completeHostOp.uw = s.uw := rfl
@[simp] theorem completeHostOp_pending : s.completeHostOp.pending = s.pending := rfl
@[simp] theorem completeHostOp_sc : s.completeHostOp.sc = s.sc := rfl
@[simp] theorem completeHostOp_dlyMs : s.completeHostOp.dlyMs = s.dlyMs := rfl
@[simp] theorem completeHostOp_dlyPre : s.completeHostOp.dlyPre = s.dlyPre := rfl
@[simp] theorem completeHostOp_txb : s.completeHostOp.txb = s.txb := rfl
@[simp] theorem completeHostOp_txv : s.completeHostOp.txv = s.txv := rfl
@[simp] theorem completeHostOp_pins : s.completeHostOp.pins = s.pins := rfl
@[simp] theorem completeHostOp_initDone : s.completeHostOp.initDone = s.initDone := rfl
@[simp] theorem completeHostOp_reqErr : s.completeHostOp.reqErr = s.reqErr := rfl
@[simp] theorem completeHostOp_errCode : s.completeHostOp.errCode = s.errCode := rfl
@[simp] theorem completeHostOp_fb : s.completeHostOp.fb = s.fb := rfl
@[simp] theorem completeHostOp_trace : s.completeHostOp.trace = s.trace := rfl
@[simp] theorem completeHostOp_fbRdata : s.completeHostOp.fbRdata = s.fbRdata := rfl
@[simp] theorem completeHostOp_fbErr : s.completeHostOp.fbErr = s.fbErr := rfl
@[simp] theorem completeHostOp_xportHeld : s.completeHostOp.xportHeld = s.xportHeld := rfl
@[simp] theorem completeHostOp_rstHeld : s.completeHostOp.rstHeld = s.rstHeld := rfl
@[simp] theorem completeHostOp_inputs : s.completeHostOp.inputs = s.inputs := rfl
@[simp] theorem completeHostOp_edge : s.completeHostOp.edge = s.edge := rfl

/-! ### resetEdge -/

@[simp] theorem resetEdge_cfg (b : Bool) : (s.resetEdge b).cfg = s.cfg := rfl
@[simp] theorem resetEdge_urom (b : Bool) : (s.resetEdge b).urom = s.urom := rfl
@[simp] theorem resetEdge_mode (b : Bool) : (s.resetEdge b).mode = .busy := rfl
@[simp] theorem resetEdge_prog (b : Bool) : (s.resetEdge b).prog = .initProg := rfl
@[simp] theorem resetEdge_upc (b : Bool) : (s.resetEdge b).upc = initEntry := rfl
@[simp] theorem resetEdge_uw (b : Bool) : (s.resetEdge b).uw = 0 := rfl
@[simp] theorem resetEdge_pending (b : Bool) : (s.resetEdge b).pending = [] := rfl
@[simp] theorem resetEdge_sc (b : Bool) : (s.resetEdge b).sc = 0 := rfl
@[simp] theorem resetEdge_dlyMs (b : Bool) : (s.resetEdge b).dlyMs = 0 := rfl
@[simp] theorem resetEdge_dlyPre (b : Bool) : (s.resetEdge b).dlyPre = 0 := rfl
@[simp] theorem resetEdge_txb (b : Bool) : (s.resetEdge b).txb = 0 := rfl
@[simp] theorem resetEdge_txv (b : Bool) : (s.resetEdge b).txv = false := rfl
@[simp] theorem resetEdge_pins (b : Bool) : (s.resetEdge b).pins = 0b0100 := rfl
@[simp] theorem resetEdge_initDone (b : Bool) : (s.resetEdge b).initDone = false := rfl
@[simp] theorem resetEdge_reqErr (b : Bool) : (s.resetEdge b).reqErr = false := rfl
@[simp] theorem resetEdge_errCode (b : Bool) : (s.resetEdge b).errCode = 0 := rfl
@[simp] theorem resetEdge_fb (b : Bool) : (s.resetEdge b).fb = s.fb := rfl
@[simp] theorem resetEdge_trace (b : Bool) : (s.resetEdge b).trace = if b then s.trace else s.trace ++ [.reset] := rfl
@[simp] theorem resetEdge_fbRdata (b : Bool) : (s.resetEdge b).fbRdata = s.fbRdata := rfl
@[simp] theorem resetEdge_fbErr (b : Bool) : (s.resetEdge b).fbErr = s.fbErr := rfl
@[simp] theorem resetEdge_xportHeld (b : Bool) : (s.resetEdge b).xportHeld = [] := rfl
@[simp] theorem resetEdge_rstHeld (b : Bool) : (s.resetEdge b).rstHeld = s.rstHeld := rfl
@[simp] theorem resetEdge_inputs (b : Bool) : (s.resetEdge b).inputs = s.inputs := rfl
@[simp] theorem resetEdge_edge (b : Bool) : (s.resetEdge b).edge = s.edge := rfl

/-! ### tick -/

@[simp] theorem tick_cfg (i : EdgeIn) : (s.tick i).cfg = s.cfg := rfl
@[simp] theorem tick_urom (i : EdgeIn) : (s.tick i).urom = s.urom := rfl
@[simp] theorem tick_mode (i : EdgeIn) : (s.tick i).mode = s.mode := rfl
@[simp] theorem tick_prog (i : EdgeIn) : (s.tick i).prog = s.prog := rfl
@[simp] theorem tick_upc (i : EdgeIn) : (s.tick i).upc = s.upc := rfl
@[simp] theorem tick_uw (i : EdgeIn) : (s.tick i).uw = s.uw := rfl
@[simp] theorem tick_pending (i : EdgeIn) : (s.tick i).pending = s.pending := rfl
@[simp] theorem tick_sc (i : EdgeIn) : (s.tick i).sc = s.sc := rfl
@[simp] theorem tick_dlyMs (i : EdgeIn) : (s.tick i).dlyMs = s.dlyMs := rfl
@[simp] theorem tick_dlyPre (i : EdgeIn) : (s.tick i).dlyPre = s.dlyPre := rfl
@[simp] theorem tick_txb (i : EdgeIn) : (s.tick i).txb = s.txb := rfl
@[simp] theorem tick_txv (i : EdgeIn) : (s.tick i).txv = s.txv := rfl
@[simp] theorem tick_pins (i : EdgeIn) : (s.tick i).pins = s.pins := rfl
@[simp] theorem tick_initDone (i : EdgeIn) : (s.tick i).initDone = s.initDone := rfl
@[simp] theorem tick_reqErr (i : EdgeIn) : (s.tick i).reqErr = s.reqErr := rfl
@[simp] theorem tick_errCode (i : EdgeIn) : (s.tick i).errCode = s.errCode := rfl
@[simp] theorem tick_fb (i : EdgeIn) : (s.tick i).fb = s.fb := rfl
@[simp] theorem tick_trace (i : EdgeIn) : (s.tick i).trace = s.trace := rfl
@[simp] theorem tick_fbRdata (i : EdgeIn) : (s.tick i).fbRdata = s.fbRdata := rfl
@[simp] theorem tick_fbErr (i : EdgeIn) : (s.tick i).fbErr = s.fbErr := rfl
@[simp] theorem tick_xportHeld (i : EdgeIn) : (s.tick i).xportHeld = s.xportHeld := rfl
@[simp] theorem tick_rstHeld (i : EdgeIn) : (s.tick i).rstHeld = i.rst := rfl
@[simp] theorem tick_inputs (i : EdgeIn) : (s.tick i).inputs = s.inputs.tail := rfl
@[simp] theorem tick_edge (i : EdgeIn) : (s.tick i).edge = s.edge + 1 := rfl

/-! ### fetched -/

@[simp] theorem fetched_cfg (w : Microword) : (s.fetched w).cfg = s.cfg := rfl
@[simp] theorem fetched_urom (w : Microword) : (s.fetched w).urom = s.urom := rfl
@[simp] theorem fetched_mode (w : Microword) : (s.fetched w).mode = s.mode := rfl
@[simp] theorem fetched_prog (w : Microword) : (s.fetched w).prog = s.prog := rfl
@[simp] theorem fetched_upc (w : Microword) : (s.fetched w).upc = s.upc + 1 := rfl
@[simp] theorem fetched_uw (w : Microword) : (s.fetched w).uw = w := rfl
@[simp] theorem fetched_pending (w : Microword) : (s.fetched w).pending = s.pending := rfl
@[simp] theorem fetched_sc (w : Microword) : (s.fetched w).sc = s.sc := rfl
@[simp] theorem fetched_dlyMs (w : Microword) : (s.fetched w).dlyMs = s.dlyMs := rfl
@[simp] theorem fetched_dlyPre (w : Microword) : (s.fetched w).dlyPre = s.dlyPre := rfl
@[simp] theorem fetched_txb (w : Microword) : (s.fetched w).txb = s.txb := rfl
@[simp] theorem fetched_txv (w : Microword) : (s.fetched w).txv = s.txv := rfl
@[simp] theorem fetched_pins (w : Microword) : (s.fetched w).pins = s.pins := rfl
@[simp] theorem fetched_initDone (w : Microword) : (s.fetched w).initDone = s.initDone := rfl
@[simp] theorem fetched_reqErr (w : Microword) : (s.fetched w).reqErr = s.reqErr := rfl
@[simp] theorem fetched_errCode (w : Microword) : (s.fetched w).errCode = s.errCode := rfl
@[simp] theorem fetched_fb (w : Microword) : (s.fetched w).fb = s.fb := rfl
@[simp] theorem fetched_trace (w : Microword) : (s.fetched w).trace = s.trace := rfl
@[simp] theorem fetched_fbRdata (w : Microword) : (s.fetched w).fbRdata = s.fbRdata := rfl
@[simp] theorem fetched_fbErr (w : Microword) : (s.fetched w).fbErr = s.fbErr := rfl
@[simp] theorem fetched_xportHeld (w : Microword) : (s.fetched w).xportHeld = s.xportHeld := rfl
@[simp] theorem fetched_rstHeld (w : Microword) : (s.fetched w).rstHeld = s.rstHeld := rfl
@[simp] theorem fetched_inputs (w : Microword) : (s.fetched w).inputs = s.inputs := rfl
@[simp] theorem fetched_edge (w : Microword) : (s.fetched w).edge = s.edge := rfl

/-! ### drivePin -/

@[simp] theorem drivePin_cfg (p : Pin) (v : Bool) : (s.drivePin p v).cfg = s.cfg := by unfold drivePin; split <;> rfl
@[simp] theorem drivePin_urom (p : Pin) (v : Bool) : (s.drivePin p v).urom = s.urom := by unfold drivePin; split <;> rfl
@[simp] theorem drivePin_mode (p : Pin) (v : Bool) : (s.drivePin p v).mode = s.mode := by unfold drivePin; split <;> rfl
@[simp] theorem drivePin_prog (p : Pin) (v : Bool) : (s.drivePin p v).prog = s.prog := by unfold drivePin; split <;> rfl
@[simp] theorem drivePin_upc (p : Pin) (v : Bool) : (s.drivePin p v).upc = s.upc := by unfold drivePin; split <;> rfl
@[simp] theorem drivePin_uw (p : Pin) (v : Bool) : (s.drivePin p v).uw = s.uw := by unfold drivePin; split <;> rfl
@[simp] theorem drivePin_pending (p : Pin) (v : Bool) : (s.drivePin p v).pending = s.pending := by unfold drivePin; split <;> rfl
@[simp] theorem drivePin_sc (p : Pin) (v : Bool) : (s.drivePin p v).sc = s.sc := by unfold drivePin; split <;> rfl
@[simp] theorem drivePin_dlyMs (p : Pin) (v : Bool) : (s.drivePin p v).dlyMs = s.dlyMs := by unfold drivePin; split <;> rfl
@[simp] theorem drivePin_dlyPre (p : Pin) (v : Bool) : (s.drivePin p v).dlyPre = s.dlyPre := by unfold drivePin; split <;> rfl
@[simp] theorem drivePin_txb (p : Pin) (v : Bool) : (s.drivePin p v).txb = s.txb := by unfold drivePin; split <;> rfl
@[simp] theorem drivePin_txv (p : Pin) (v : Bool) : (s.drivePin p v).txv = s.txv := by unfold drivePin; split <;> rfl
@[simp] theorem drivePin_initDone (p : Pin) (v : Bool) : (s.drivePin p v).initDone = s.initDone := by unfold drivePin; split <;> rfl
@[simp] theorem drivePin_reqErr (p : Pin) (v : Bool) : (s.drivePin p v).reqErr = s.reqErr := by unfold drivePin; split <;> rfl
@[simp] theorem drivePin_errCode (p : Pin) (v : Bool) : (s.drivePin p v).errCode = s.errCode := by unfold drivePin; split <;> rfl
@[simp] theorem drivePin_fb (p : Pin) (v : Bool) : (s.drivePin p v).fb = s.fb := by unfold drivePin; split <;> rfl
@[simp] theorem drivePin_fbRdata (p : Pin) (v : Bool) : (s.drivePin p v).fbRdata = s.fbRdata := by unfold drivePin; split <;> rfl
@[simp] theorem drivePin_fbErr (p : Pin) (v : Bool) : (s.drivePin p v).fbErr = s.fbErr := by unfold drivePin; split <;> rfl
@[simp] theorem drivePin_xportHeld (p : Pin) (v : Bool) : (s.drivePin p v).xportHeld = s.xportHeld := by unfold drivePin; split <;> rfl
@[simp] theorem drivePin_rstHeld (p : Pin) (v : Bool) : (s.drivePin p v).rstHeld = s.rstHeld := by unfold drivePin; split <;> rfl
@[simp] theorem drivePin_inputs (p : Pin) (v : Bool) : (s.drivePin p v).inputs = s.inputs := by unfold drivePin; split <;> rfl
@[simp] theorem drivePin_edge (p : Pin) (v : Bool) : (s.drivePin p v).edge = s.edge := by unfold drivePin; split <;> rfl

/-! ### noteIdle -/

@[simp] theorem noteIdle_cfg (i : EdgeIn) : (s.noteIdle i).cfg = s.cfg := by unfold noteIdle; split <;> rfl
@[simp] theorem noteIdle_urom (i : EdgeIn) : (s.noteIdle i).urom = s.urom := by unfold noteIdle; split <;> rfl
@[simp] theorem noteIdle_mode (i : EdgeIn) : (s.noteIdle i).mode = s.mode := by unfold noteIdle; split <;> rfl
@[simp] theorem noteIdle_prog (i : EdgeIn) : (s.noteIdle i).prog = s.prog := by unfold noteIdle; split <;> rfl
@[simp] theorem noteIdle_upc (i : EdgeIn) : (s.noteIdle i).upc = s.upc := by unfold noteIdle; split <;> rfl
@[simp] theorem noteIdle_uw (i : EdgeIn) : (s.noteIdle i).uw = s.uw := by unfold noteIdle; split <;> rfl
@[simp] theorem noteIdle_pending (i : EdgeIn) : (s.noteIdle i).pending = s.pending := by unfold noteIdle; split <;> rfl
@[simp] theorem noteIdle_sc (i : EdgeIn) : (s.noteIdle i).sc = s.sc := by unfold noteIdle; split <;> rfl
@[simp] theorem noteIdle_dlyMs (i : EdgeIn) : (s.noteIdle i).dlyMs = s.dlyMs := by unfold noteIdle; split <;> rfl
@[simp] theorem noteIdle_dlyPre (i : EdgeIn) : (s.noteIdle i).dlyPre = s.dlyPre := by unfold noteIdle; split <;> rfl
@[simp] theorem noteIdle_txb (i : EdgeIn) : (s.noteIdle i).txb = s.txb := by unfold noteIdle; split <;> rfl
@[simp] theorem noteIdle_txv (i : EdgeIn) : (s.noteIdle i).txv = s.txv := by unfold noteIdle; split <;> rfl
@[simp] theorem noteIdle_pins (i : EdgeIn) : (s.noteIdle i).pins = s.pins := by unfold noteIdle; split <;> rfl
@[simp] theorem noteIdle_initDone (i : EdgeIn) : (s.noteIdle i).initDone = s.initDone := by unfold noteIdle; split <;> rfl
@[simp] theorem noteIdle_reqErr (i : EdgeIn) : (s.noteIdle i).reqErr = s.reqErr := by unfold noteIdle; split <;> rfl
@[simp] theorem noteIdle_errCode (i : EdgeIn) : (s.noteIdle i).errCode = s.errCode := by unfold noteIdle; split <;> rfl
@[simp] theorem noteIdle_fb (i : EdgeIn) : (s.noteIdle i).fb = s.fb := by unfold noteIdle; split <;> rfl
@[simp] theorem noteIdle_trace (i : EdgeIn) : (s.noteIdle i).trace = s.trace := by unfold noteIdle; split <;> rfl
@[simp] theorem noteIdle_fbRdata (i : EdgeIn) : (s.noteIdle i).fbRdata = s.fbRdata := by unfold noteIdle; split <;> rfl
@[simp] theorem noteIdle_fbErr (i : EdgeIn) : (s.noteIdle i).fbErr = s.fbErr := by unfold noteIdle; split <;> rfl
@[simp] theorem noteIdle_rstHeld (i : EdgeIn) : (s.noteIdle i).rstHeld = s.rstHeld := by unfold noteIdle; split <;> rfl
@[simp] theorem noteIdle_inputs (i : EdgeIn) : (s.noteIdle i).inputs = s.inputs := by unfold noteIdle; split <;> rfl
@[simp] theorem noteIdle_edge (i : EdgeIn) : (s.noteIdle i).edge = s.edge := by unfold noteIdle; split <;> rfl

/-! ### hostPort -/

@[simp] theorem hostPort_cfg (i : EdgeIn) : (s.hostPort i).cfg = s.cfg := by unfold hostPort; repeat (first | split | rfl)
@[simp] theorem hostPort_urom (i : EdgeIn) : (s.hostPort i).urom = s.urom := by unfold hostPort; repeat (first | split | rfl)
@[simp] theorem hostPort_mode (i : EdgeIn) : (s.hostPort i).mode = s.mode := by unfold hostPort; repeat (first | split | rfl)
@[simp] theorem hostPort_prog (i : EdgeIn) : (s.hostPort i).prog = s.prog := by unfold hostPort; repeat (first | split | rfl)
@[simp] theorem hostPort_upc (i : EdgeIn) : (s.hostPort i).upc = s.upc := by unfold hostPort; repeat (first | split | rfl)
@[simp] theorem hostPort_uw (i : EdgeIn) : (s.hostPort i).uw = s.uw := by unfold hostPort; repeat (first | split | rfl)
@[simp] theorem hostPort_pending (i : EdgeIn) : (s.hostPort i).pending = s.pending := by unfold hostPort; repeat (first | split | rfl)
@[simp] theorem hostPort_sc (i : EdgeIn) : (s.hostPort i).sc = s.sc := by unfold hostPort; repeat (first | split | rfl)
@[simp] theorem hostPort_dlyMs (i : EdgeIn) : (s.hostPort i).dlyMs = s.dlyMs := by unfold hostPort; repeat (first | split | rfl)
@[simp] theorem hostPort_dlyPre (i : EdgeIn) : (s.hostPort i).dlyPre = s.dlyPre := by unfold hostPort; repeat (first | split | rfl)
@[simp] theorem hostPort_txb (i : EdgeIn) : (s.hostPort i).txb = s.txb := by unfold hostPort; repeat (first | split | rfl)
@[simp] theorem hostPort_txv (i : EdgeIn) : (s.hostPort i).txv = s.txv := by unfold hostPort; repeat (first | split | rfl)
@[simp] theorem hostPort_pins (i : EdgeIn) : (s.hostPort i).pins = s.pins := by unfold hostPort; repeat (first | split | rfl)
@[simp] theorem hostPort_initDone (i : EdgeIn) : (s.hostPort i).initDone = s.initDone := by unfold hostPort; repeat (first | split | rfl)
@[simp] theorem hostPort_reqErr (i : EdgeIn) : (s.hostPort i).reqErr = s.reqErr := by unfold hostPort; repeat (first | split | rfl)
@[simp] theorem hostPort_errCode (i : EdgeIn) : (s.hostPort i).errCode = s.errCode := by unfold hostPort; repeat (first | split | rfl)
@[simp] theorem hostPort_trace (i : EdgeIn) : (s.hostPort i).trace = s.trace := by unfold hostPort; repeat (first | split | rfl)
@[simp] theorem hostPort_xportHeld (i : EdgeIn) : (s.hostPort i).xportHeld = s.xportHeld := by unfold hostPort; repeat (first | split | rfl)
@[simp] theorem hostPort_rstHeld (i : EdgeIn) : (s.hostPort i).rstHeld = s.rstHeld := by unfold hostPort; repeat (first | split | rfl)
@[simp] theorem hostPort_inputs (i : EdgeIn) : (s.hostPort i).inputs = s.inputs := by unfold hostPort; repeat (first | split | rfl)
@[simp] theorem hostPort_edge (i : EdgeIn) : (s.hostPort i).edge = s.edge := by unfold hostPort; repeat (first | split | rfl)

/-! ### countDelay -/

@[simp] theorem countDelay_cfg : s.countDelay.cfg = s.cfg := by unfold countDelay; split <;> rfl
@[simp] theorem countDelay_urom : s.countDelay.urom = s.urom := by unfold countDelay; split <;> rfl
@[simp] theorem countDelay_mode : s.countDelay.mode = s.mode := by unfold countDelay; split <;> rfl
@[simp] theorem countDelay_prog : s.countDelay.prog = s.prog := by unfold countDelay; split <;> rfl
@[simp] theorem countDelay_upc : s.countDelay.upc = s.upc := by unfold countDelay; split <;> rfl
@[simp] theorem countDelay_uw : s.countDelay.uw = s.uw := by unfold countDelay; split <;> rfl
@[simp] theorem countDelay_pending : s.countDelay.pending = s.pending := by unfold countDelay; split <;> rfl
@[simp] theorem countDelay_sc : s.countDelay.sc = s.sc := by unfold countDelay; split <;> rfl
@[simp] theorem countDelay_txb : s.countDelay.txb = s.txb := by unfold countDelay; split <;> rfl
@[simp] theorem countDelay_txv : s.countDelay.txv = s.txv := by unfold countDelay; split <;> rfl
@[simp] theorem countDelay_pins : s.countDelay.pins = s.pins := by unfold countDelay; split <;> rfl
@[simp] theorem countDelay_initDone : s.countDelay.initDone = s.initDone := by unfold countDelay; split <;> rfl
@[simp] theorem countDelay_reqErr : s.countDelay.reqErr = s.reqErr := by unfold countDelay; split <;> rfl
@[simp] theorem countDelay_errCode : s.countDelay.errCode = s.errCode := by unfold countDelay; split <;> rfl
@[simp] theorem countDelay_fb : s.countDelay.fb = s.fb := by unfold countDelay; split <;> rfl
@[simp] theorem countDelay_trace : s.countDelay.trace = s.trace := by unfold countDelay; split <;> rfl
@[simp] theorem countDelay_fbRdata : s.countDelay.fbRdata = s.fbRdata := by unfold countDelay; split <;> rfl
@[simp] theorem countDelay_fbErr : s.countDelay.fbErr = s.fbErr := by unfold countDelay; split <;> rfl
@[simp] theorem countDelay_xportHeld : s.countDelay.xportHeld = s.xportHeld := by unfold countDelay; split <;> rfl
@[simp] theorem countDelay_rstHeld : s.countDelay.rstHeld = s.rstHeld := by unfold countDelay; split <;> rfl
@[simp] theorem countDelay_inputs : s.countDelay.inputs = s.inputs := by unfold countDelay; split <;> rfl
@[simp] theorem countDelay_edge : s.countDelay.edge = s.edge := by unfold countDelay; split <;> rfl

/-! ### atPorts -/

@[simp] theorem atPorts_cfg (i : EdgeIn) : (atPorts i s).cfg = s.cfg := by simp [atPorts]
@[simp] theorem atPorts_urom (i : EdgeIn) : (atPorts i s).urom = s.urom := by simp [atPorts]
@[simp] theorem atPorts_mode (i : EdgeIn) : (atPorts i s).mode = s.mode := by simp [atPorts]
@[simp] theorem atPorts_prog (i : EdgeIn) : (atPorts i s).prog = s.prog := by simp [atPorts]
@[simp] theorem atPorts_upc (i : EdgeIn) : (atPorts i s).upc = s.upc := by simp [atPorts]
@[simp] theorem atPorts_uw (i : EdgeIn) : (atPorts i s).uw = s.uw := by simp [atPorts]
@[simp] theorem atPorts_pending (i : EdgeIn) : (atPorts i s).pending = s.pending := by simp [atPorts]
@[simp] theorem atPorts_sc (i : EdgeIn) : (atPorts i s).sc = s.sc := by simp [atPorts]
@[simp] theorem atPorts_dlyMs (i : EdgeIn) : (atPorts i s).dlyMs = s.dlyMs := by simp [atPorts]
@[simp] theorem atPorts_dlyPre (i : EdgeIn) : (atPorts i s).dlyPre = s.dlyPre := by simp [atPorts]
@[simp] theorem atPorts_txb (i : EdgeIn) : (atPorts i s).txb = s.txb := by simp [atPorts]
@[simp] theorem atPorts_txv (i : EdgeIn) : (atPorts i s).txv = s.txv := by simp [atPorts]
@[simp] theorem atPorts_pins (i : EdgeIn) : (atPorts i s).pins = s.pins := by simp [atPorts]
@[simp] theorem atPorts_initDone (i : EdgeIn) : (atPorts i s).initDone = s.initDone := by simp [atPorts]
@[simp] theorem atPorts_reqErr (i : EdgeIn) : (atPorts i s).reqErr = s.reqErr := by simp [atPorts]
@[simp] theorem atPorts_errCode (i : EdgeIn) : (atPorts i s).errCode = s.errCode := by simp [atPorts]
@[simp] theorem atPorts_trace (i : EdgeIn) : (atPorts i s).trace = s.trace := by simp [atPorts]
@[simp] theorem atPorts_rstHeld (i : EdgeIn) : (atPorts i s).rstHeld = i.rst := by simp [atPorts]
@[simp] theorem atPorts_inputs (i : EdgeIn) : (atPorts i s).inputs = s.inputs.tail := by simp [atPorts]
@[simp] theorem atPorts_edge (i : EdgeIn) : (atPorts i s).edge = s.edge + 1 := by simp [atPorts]

/-! ### transportFault -/

@[simp] theorem transportFault_cfg (i : EdgeIn) : (s.transportFault i).cfg = s.cfg := rfl
@[simp] theorem transportFault_urom (i : EdgeIn) : (s.transportFault i).urom = s.urom := rfl
@[simp] theorem transportFault_mode (i : EdgeIn) : (s.transportFault i).mode = .fault := rfl
@[simp] theorem transportFault_prog (i : EdgeIn) : (s.transportFault i).prog = .noProg := rfl
@[simp] theorem transportFault_upc (i : EdgeIn) : (s.transportFault i).upc = s.upc := rfl
@[simp] theorem transportFault_uw (i : EdgeIn) : (s.transportFault i).uw = s.uw := rfl
@[simp] theorem transportFault_pending (i : EdgeIn) : (s.transportFault i).pending = [] := rfl
@[simp] theorem transportFault_sc (i : EdgeIn) : (s.transportFault i).sc = s.sc := rfl
@[simp] theorem transportFault_dlyMs (i : EdgeIn) : (s.transportFault i).dlyMs = s.dlyMs := rfl
@[simp] theorem transportFault_dlyPre (i : EdgeIn) : (s.transportFault i).dlyPre = s.dlyPre := rfl
@[simp] theorem transportFault_txb (i : EdgeIn) : (s.transportFault i).txb = s.txb := rfl
@[simp] theorem transportFault_txv (i : EdgeIn) : (s.transportFault i).txv = false := rfl
@[simp] theorem transportFault_pins (i : EdgeIn) : (s.transportFault i).pins = s.pins := rfl
@[simp] theorem transportFault_initDone (i : EdgeIn) : (s.transportFault i).initDone = false := rfl
@[simp] theorem transportFault_reqErr (i : EdgeIn) : (s.transportFault i).reqErr = s.reqErr := rfl
@[simp] theorem transportFault_errCode (i : EdgeIn) : (s.transportFault i).errCode = 1 := rfl
@[simp] theorem transportFault_fb (i : EdgeIn) : (s.transportFault i).fb = s.fb := rfl
@[simp] theorem transportFault_trace (i : EdgeIn) : (s.transportFault i).trace = s.trace ++ [.fault 1] := rfl
@[simp] theorem transportFault_fbRdata (i : EdgeIn) : (s.transportFault i).fbRdata = s.fbRdata := rfl
@[simp] theorem transportFault_fbErr (i : EdgeIn) : (s.transportFault i).fbErr = s.fbErr := rfl
@[simp] theorem transportFault_rstHeld (i : EdgeIn) : (s.transportFault i).rstHeld = s.rstHeld := rfl
@[simp] theorem transportFault_inputs (i : EdgeIn) : (s.transportFault i).inputs = s.inputs := rfl
@[simp] theorem transportFault_edge (i : EdgeIn) : (s.transportFault i).edge = s.edge := rfl

end Sys2Proof.Machine.State
end

