-- ==== Sys2Proof/Laws/Actions.lean ====
section
/-! SUPPORT. What one action of the sequencer can do, said once. -/

namespace Sys2Proof.Machine

variable {i : EdgeIn} {a : Action} {rest : List Action} {s t : State}

/-- Dispatching the head: a `Send` starts, with its own byte or with the byte of the frame buffer at `sc`;
anything else is left alone. -/
theorem dispatchHead_next (h : dispatchHead s = .next t) :
    (startsSend s.pending = false ∧ t = s) ∨
    (startsSend s.pending = true ∧ ∃ b, t = s.offer b ∧
      (∀ b' r, s.pending = .send b' :: r → b = b') ∧
      (∀ r, s.pending = .sendFb :: r → s.sc < s.cfg.fbBytes ∧ b = fbByte s.fb s.sc)) := by
  unfold dispatchHead at h
  split at h
  · rename_i b r e
    cases h
    exact .inr ⟨by rw [e]; rfl, b, rfl, by simp [e], by simp [e]⟩
  · rename_i r e
    split at h
    · rename_i hlt
      cases h
      exact .inr ⟨by rw [e]; rfl, _, rfl, by simp [e], fun _ _ => ⟨hlt, rfl⟩⟩
    · cases h
  · rename_i h1 h2
    cases h
    refine .inl ⟨?_, rfl⟩
    match hp : s.pending with
    | [] => rfl
    | .send b :: r => exact absurd hp (h1 b r)
    | .sendFb :: r => exact absurd hp (h2 r)
    | .setPin _ _ :: _ => rfl
    | .drain :: _ => rfl
    | .waitMs _ :: _ => rfl
    | .waiting _ :: _ => rfl
    | .fillByte _ :: _ => rfl
    | .finish :: _ => rfl

/-- The effect of an action that completes at this edge, before the next one is dispatched. -/
inductive Completes (i : EdgeIn) : Action → State → State → Prop where
  | setPin (p : Pin) (v : Bool) (s : State) (hi : i.txIdle = true) : Completes i (.setPin p v) s (s.drivePin p v)
  | send (b : Byte) (s : State) (hv : s.txv = true) (hr : i.txReady = true) : Completes i (.send b) s s.accepted
  | sendFb (s : State) (hv : s.txv = true) (hr : i.txReady = true) : Completes i .sendFb s s.accepted.countByte
  | drain (s : State) (hi : i.txIdle = true) : Completes i .drain s s
  | waiting (ms : Half) (s : State) (hz : s.dlyMs = 0) : Completes i (.waiting ms) s (s.emit (.wait ms))
  | fillByte (v : Half) (s : State) (hlt : s.sc < s.cfg.fbBytes) :
      Completes i (.fillByte v) s (s.fillStore v).countByte
  | finish (s : State) : Completes i .finish s s.finishProgram

/-- Everything one edge can do to the head action: it completes and the next is dispatched; it holds; a
`Send` that was not on offer is put on offer; a wait begins; a wait counts. -/
theorem perform_next (h : perform i a rest s = .next t) :
    (∃ s', Completes i a s s' ∧ dispatchHead (s'.withPending rest) = .next t) ∨
    t = s ∨
    (startsSend (a :: rest) = true ∧ s.txv = false ∧ dispatchHead s = .next t) ∨
    (∃ ms, a = .waitMs ms ∧ t = (s.loadDelay ms).withPending (.waiting ms :: rest)) ∨
    (∃ ms, a = .waiting ms ∧ s.dlyMs ≠ 0 ∧ t = s.countDelay) := by
  cases a with
  | setPin p v =>
    simp only [perform, performSetPin] at h
    split at h
    · exact .inl ⟨_, .setPin p v s ‹_›, h⟩
    · cases h; exact .inr (.inl rfl)
  | send b =>
    simp only [perform, performSend] at h
    split at h
    · split at h
      · exact .inl ⟨_, .send b s ‹_› ‹_›, h⟩
      · cases h; exact .inr (.inl rfl)
    · exact .inr (.inr (.inl ⟨rfl, by simpa using ‹¬ s.txv = true›, h⟩))
  | sendFb =>
    simp only [perform, performSendFb] at h
    split at h
    · split at h
      · exact .inl ⟨_, .sendFb s ‹_› ‹_›, h⟩
      · cases h; exact .inr (.inl rfl)
    · exact .inr (.inr (.inl ⟨rfl, by simpa using ‹¬ s.txv = true›, h⟩))
  | drain =>
    simp only [perform, performDrain] at h
    split at h
    · exact .inl ⟨_, .drain s ‹_›, h⟩
    · cases h; exact .inr (.inl rfl)
  | waitMs ms =>
    simp only [perform, performWaitMs] at h
    cases h
    exact .inr (.inr (.inr (.inl ⟨ms, rfl, rfl⟩)))
  | waiting ms =>
    simp only [perform, performWaiting] at h
    split at h
    · exact .inl ⟨_, .waiting ms s ‹_›, h⟩
    · cases h; exact .inr (.inr (.inr (.inr ⟨ms, rfl, ‹_›, rfl⟩)))
  | fillByte v =>
    simp only [perform, performFillByte] at h
    split at h
    · exact .inl ⟨_, .fillByte v s ‹_›, h⟩
    · cases h
  | finish => exact .inl ⟨_, .finish s, h⟩

/-- Driving a pin sets its level and no other. -/
theorem pinLevel_withPin (pins : BitVec 4) (p q : Pin) (v : Bool) :
    pinLevel (withPin pins p v) q = if q = p then v else pinLevel pins q := by
  cases p <;> cases q <;> cases v <;> revert pins <;> decide

/-- After `SetPin(p, v)` the pin is at `v`, and no other pin has moved (40_phase_sequencer.md R120). -/
theorem drivePin_level (p q : Pin) (v : Bool) (s : State) :
    pinLevel (s.drivePin p v).pins q = if q = p then v else pinLevel s.pins q := by
  unfold State.drivePin
  split
  · rename_i e
    split
    · rename_i e'; subst e'; exact e
    · rfl
  · exact pinLevel_withPin ..

/-- The pins after `SetPin(p, v)`. -/
theorem drivePin_pins (p : Pin) (v : Bool) (s : State) : (s.drivePin p v).pins = withPin s.pins p v := by
  unfold State.drivePin
  split
  · rename_i e
    subst e
    have : ∀ (pins : BitVec 4), pins = withPin pins p (pinLevel pins p) := by cases p <;> decide
    exact this _
  · rfl

/-- The events of `SetPin(p, v)`: one only on a change. -/
theorem drivePin_trace (p : Pin) (v : Bool) (s : State) :
    (s.drivePin p v).trace = s.trace ++ driveEvents s.pins p v := by
  unfold State.drivePin driveEvents
  split <;> simp

end Sys2Proof.Machine
end

