-- ==== Sys2Proof/Laws/Encoding.lean ====
section
/-! SUPPORT. The fields of a packed microword, and the must-be-0 bits as conditions on its operand fields. -/

namespace Sys2Proof

@[simp] theorem fieldOp_packWord (o : BitVec 4) (a b : Half) : fieldOp (packWord o a b) = o := by
  apply BitVec.eq_of_getLsbD_eq
  intro i hi
  unfold fieldOp packWord
  rw [BitVec.getLsbD_extractLsb', BitVec.getLsbD_append, BitVec.getLsbD_append]
  simp [hi, show ¬ (32 + i < 16) by omega, show ¬ (32 + i - 16 < 16) by omega, show 32 + i - 16 - 16 = i by omega]

@[simp] theorem fieldA_packWord (o : BitVec 4) (a b : Half) : fieldA (packWord o a b) = a := by
  apply BitVec.eq_of_getLsbD_eq
  intro i hi
  unfold fieldA packWord
  rw [BitVec.getLsbD_extractLsb', BitVec.getLsbD_append, BitVec.getLsbD_append]
  simp [hi, show ¬ (16 + i < 16) by omega]

@[simp] theorem fieldB_packWord (o : BitVec 4) (a b : Half) : fieldB (packWord o a b) = b := by
  apply BitVec.eq_of_getLsbD_eq
  intro i hi
  unfold fieldB packWord
  rw [BitVec.getLsbD_extractLsb', BitVec.getLsbD_append]
  simp [hi]

theorem packWord_fields (w : Microword) : packWord (fieldOp w) (fieldA w) (fieldB w) = w := by
  apply BitVec.eq_of_getLsbD_eq
  intro i hi
  unfold packWord fieldOp fieldA fieldB
  rw [BitVec.getLsbD_append, BitVec.getLsbD_append]
  simp only [BitVec.getLsbD_extractLsb']
  split
  · simp_all
  · split
    · rename_i h h'
      simp [h', show 16 + (i - 16) = i by omega]
    · rename_i h h'
      simp [show i - 16 - 16 < 4 by omega, show 32 + (i - 16 - 16) = i by omega]

theorem ofCode_code (o : Opcode) : Opcode.ofCode o.code = o := by cases o <;> rfl

theorem code_ofCode (c : BitVec 4) : (Opcode.ofCode c).code = c := by revert c; decide

theorem packWord_inj (o o' : BitVec 4) (a a' b b' : Half) :
    packWord o a b = packWord o' a' b' ↔ o = o' ∧ a = a' ∧ b = b' := by
  constructor
  · intro h
    have ho := congrArg fieldOp h
    have ha := congrArg fieldA h
    have hb := congrArg fieldB h
    simp only [fieldOp_packWord, fieldA_packWord, fieldB_packWord] at ho ha hb
    exact ⟨ho, ha, hb⟩
  · rintro ⟨rfl, rfl, rfl⟩
    rfl

theorem and_packWord (o o' : BitVec 4) (a a' b b' : Half) :
    packWord o a b &&& packWord o' a' b' = packWord (o &&& o') (a &&& a') (b &&& b') := by
  unfold packWord
  apply BitVec.eq_of_getLsbD_eq
  intro i hi
  rw [BitVec.getLsbD_and]
  simp only [BitVec.getLsbD_append]
  split
  · simp
  · split <;> simp

@[simp] theorem opcodeOf_packWord (o : Opcode) (a b : Half) : opcodeOf (packWord o.code a b) = o := by
  rw [opcodeOf, fieldOp_packWord, ofCode_code]

@[simp] theorem opcodeOf_encode (i : Instr) : opcodeOf (encode i) = i.opcode := by simp [encode]

/-- The bits of field A that must be 0 for an operation. -/
def maskA : Opcode → Half
  | .wreg | .wcmd => 0
  | .pins => 0xFFF0
  | _ => 0xFFFF

/-- The bits of field B that must be 0 for an operation. -/
def maskB : Opcode → Half
  | .wreg | .wdat | .delay | .fill | .contrast | .invert | .rotate => 0
  | .pins => 0xFFF0
  | _ => 0xFFFF

theorem opTable_mask (o : Opcode) : (opTable o).mask = packWord 0xF (maskA o) (maskB o) := by
  cases o <;> decide

theorem opTable_word (o : Opcode) : (opTable o).word = packWord o.code 0 0 := by cases o <;> decide

/-- The test of R95 on a packed word, field by field. -/
theorem reservedClear_packWord (o : Opcode) (a b : Half) :
    reservedClear (packWord o.code a b) = true ↔ a &&& maskA o = 0 ∧ b &&& maskB o = 0 := by
  unfold reservedClear
  rw [opcodeOf_packWord, opTable_mask, opTable_word, and_packWord, decide_eq_true_iff, packWord_inj,
    show (0xF : BitVec 4) = BitVec.allOnes 4 from rfl, BitVec.and_allOnes]
  simp

/-- Every microword is packed from the code of its operation and its two operand fields. -/
theorem eq_packWord (w : Microword) : w = packWord (opcodeOf w).code (fieldA w) (fieldB w) := by
  rw [opcodeOf, code_ofCode, packWord_fields]

/-- The test of R95 on any word, field by field. -/
theorem reservedClear_iff (w : Microword) :
    reservedClear w = true ↔ fieldA w &&& maskA (opcodeOf w) = 0 ∧ fieldB w &&& maskB (opcodeOf w) = 0 := by
  conv_lhs => rw [eq_packWord w]
  exact reservedClear_packWord _ _ _

end Sys2Proof
end

