-- ==== Sys2Proof/Laws/Memory.lean ====
section
/-! SUPPORT. The laws of the frame buffer: reading after writing, and the canonical form. -/

namespace Sys2Proof.Machine

@[simp] theorem entry_nil (a : Nat) : Memory.entry [] a = none := rfl

theorem entry_write_same (m : Memory) (a : Nat) (v : Byte) : Memory.entry (Memory.write m a v) a = some v := by
  induction m with
  | nil => simp [Memory.write, Memory.entry]
  | cons c m ih =>
    obtain ⟨b, w⟩ := c
    unfold Memory.write
    split
    · simp [Memory.entry]
    · split
      · simp [Memory.entry]
      · rename_i h
        simp [Memory.entry, Ne.symm h, ih]

theorem entry_write_other (m : Memory) (a b : Nat) (v : Byte) (h : b ≠ a) :
    Memory.entry (Memory.write m a v) b = Memory.entry m b := by
  induction m with
  | nil => simp [Memory.write, Memory.entry, Ne.symm h, Memory.unlisted]
  | cons c m ih =>
    obtain ⟨x, w⟩ := c
    unfold Memory.write
    split
    · simp [Memory.entry, Ne.symm h]
    · split
      · rename_i e
        subst e
        simp [Memory.entry, Ne.symm h]
      · simp [Memory.entry, ih]

/-- A byte written is the byte read. -/
@[simp] theorem fbByte_write_same (m : Memory) (a : Nat) (v : Byte) : fbByte (Memory.write m a v) a = v := by
  simp [fbByte, entry_write_same]

/-- Writing a byte leaves every other byte alone. -/
theorem fbByte_write_other (m : Memory) (a b : Nat) (v : Byte) (h : b ≠ a) :
    fbByte (Memory.write m a v) b = fbByte m b := by
  simp [fbByte, entry_write_other m a b v h]

/-- Every cell of a written memory is an old one or the written one. -/
theorem mem_write (m : Memory) (a : Nat) (v : Byte) (c : Host.Cell) (h : c ∈ Memory.write m a v) :
    c ∈ m ∨ c = (a, v) := by
  induction m with
  | nil => right; simpa [Memory.write] using h
  | cons x m ih =>
    obtain ⟨b, w⟩ := x
    unfold Memory.write at h
    split at h
    · rcases List.mem_cons.1 h with h | h
      · exact .inr h
      · exact .inl h
    · split at h
      · rcases List.mem_cons.1 h with h | h
        · exact .inr h
        · exact .inl (List.mem_cons_of_mem _ h)
      · rcases List.mem_cons.1 h with h | h
        · exact .inl (h ▸ List.mem_cons_self ..)
        · exact (ih h).imp (List.mem_cons_of_mem _) id

/-- A write keeps the canonical form. -/
theorem write_wf (m : Memory) (a : Nat) (v : Byte) (h : Memory.wf m) : Memory.wf (Memory.write m a v) := by
  induction m with
  | nil => simp [Memory.write, Memory.wf]
  | cons c m ih =>
    obtain ⟨b, w⟩ := c
    have hm : Memory.wf m := (List.pairwise_cons.1 h).2
    have hb := (List.pairwise_cons.1 h).1
    unfold Memory.write
    split
    · rename_i hab
      refine List.pairwise_cons.2 ⟨fun y hy => ?_, h⟩
      rcases List.mem_cons.1 hy with rfl | hy
      · exact hab
      · exact lt_trans hab (hb y hy)
    · split
      · rename_i e
        subst e
        exact List.pairwise_cons.2 ⟨hb, hm⟩
      · rename_i h1 h2
        refine List.pairwise_cons.2 ⟨fun y hy => ?_, ih hm⟩
        rcases mem_write m a v y hy with hy | rfl
        · exact hb y hy
        · show b < a; omega

theorem fbWriteHalf_wf (m : Memory) (a : Nat) (v : Half) (h : Memory.wf m) : Memory.wf (fbWriteHalf m a v) :=
  write_wf _ _ _ (write_wf _ _ _ h)

/-- The two bytes of a halfword give it back. -/
theorem halfOf_bytes (v : Half) : halfOf (highByte v) (lowByte v) = v := by
  unfold halfOf highByte lowByte
  apply BitVec.eq_of_getLsbD_eq
  intro i hi
  rw [BitVec.getLsbD_append]
  simp only [BitVec.getLsbD_extractLsb']
  split
  · simp_all
  · rename_i h
    have : i - 8 < 8 := by omega
    simp [this, show 8 + (i - 8) = i by omega]

@[simp] theorem lowByte_halfOf (h l : Byte) : lowByte (halfOf h l) = l := by
  unfold halfOf lowByte
  apply BitVec.eq_of_getLsbD_eq
  intro i hi
  rw [BitVec.getLsbD_extractLsb', BitVec.getLsbD_append]
  simp [hi]

@[simp] theorem highByte_halfOf (h l : Byte) : highByte (halfOf h l) = h := by
  unfold halfOf highByte
  apply BitVec.eq_of_getLsbD_eq
  intro i hi
  rw [BitVec.getLsbD_extractLsb', BitVec.getLsbD_append]
  simp [hi]

/-- The halfword that was written is the halfword read (20_memory.md R64). -/
theorem fbHalf_writeHalf (m : Memory) (a : Nat) (v : Half) : fbHalf (fbWriteHalf m a v) a = v := by
  unfold fbHalf fbWriteHalf
  rw [fbByte_write_same, fbByte_write_other _ _ _ _ (by omega), fbByte_write_same]
  exact halfOf_bytes v

theorem hostWritten_wf (m : Memory) (i : EdgeIn) (h : Memory.wf m) : Memory.wf (hostWritten m i) := by
  unfold hostWritten
  split
  · exact fbWriteHalf_wf _ _ _ h
  · exact write_wf _ _ _ h

/-- The host's port keeps the canonical form. -/
theorem hostPort_wf (i : EdgeIn) (s : State) (h : Memory.wf s.fb) : Memory.wf (s.hostPort i).fb := by
  unfold State.hostPort
  split
  · split
    · exact h
    · split
      · exact hostWritten_wf _ _ h
      · exact h
  · exact h

/-- Without a host write the port leaves the frame buffer alone. -/
theorem hostPort_fb (i : EdgeIn) (s : State) (h : noHostWrite i = true) : (s.hostPort i).fb = s.fb := by
  unfold State.hostPort
  simp only [noHostWrite, Bool.not_eq_true', Bool.and_eq_false_iff] at h
  split
  · split
    · rfl
    · split
      · simp_all
      · rfl
  · rfl

/-- The ports' work at an edge keeps the canonical form. -/
theorem atPorts_wf (i : EdgeIn) (s : State) (h : Memory.wf s.fb) : Memory.wf (atPorts i s).fb :=
  hostPort_wf _ _ (by simpa using h)

theorem atPorts_fb (i : EdgeIn) (s : State) (h : noHostWrite i = true) : (atPorts i s).fb = s.fb := by
  unfold atPorts
  rw [hostPort_fb _ _ h]
  simp

/-- Every byte that the ports leave in the frame buffer was there, or lies inside it. -/
theorem atPorts_inside (i : EdgeIn) (s : State) (n : Nat) (hn : s.cfg.fbBytes = n) (h : ∀ c ∈ s.fb, c.1 < n) :
    ∀ c ∈ (atPorts i s).fb, c.1 < n := by
  intro c hc
  unfold atPorts State.hostPort at hc
  split at hc
  · split at hc
    · exact h c (by simpa using hc)
    · rename_i hf
      split at hc
      · simp only [hostWritten] at hc
        simp only [hostAccessFails] at hf
        split at hc
        · rename_i hs
          simp [hs, hn] at hf
          rcases mem_write _ _ _ _ hc with hc | rfl
          · rcases mem_write _ _ _ _ hc with hc | rfl
            · exact h c (by simpa using hc)
            · show i.fbAddr < n; omega
          · exact hf.2
        · rename_i hs
          simp [hs, hn] at hf
          rcases mem_write _ _ _ _ hc with hc | rfl
          · exact h c (by simpa using hc)
          · exact hf
      · exact h c (by simpa using hc)
  · exact h c (by simpa using hc)

end Sys2Proof.Machine
end

