-- ==== Sys2Proof/Laws/Step.lean ====
section
/-! SUPPORT. What one step can do, said once: `exec`, taking a request, the fetch, and the clock edge. -/

namespace Sys2Proof.Machine

variable {i : Instr} {s t : State} {w : Microword}

/-- The actions of an instruction (30_encoding.md R99). -/
def actionsOf (p : Params) : Instr → List Action
  | .nop => []
  | .wreg index value => commandPhase index ++ dataPhase value
  | .wcmd index => commandPhase index
  | .wdat value => dataPhase value
  | .delay ms => [.waitMs ms]
  | .pins mask levels => pinActions mask levels
  | .fill value => fillActions p value
  | .stream => streamActions p
  | .endProg => [.finish]
  | .init | .showFb | .powerOff | .powerOn | .contrast _ | .invert _ | .rotate _ => []

/-- Whether an instruction starts a frame-buffer engine. -/
def isEngine : Instr → Bool
  | .fill _ | .stream => true
  | .nop | .wreg _ _ | .wcmd _ | .wdat _ | .delay _ | .pins _ _ | .endProg | .init | .showFb | .powerOff
  | .powerOn | .contrast _ | .invert _ | .rotate _ => false

/-- From UROM a legal instruction begins; an engine also resets `sc` (43_programs.md R200). -/
theorem exec_busy (hm : s.mode = .busy) (hl : i.opcode.legalRom = true) :
    exec i s = .next ((if isEngine i then s.resetCounter else s).begin (actionsOf s.cfg i)) := by
  cases i with
  | nop | wreg | wcmd | wdat => simp only [exec, execNop, execWreg, execWcmd, execWdat, runEither, hm]; rfl
  | delay | pins | endProg => simp only [exec, execDelay, execPins, execEndProg, runFromRom, hm]; rfl
  | fill | stream =>
    simp only [exec, execFill, execStream, runEngine, runFromRom, State.resetCounter_mode, hm]
    rfl
  | init | showFb | powerOff | powerOn | contrast | invert | rotate => exact absurd hl Bool.false_ne_true

/-- From UROM an instruction that is legal only from the host raises Fault(4) (60_exceptions.md R282). -/
theorem exec_busy_illegal (hm : s.mode = .busy) (hl : i.opcode.legalRom = false) :
    exec i s = .next (s.raiseFault .uromDecode) := by
  cases i <;>
    first
      | (simp [Instr.opcode, Opcode.legalRom] at hl; done)
      | simp [exec, execInit, execShowFb, execPowerOff, execPowerOn, execContrast, execInvert, execRotate,
          runFromHost, hm]

/-- What a request that is legal from the host does in IDLE (45_host_ops.md R261). -/
def acceptedState (i : Instr) (s : State) : State :=
  match i with
  | .init => s.enterInit
  | .showFb => s.enterShow
  | i => s.acceptRequest i (actionsOf s.cfg i)

theorem exec_idle (hm : s.mode = .idle) (hl : i.opcode.legalHost = true) :
    exec i s = .next (acceptedState i s) := by
  cases i <;>
    first
      | (simp [Instr.opcode, Opcode.legalHost] at hl; done)
      | simp [exec, execNop, execWreg, execWcmd, execWdat, execInit, execShowFb, execPowerOff, execPowerOn,
          execContrast, execInvert, execRotate, runEither, runFromHost, hm, acceptedState, actionsOf]

/-- In IDLE a request that is legal only from UROM is rejected with code 2 (45_host_ops.md R262). -/
theorem exec_idle_illegal (hm : s.mode = .idle) (hl : i.opcode.legalHost = false) :
    exec i s = .next (s.reject .illegalOp) := by
  cases i <;>
    first
      | (simp [Instr.opcode, Opcode.legalHost] at hl; done)
      | simp [exec, execDelay, execPins, execFill, execStream, execEndProg, runFromRom, runEngine, hm]

/-- In FAULT every request but INIT is turned away (45_host_ops.md R263). -/
theorem exec_fault (hm : s.mode = .fault) (hi : i ≠ .init) : exec i s = .next s.refuseInFault := by
  cases i <;>
    first
      | (exact absurd rfl hi)
      | simp [exec, execNop, execWreg, execWcmd, execWdat, execDelay, execPins, execFill, execStream, execEndProg,
          execShowFb, execPowerOff, execPowerOn, execContrast, execInvert, execRotate,
          runEither, runFromRom, runEngine, runFromHost, hm]

theorem exec_init_fault (hm : s.mode = .fault) : exec .init s = .next s.enterInit := by
  simp [exec, execInit, hm]

/-- `exec` always answers a next state, one of seven kinds. -/
theorem exec_next (i : Instr) (s : State) :
    (s.mode = .busy ∧ i.opcode.legalRom = true ∧
      exec i s = .next ((if isEngine i then s.resetCounter else s).begin (actionsOf s.cfg i))) ∨
    (s.mode = .busy ∧ i.opcode.legalRom = false ∧ exec i s = .next (s.raiseFault .uromDecode)) ∨
    (s.mode = .idle ∧ i.opcode.legalHost = true ∧ exec i s = .next (acceptedState i s)) ∨
    (s.mode = .idle ∧ i.opcode.legalHost = false ∧ exec i s = .next (s.reject .illegalOp)) ∨
    (s.mode = .fault ∧ i = .init ∧ exec i s = .next s.enterInit) ∨
    (s.mode = .fault ∧ i ≠ .init ∧ exec i s = .next s.refuseInFault) := by
  rcases hm : s.mode with _ | _ | _
  · rcases hl : i.opcode.legalHost with _ | _
    · simp [exec_idle_illegal hm hl]
    · simp [exec_idle hm hl]
  · rcases hl : i.opcode.legalRom with _ | _
    · simp [exec_busy_illegal hm hl]
    · simp [exec_busy hm hl]
  · by_cases hi : i = .init
    · subst hi; simp [exec_init_fault hm]
    · simp [exec_fault hm hi, hi]

/-- What one clock edge does (60_exceptions.md R291): a reset, a transport fault, a sequencer step in BUSY, a
request taken, or nothing but the work of the ports. -/
theorem edgeStep_next {i : EdgeIn} (h : edgeStep i s = .next t) :
    (i.rst = true ∧ t = (atPorts i s).resetEdge s.rstHeld) ∨
    (i.rst = false ∧ i.txFault = true ∧ s.mode ≠ .fault ∧ t = (atPorts i s).transportFault i) ∨
    (i.rst = false ∧ i.txFault = false ∧ s.mode = .busy ∧ seqStep i (atPorts i s) = .next t) ∨
    (i.rst = false ∧ (i.txFault = false ∨ s.mode = .fault) ∧ s.mode ≠ .busy ∧ i.reqValid = true ∧
      takeRequest i.reqWord (atPorts i s) = .next t) ∨
    (i.rst = false ∧ (i.txFault = false ∨ s.mode = .fault) ∧ s.mode ≠ .busy ∧ i.reqValid = false ∧
      t = atPorts i s) := by
  unfold edgeStep portStep at h
  rcases hr : i.rst with _ | _ <;> rcases hf : i.txFault with _ | _ <;> rcases hm : s.mode with _ | _ | _ <;>
    rcases hq : i.reqValid with _ | _ <;> simp_all

/-- Between two microwords: a fetch, the completion of a host microword, or nothing. -/
theorem betweenWords_next (h : betweenWords s = .next t) :
    ((s.prog = .initProg ∨ s.prog = .showProg) ∧ fetch s = .next t) ∨
    (s.prog = .hostOp ∧ t = s.completeHostOp) ∨ (s.prog = .noProg ∧ t = s) := by
  unfold betweenWords at h
  split at h <;> simp_all

/-- A fetch runs past the end, meets an ill-formed word, or runs an instruction (43_programs.md R200). -/
theorem fetch_next (h : fetch s = .next t) :
    (uromWord s.urom s.upc = none ∧ t = s.raiseFault .uromRange) ∨
    (∃ w, uromWord s.urom s.upc = some w ∧
      ((∃ op, decode w = .error (.reservedBits op) ∧ t = (s.fetched w).raiseFault .uromDecode) ∨
       (∃ i, decode w = .ok i ∧ exec i (s.fetched w) = .next t))) := by
  unfold fetch at h
  split at h
  · cases h; exact .inl ⟨‹_›, rfl⟩
  · rename_i w hw
    refine .inr ⟨w, hw, ?_⟩
    unfold beginFetched at h
    split at h
    · exact .inr ⟨_, ‹_›, h⟩
    · rename_i e he
      cases h
      cases e with
      | reservedBits op => exact .inl ⟨op, he, rfl⟩

/-- Taking a request: a malformed word is rejected, another runs (45_host_ops.md R260). -/
theorem takeRequest_next (h : takeRequest w s = .next t) :
    (∃ op, decode w = .error (.reservedBits op) ∧ t = rejectMalformed op s) ∨
    (∃ i, decode w = .ok i ∧ exec i s = .next t) := by
  unfold takeRequest at h
  split at h
  · exact .inr ⟨_, ‹_›, h⟩
  · rename_i op he
    cases h
    exact .inl ⟨op, he, rfl⟩

end Sys2Proof.Machine
end

