-- ==== Sys2Proof/Laws/Program.lean ====
section
/-! SUPPORT. What stands where in UROM, and what the action lists of the instructions contain. -/

namespace Sys2Proof.Machine

/-- Reading UROM is indexing its list. -/
theorem uromWord_eq (l : List Microword) (n : Nat) : uromWord l n = l[n]? := by
  induction l generalizing n with
  | nil => rfl
  | cons w l ih => cases n <;> simp [uromWord, ih]

/-- UROM as built holds the encoded program. -/
theorem uromWord_program (p : Params) (n : Nat) : uromWord p.urom n = (p.uromProgram[n]?).map encode := by
  rw [uromWord_eq]; simp [Params.urom]

/-- The init microprogram without its END. -/
def progBody (p : Params) : List Instr := p.initHead ++ p.initTable.map TableEntry.instr ++ [.fill 0] ++ p.showBody ++ [.delay 50, .pins 8 8]

/-- The program is the init body, END, the show body, END. -/
theorem program_split (p : Params) :
    p.uromProgram = progBody p ++ ([Instr.endProg] ++ (p.showBody ++ [Instr.endProg])) := by
  simp [Params.uromProgram, Params.initProgram, Params.showProgram, initTail, progBody]

theorem progBody_length (p : Params) : (progBody p).length = 21 + p.initTable.length := by
  simp [progBody, Params.initHead, Params.showBody]; omega

theorem showBody_length (p : Params) : p.showBody.length = 9 := rfl

theorem program_length (p : Params) : p.uromProgram.length = p.uromLen := by
  rw [program_split]; simp [progBody_length, showBody_length, Params.uromLen]; omega

/-- An instruction of a program body: legal from UROM and no END. -/
def bodyOk (i : Instr) : Prop := i.opcode.legalRom = true ∧ i ≠ .endProg

theorem showBody_ok (p : Params) : ∀ i ∈ p.showBody, bodyOk i := by
  intro i hi
  simp [Params.showBody] at hi
  rcases hi with rfl|rfl|rfl|rfl|rfl|rfl|rfl|rfl|rfl <;> exact ⟨rfl, by simp⟩

theorem progBody_ok (p : Params) : ∀ i ∈ progBody p, bodyOk i := by
  intro i hi
  simp only [progBody, List.mem_append] at hi
  rcases hi with ((((h | h) | h) | h) | h)
  · simp [Params.initHead] at h
    rcases h with rfl|rfl|rfl|rfl|rfl|rfl|rfl|rfl|rfl <;> exact ⟨rfl, by simp⟩
  · simp at h
    obtain ⟨e, _, rfl⟩ := h
    cases e <;> exact ⟨rfl, by simp [TableEntry.instr]⟩
  · simp at h; subst h; exact ⟨rfl, by simp⟩
  · exact showBody_ok p i h
  · simp at h; rcases h with rfl | rfl <;> exact ⟨rfl, by simp⟩

/-- what stands at an index -/
theorem program_at (p : Params) (n : Nat) (hn : n < p.uromLen) :
    ∃ i, p.uromProgram[n]? = some i ∧ i.opcode.legalRom = true ∧
      (i = .endProg ↔ n + 1 = p.showEntry ∨ n + 1 = p.uromLen) := by
  have h9 := showBody_length p
  have hb := progBody_length p
  simp only [Params.showEntry, Params.uromLen] at *
  rw [program_split]
  by_cases h1 : n < 21 + p.initTable.length
  · refine ⟨(progBody p)[n]'(by omega), ?_, ?_⟩
    · rw [List.getElem?_append_left (by omega)]; exact List.getElem?_eq_getElem _
    · have := progBody_ok p _ (List.getElem_mem (l := progBody p) (n := n) (by omega))
      exact ⟨this.1, ⟨fun h => absurd h this.2, fun h => by omega⟩⟩
  · rw [List.getElem?_append_right (by omega), hb]
    by_cases h2 : n = 21 + p.initTable.length
    · subst h2
      refine ⟨.endProg, by simp, rfl, by simp; omega⟩
    · obtain ⟨k, rfl⟩ : ∃ k, n = 22 + p.initTable.length + k := ⟨n - 22 - p.initTable.length, by omega⟩
      have : 22 + p.initTable.length + k - (21 + p.initTable.length) = k + 1 := by omega
      rw [this, List.singleton_append, List.getElem?_cons_succ]
      by_cases h3 : k < 9
      · refine ⟨p.showBody[k]'(by omega), ?_, ?_⟩
        · rw [List.getElem?_append_left (by omega)]; exact List.getElem?_eq_getElem _
        · have := showBody_ok p _ (List.getElem_mem (l := p.showBody) (n := k) (by omega))
          exact ⟨this.1, ⟨fun h => absurd h this.2, fun h => by omega⟩⟩
      · have : k = 9 := by omega
        subst this
        rw [List.getElem?_append_right (by omega), h9]
        refine ⟨.endProg, by simp, rfl, by simp; omega⟩

theorem fbActions_append (l m : List Action) : fbActions (l ++ m) = fbActions l + fbActions m := by
  induction l with
  | nil => simp [fbActions]
  | cons a l ih => cases a <;> simp [fbActions, ih] <;> omega

theorem fbActions_sends (bs : List Byte) : fbActions (bs.map Action.send) = 0 := by
  induction bs with
  | nil => rfl
  | cons b bs ih => simpa [fbActions] using ih

theorem fbActions_replicate (n : Nat) (a : Action) (h : a = .sendFb ∨ ∃ v, a = .fillByte v) : fbActions (List.replicate n a) = n := by
  induction n with
  | zero => rfl
  | succ n ih => rcases h with rfl | ⟨v, rfl⟩ <;> simp [List.replicate_succ, fbActions, ih]

theorem framed_append (cs : Bool) (l m : List Action) (hl : framed cs l = true) (hm : ∀ c, framed c m = true) :
    framed cs (l ++ m) = true := by
  induction l generalizing cs with
  | nil => exact hm cs
  | cons a l ih => cases a <;> simp [framed] at hl ⊢ <;> first | (obtain ⟨rfl, hl⟩ := hl; exact ⟨rfl, ih _ hl⟩) | exact ih _ hl

theorem framed_phaseOf (cs dc : Bool) (l : List Action) (hl : ∀ a ∈ l, a = .sendFb ∨ ∃ b, a = .send b) :
    framed cs (phaseOf dc l) = true := by
  simp [phaseOf, framed]
  induction l with
  | nil => rfl
  | cons a l ih =>
    have := ih (fun x hx => hl x (List.mem_cons_of_mem _ hx))
    rcases hl a (List.mem_cons_self ..) with rfl | ⟨b, rfl⟩ <;> simpa [framed] using this

theorem framed_phase (cs dc : Bool) (bs : List Byte) : framed cs (phase dc bs) = true := by
  apply framed_phaseOf; intro a ha; simp at ha; obtain ⟨b, _, rfl⟩ := ha; exact .inr ⟨b, rfl⟩

theorem pinActions_mem (m l : BitVec 4) : ∀ a ∈ pinActions m l, ∃ p v, a = .setPin p v := by
  intro a ha
  simp [pinActions, pinAction] at ha
  obtain ⟨p, _, _, rfl⟩ := ha
  exact ⟨_, _, rfl⟩

theorem setPins_ok (l : List Action) (h : ∀ a ∈ l, ∃ p v, a = .setPin p v) :
    (∀ cs, framed cs l = true) ∧ fbActions l = 0 ∧ .finish ∉ l ∧ startsSend l = false := by
  induction l with
  | nil => simp [framed, fbActions, startsSend]
  | cons a l ih =>
    obtain ⟨p, v, rfl⟩ := h a (List.mem_cons_self ..)
    obtain ⟨h1, h2, h3, h4⟩ := ih (fun x hx => h x (List.mem_cons_of_mem _ hx))
    refine ⟨fun cs => by simp [framed, h1], by simp [fbActions, h2], by simp [h3], rfl⟩

theorem phase_finish (dc : Bool) (bs : List Byte) : .finish ∉ phase dc bs := by simp [phase, phaseOf]

/-- What every action list satisfies: its sends are framed, its frame-buffer bytes fit, only END finishes, no
list starts with a send. -/
structure ActsOk (p : Params) (i : Instr) : Prop where
  framed : ∀ cs, framed cs (actionsOf p i) = true
  count : fbActions (actionsOf p i) ≤ p.fbBytes
  count0 : isEngine i = false → fbActions (actionsOf p i) = 0
  fin : i ≠ .endProg → .finish ∉ actionsOf p i
  head : startsSend (actionsOf p i) = false

theorem fb_phase (dc : Bool) (bs : List Byte) : fbActions (phase dc bs) = 0 := by
  simp [phase, phaseOf, fbActions, fbActions_append, fbActions_sends]

/-- Every instruction has such a list. -/
theorem acts_ok (p : Params) (i : Instr) : ActsOk p i := by
  cases i with
  | nop | init | showFb | powerOff | powerOn | contrast | invert | rotate =>
    constructor <;> simp [actionsOf, Sys2Proof.Machine.framed, fbActions, startsSend]
  | delay ms => constructor <;> simp [actionsOf, Sys2Proof.Machine.framed, fbActions, startsSend]
  | endProg => constructor <;> simp [actionsOf, Sys2Proof.Machine.framed, fbActions, startsSend]
  | wreg a b =>
    constructor
    · intro cs; exact framed_append _ _ _ (framed_phase ..) (fun c => framed_phase ..)
    · simp [actionsOf, commandPhase, dataPhase, fbActions_append, fb_phase]
    · simp [actionsOf, commandPhase, dataPhase, fbActions_append, fb_phase]
    · intro _; simp [actionsOf, commandPhase, dataPhase, phase_finish]
    · rfl
  | wcmd a =>
    constructor
    · intro cs; exact framed_phase ..
    · simp [actionsOf, commandPhase, fb_phase]
    · simp [actionsOf, commandPhase, fb_phase]
    · intro _; simp [actionsOf, commandPhase, phase_finish]
    · rfl
  | wdat a =>
    constructor
    · intro cs; exact framed_phase ..
    · simp [actionsOf, dataPhase, fb_phase]
    · simp [actionsOf, dataPhase, fb_phase]
    · intro _; simp [actionsOf, dataPhase, phase_finish]
    · rfl
  | pins m l =>
    obtain ⟨h1, h2, h3, h4⟩ := setPins_ok _ (pinActions_mem m l)
    exact ⟨h1, by simp [actionsOf, h2], by simp [actionsOf, h2], fun _ => h3, h4⟩
  | fill v =>
    have hc : fbActions (fillActions p v) = p.fbBytes := fbActions_replicate _ _ (.inr ⟨v, rfl⟩)
    refine ⟨?_, ?_, ?_, ?_, ?_⟩
    · intro cs
      simp only [actionsOf, fillActions]
      generalize p.fbBytes = n
      induction n with
      | zero => rfl
      | succ n ih => simpa [List.replicate_succ, Sys2Proof.Machine.framed] using ih
    · simp [actionsOf, hc]
    · intro h; cases h
    · intro _ h; cases List.eq_of_mem_replicate (h : _ ∈ List.replicate _ _)
    · simp only [actionsOf, fillActions]; cases p.fbBytes <;> rfl
  | stream =>
    have hc : fbActions (streamActions p) = p.fbBytes := by
      simp [streamActions, phaseOf, fbActions, fbActions_append, fbActions_replicate]
    refine ⟨?_, ?_, ?_, ?_, ?_⟩
    · intro cs; apply framed_phaseOf; intro a ha; exact .inl (List.eq_of_mem_replicate ha)
    · simp [actionsOf, hc]
    · intro h; cases h
    · intro _ h
      simp only [actionsOf, streamActions, phaseOf, List.mem_append] at h
      rcases h with (h | h) | h
      · simp at h
      · cases List.eq_of_mem_replicate h
      · simp at h
    · rfl

end Sys2Proof.Machine
end

