-- ==== Sys2Proof/Laws/Invariant.lean ====
section
/-! SUPPORT. The invariant, one operation at a time: each named update of the state keeps it. -/

namespace Sys2Proof.Machine

variable {s t u : State} {i : EdgeIn}

theorem inv_atPorts (h : Inv s) (i : EdgeIn) : Inv (atPorts i s) where
  legal := by simpa using h.legal
  uromBuilt := by simpa using h.uromBuilt
  memory := atPorts_wf i s h.memory
  inside := by simpa using atPorts_inside i s _ rfl h.inside
  running := by simpa using h.running
  resting := by simpa using h.resting
  offering := by simpa using h.offering
  offered := by simpa using h.offered
  counted := by simpa using h.counted
  selected := by simpa using h.selected
  finishing := by simpa using h.finishing
  inInit := by simpa using h.inInit
  inShow := by simpa using h.inShow
  inHostOp := by simpa using h.inHostOp
  upcRange := by simpa using h.upcRange
  busyFlags := by simpa using h.busyFlags
  idleFlags := by simpa using h.idleFlags
  faultFlags := by simpa using h.faultFlags
  prescaler := by simpa using h.prescaler

theorem Inv.clkPos (h : Inv s) : 0 < s.cfg.clkPerMs := lt_of_le_of_lt (Nat.zero_le _) h.prescaler

theorem inv_resetEdge (h : Inv s) (b : Bool) : Inv (s.resetEdge b) where
  legal := h.legal
  uromBuilt := h.uromBuilt
  memory := h.memory
  inside := h.inside
  running := by simp
  resting := by simp
  offering := by simp [startsSend]
  offered := by simp
  counted := by simp [fbActions]
  selected := by simp [framed]
  finishing := by simp
  inInit := by simp [initEntry, Params.showEntry]
  inShow := by simp
  inHostOp := by simp
  upcRange := by simp [initEntry]
  busyFlags := by simp
  idleFlags := by simp
  faultFlags := by simp
  prescaler := h.clkPos

theorem inv_transportFault (h : Inv s) (i : EdgeIn) : Inv (s.transportFault i) where
  legal := h.legal
  uromBuilt := h.uromBuilt
  memory := h.memory
  inside := h.inside
  running := by simp
  resting := by simp
  offering := by simp [startsSend]
  offered := by simp
  counted := by simpa [fbActions] using le_trans (Nat.le_add_right _ _) h.counted
  selected := by simp [framed]
  finishing := by simp
  inInit := by simp
  inShow := by simp
  inHostOp := by simp
  upcRange := h.upcRange
  busyFlags := by simp
  idleFlags := by simp
  faultFlags := by simp
  prescaler := h.prescaler

theorem Inv.busy_of (h : Inv s) (hp : s.pending ≠ []) : s.mode = .busy := by
  by_contra hm; exact hp (h.resting hm)

/-- Dispatching the head keeps it. -/
theorem inv_dispatch (hd : dispatchHead s = .next t) (hv : s.txv = false)
  (h : startsSend s.pending = false → Inv s) (h' : ∀ b, startsSend s.pending = true →
    (∀ b' r, s.pending = .send b' :: r → b = b') → Inv (s.offer b)) : Inv t := by
  rcases dispatchHead_next hd with ⟨hs, rfl⟩ | ⟨hs, b, rfl, hb, _⟩
  · exact h hs
  · exact h' b hs hb

theorem framed_withPin (pins : BitVec 4) (p : Pin) (v : Bool) (l : List Action)
   (h : framed (pinLevel pins .cs) (.setPin p v :: l) = true) : framed (pinLevel (withPin pins p v) .cs) l = true := by
  rw [pinLevel_withPin]
  simp only [framed] at h
  by_cases hp : p = .cs
  · subst hp; simpa using h
  · simp only [hp, if_false] at h; rw [if_neg (Ne.symm hp)]; exact h

theorem fin_cons {a : Action} {rest : List Action} (h : .finish ∈ a :: rest → a :: rest = [.finish]) (ha : a ≠ .finish) :
   .finish ∉ rest := by
  intro hm
  have := h (List.mem_cons_of_mem _ hm)
  simp at this; exact ha this.1

/-- The completion of an action other than `Finish` keeps it. -/
theorem inv_complete {a : Action} {rest : List Action} {s' : State} (h : Inv s) (hp : s.pending = a :: rest) (hc : Completes i a s s') (ha : a ≠ .finish)
   (hd : dispatchHead (s'.withPending rest) = .next t) : Inv t := by
  have hbusy := h.busy_of (by simp [hp])
  have hfin : .finish ∉ rest := fin_cons (fun hm => (h.finishing (hp ▸ hm)).1 ▸ hp.symm) ha
  have hfin' : rest ≠ [.finish] := by rintro rfl; simp at hfin
  have hpf : s.pending ≠ [.finish] := by rw [hp]; simp; intro e; exact absurd e ha
  have key : ∀ b, (∀ b' r, rest = .send b' :: r → b = b') → Inv {s'.withPending rest with txv := startsSend rest, txb := b} := by
    intro b hb
    have e1 := h.counted; have e2 := h.selected; have e3 := h.inInit; have e4 := h.inShow
    have e5 := h.inHostOp; have e6 := h.busyFlags; have e7 := h.running
    rw [hp] at e1 e2
    simp only [hpf, if_false] at e3 e4
    have e8 := h.prescaler
    have e9 := h.memory; have e10 := h.inside
    cases hc with
    | setPin p v _ hi =>
      constructor
      case memory => simpa using e9
      case inside => simpa using e10
      case offered => exact hb
      case counted => simpa [fbActions] using e1
      case selected => (show framed (pinLevel (s.drivePin p v).pins .cs) rest = true; rw [drivePin_pins]; exact framed_withPin _ _ _ _ e2)
      all_goals simp_all [h.legal, h.uromBuilt, h.upcRange, fbActions, framed]
    | send b' _ hv hr =>
      constructor
      case memory => exact e9
      case inside => exact e10
      case offered => exact hb
      case counted => exact e1
      case selected => simp [framed] at e2; exact e2.2
      all_goals simp_all [h.legal, h.uromBuilt, h.upcRange, fbActions, framed]
    | sendFb _ hv hr =>
      constructor
      case memory => exact e9
      case inside => exact e10
      case offered => exact hb
      case counted => (simp [fbActions] at e1; simp; omega)
      case selected => simp [framed] at e2; exact e2.2
      all_goals simp_all [h.legal, h.uromBuilt, h.upcRange, fbActions, framed]
    | drain _ hi =>
      constructor
      case memory => exact e9
      case inside => exact e10
      case offered => exact hb
      case counted => exact e1
      case selected => exact e2
      all_goals simp_all [h.legal, h.uromBuilt, h.upcRange, fbActions, framed]
    | waiting ms _ hz =>
      constructor
      case memory => exact e9
      case inside => exact e10
      case offered => exact hb
      case counted => exact e1
      case selected => exact e2
      all_goals simp_all [h.legal, h.uromBuilt, h.upcRange, fbActions, framed]
    | fillByte v _ hlt =>
      constructor
      case memory => exact write_wf _ _ _ e9
      case inside => (intro c hc; rcases mem_write _ _ _ _ hc with hc | rfl; exact e10 c hc; exact hlt)
      case offered => exact hb
      case counted => (simp [fbActions] at e1; simp; omega)
      case selected => exact e2
      all_goals simp_all [h.legal, h.uromBuilt, h.upcRange, fbActions, framed]
    | finish => exact absurd rfl ha
  have hv : startsSend rest = false → Inv (s'.withPending rest) := by
    intro hs
    have hv' : s'.txv = false := by
      have h0 := h.offering
      rw [hp] at h0
      cases hc <;> simp_all [startsSend]
    have := key s'.txb (by intro b' r e; rw [e] at hs; simp [startsSend] at hs)
    rw [hs] at this
    have e : ({s'.withPending rest with txv := false, txb := s'.txb} : State) = s'.withPending rest := by
      have : s' = {s' with txv := false} := by rw [← hv']
      unfold State.withPending; rw [← hv']
    rw [e] at this; exact this
  rcases dispatchHead_next hd with ⟨hs, rfl⟩ | ⟨hs, b, rfl, hb, _⟩
  · exact hv hs
  · have := key b hb
    simp at hs
    rw [hs] at this
    exact this

theorem fetched_program (h : Inv s) (hp : s.prog = .initProg ∨ s.prog = .showProg) (hpend : s.pending = []) :
    ∃ j, uromWord s.urom s.upc = some (encode j) ∧ j.opcode.legalRom = true ∧ s.upc < s.cfg.uromLen ∧
      (j = .endProg ↔ s.upc + 1 = s.cfg.showEntry ∨ s.upc + 1 = s.cfg.uromLen) := by
  have hlt : s.upc < s.cfg.uromLen := by
    rcases hp with hp | hp
    · have := (h.inInit hp).2
      rw [hpend] at this
      simp [Params.showEntry, Params.uromLen] at *; omega
    · have := (h.inShow hp).2.2
      rw [hpend] at this
      simpa using this
  obtain ⟨j, hj, hl, he⟩ := program_at s.cfg s.upc hlt
  exact ⟨j, by rw [h.uromBuilt, uromWord_program, hj]; rfl, hl, hlt, he⟩

/-- A fetch keeps it, given that decoding undoes encoding. -/
theorem inv_fetch (hde : ∀ j, decode (encode j) = .ok j) (h : Inv s) (hm : s.mode = .busy) (hp : s.prog = .initProg ∨ s.prog = .showProg) (hpend : s.pending = [])
   : ∃ t, fetch s = .next t ∧ Inv t ∧ t.trace = s.trace := by
  obtain ⟨j, hw, hl, hlt, he⟩ := fetched_program h hp hpend
  have hf : fetch s = .next ((if isEngine j then (s.fetched (encode j)).resetCounter else s.fetched (encode j)).begin (actionsOf s.cfg j)) := by
    unfold fetch beginFetched
    rw [hw]; simp only [hde]
    exact exec_busy hm hl
  refine ⟨_, hf, ?_, by cases isEngine j <;> rfl⟩
  have ok := acts_ok s.cfg j
  have hv : s.txv = false := by rw [h.offering, hpend]; rfl
  have e3 := h.inInit; have e4 := h.inShow
  have hfe : (actionsOf s.cfg j = [.finish]) ↔ j = .endProg := by
    constructor
    · intro hh; by_contra hne; have := ok.fin hne; rw [hh] at this; simp at this
    · rintro rfl; rfl
  have hs : ∀ b r, actionsOf s.cfg j ≠ .send b :: r := by
    intro b r hh; have := ok.head; rw [hh] at this; simp [startsSend] at this
  have hcount := h.counted
  simp only [hpend] at e3 e4
  have hfm : Action.finish ∈ actionsOf s.cfg j → j = .endProg := by
    intro hh; by_contra hne; exact ok.fin hne hh
  have goal : ∀ c, c + fbActions (actionsOf s.cfg j) ≤ s.cfg.fbBytes →
     Inv (({s.fetched (encode j) with sc := c} : State).begin (actionsOf s.cfg j)) := by
    intro c hc
    refine ⟨h.legal, h.uromBuilt, h.memory, h.inside, h.running, ?_, ?_, ?_, hc, ok.framed _, ?_, ?_, ?_, h.inHostOp, hlt, h.busyFlags, h.idleFlags, h.faultFlags, h.prescaler⟩
    · intro hh; exact absurd hm hh
    · show s.txv = _; rw [hv]; exact ok.head.symm
    · intro b r hh; exact absurd hh (hs b r)
    · intro hh
      exact ⟨hfe.2 (hfm hh), hp⟩
    · intro hh
      have := e3 hh
      refine ⟨this.1, ?_⟩
      show if actionsOf s.cfg j = [.finish] then s.upc + 1 = s.cfg.showEntry else s.upc + 1 < s.cfg.showEntry
      simp only [hfe]
      have h2 := this.2
      simp [Params.showEntry, Params.uromLen] at *
      split
      · rename_i e; have := he.1 e; omega
      · rename_i e; have := mt he.2 e; omega
    · intro hh
      have := e4 hh
      refine ⟨this.1, ?_, ?_⟩
      · show s.cfg.showEntry ≤ s.upc + 1; omega
      show if actionsOf s.cfg j = [.finish] then s.upc + 1 = s.cfg.uromLen else s.upc + 1 < s.cfg.uromLen
      simp only [hfe]
      have h2 := this.2
      simp [Params.showEntry, Params.uromLen] at *
      split
      · rename_i e; have := he.1 e; omega
      · rename_i e; have := mt he.2 e; omega
  rcases hE : isEngine j with _ | _
  · have := goal s.sc (by rw [ok.count0 hE]; omega)
    exact this
  · have := goal 0 (by have := ok.count; omega)
    exact this

theorem inv_acceptRequest (h : Inv s) (hm : s.mode = .idle) (j : Instr) (hj : j.opcode.legalHost = true) (hr : ∀ x, j = x → isEngine x = false):
    Inv (s.acceptRequest j (actionsOf s.cfg j)) := by
  have ok := acts_ok s.cfg j
  have hpend := h.resting (by rw [hm]; simp)
  have hv : s.txv = false := by rw [h.offering, hpend]; rfl
  have hne : j ≠ .endProg := by rintro rfl; simp [Instr.opcode, Opcode.legalHost] at hj
  have hcount := h.counted
  refine ⟨h.legal, h.uromBuilt, h.memory, h.inside, by simp, by simp, ?_, ?_, ?_, ok.framed _, ?_, by simp, by simp, ?_, h.upcRange, by simp, by simp, by simp, h.prescaler⟩
  · show s.txv = _; rw [hv]; exact ok.head.symm
  · intro b r hh; have := ok.head; rw [show actionsOf s.cfg j = _ from hh] at this; simp [startsSend] at this
  · show s.sc + fbActions (actionsOf s.cfg j) ≤ _; rw [ok.count0 (hr j rfl)]; show s.sc + 0 ≤ s.cfg.fbBytes; omega
  · intro hh; exact absurd hh (ok.fin hne)
  · intro _; exact (h.idleFlags hm).1

theorem inv_enterInit (h : Inv s) (hm : s.mode ≠ .busy) : Inv s.enterInit := by
  have hpend := h.resting hm
  have hv : s.txv = false := by rw [h.offering, hpend]; rfl
  have hc := h.counted
  refine ⟨h.legal, h.uromBuilt, h.memory, h.inside, by simp, by simp, ?_, ?_, ?_, ?_, ?_, ?_, by simp, by simp, by simp [initEntry], by simp, by simp, by simp, h.prescaler⟩
  all_goals simp_all [startsSend, framed, fbActions, initEntry, Params.showEntry]

theorem inv_enterShow (h : Inv s) (hm : s.mode = .idle) : Inv s.enterShow := by
  have hpend := h.resting (by rw [hm]; simp)
  have hv : s.txv = false := by rw [h.offering, hpend]; rfl
  have hc := h.counted
  have hi := h.idleFlags hm
  refine ⟨h.legal, h.uromBuilt, h.memory, h.inside, by simp, by simp, ?_, ?_, ?_, ?_, ?_, by simp, ?_, by simp, ?_, by simp, by simp, by simp, h.prescaler⟩
  all_goals simp_all [startsSend, framed, fbActions, Params.showEntry, Params.uromLen]

theorem inv_reject (h : Inv s) (hm : s.mode = .idle) (c : Cause) (hc : c = .illegalOp ∨ c = .reservedBits) : Inv (s.reject c) := by
  have hi := h.idleFlags hm
  refine ⟨h.legal, h.uromBuilt, h.memory, h.inside, h.running, h.resting, h.offering, h.offered, h.counted, h.selected, h.finishing, h.inInit, h.inShow, h.inHostOp, h.upcRange, ?_, ?_, ?_, h.prescaler⟩
  all_goals simp [hm, hi]
  rcases hc with rfl | rfl <;> simp [Cause.code]

theorem inv_refuse (h : Inv s) (hm : s.mode = .fault) : Inv s.refuseInFault := by
  have hi := h.faultFlags hm
  refine ⟨h.legal, h.uromBuilt, h.memory, h.inside, h.running, h.resting, h.offering, h.offered, h.counted, h.selected, h.finishing, h.inInit, h.inShow, h.inHostOp, h.upcRange, ?_, ?_, ?_, h.prescaler⟩
  all_goals simp [hm, hi]

theorem legalHost_notEngine (x : Instr) (h2 : x.opcode.legalHost = true) : isEngine x = false := by
  cases x with
  | fill | stream => exact absurd h2 Bool.false_ne_true
  | _ => rfl

theorem inv_takeRequest {w : Microword} (h : Inv s) (hm : s.mode ≠ .busy) : ∃ t, takeRequest w s = .next t ∧ Inv t ∧ t.trace = s.trace := by
  unfold takeRequest
  rcases hd : decode w with ⟨op⟩ | j
  · refine ⟨_, rfl, ?_, ?_⟩
    · unfold rejectMalformed
      split
      · exact inv_refuse h ‹_›
      · apply inv_reject h ‹_›; unfold malformedCause; split <;> simp
      · exact absurd ‹_› hm
    · unfold rejectMalformed; split <;> rfl
  · simp only
    rcases exec_next j s with ⟨h1, _, _⟩ | ⟨h1, _, _⟩ | ⟨h1, h2, h3⟩ | ⟨h1, h2, h3⟩ | ⟨h1, h2, h3⟩ | ⟨h1, h2, h3⟩
    · exact absurd h1 hm
    · exact absurd h1 hm
    · refine ⟨_, h3, ?_, ?_⟩
      · unfold acceptedState
        split
        · exact inv_enterInit h hm
        · exact inv_enterShow h h1
        · exact inv_acceptRequest h h1 _ h2 (fun x hx => legalHost_notEngine x (hx ▸ h2))
      · unfold acceptedState; split <;> rfl
    · exact ⟨_, h3, inv_reject h h1 _ (.inl rfl), rfl⟩
    · exact ⟨_, h3, inv_enterInit h hm, rfl⟩
    · exact ⟨_, h3, inv_refuse h h1, rfl⟩

theorem inv_complete_host (h : Inv s) (hp : s.prog = .hostOp) (hpend : s.pending = []) : Inv s.completeHostOp := by
  have hm : s.mode = .busy := h.running.2 (by rw [hp]; simp)
  have hb := h.busyFlags hm
  have hi := h.inHostOp hp
  refine ⟨h.legal, h.uromBuilt, h.memory, h.inside, by simp, ?_, h.offering, h.offered, h.counted, h.selected, ?_, by simp, by simp, by simp, h.upcRange, by simp, ?_, by simp, h.prescaler⟩
  · intro _; exact hpend
  · intro hh; rw [show s.completeHostOp.pending = [] from hpend] at hh; simp at hh
  · intro _; simp [hb, hi]

theorem inv_waitMs {ms : Half} {rest : List Action} (h : Inv s) (hp : s.pending = .waitMs ms :: rest) :
    Inv ((s.loadDelay ms).withPending (.waiting ms :: rest)) := by
  have hm := h.busy_of (by simp [hp])
  have e1 := h.counted; have e2 := h.selected; have e3 := h.inInit; have e4 := h.inShow; have e5 := h.offering
  have e6 := h.finishing; have e7 := h.clkPos
  rw [hp] at e1 e2 e3 e4 e5
  refine ⟨h.legal, h.uromBuilt, h.memory, h.inside, h.running, ?_, e5, by simp, e1, e2, ?_, ?_, ?_, h.inHostOp, h.upcRange, h.busyFlags, h.idleFlags, h.faultFlags, ?_⟩
  · intro hh; exact absurd hm hh
  · intro hh; simp at hh; have := e6 (by rw [hp]; simp [hh]); rw [hp] at this; simp at this
  · simpa using e3
  · simpa using e4
  · simp; omega

theorem inv_countDelay (h : Inv s) : Inv s.countDelay := by
  have e7 := h.clkPos
  have e8 := h.prescaler
  have hp : s.countDelay.dlyPre < s.countDelay.cfg.clkPerMs := by
    unfold State.countDelay; split
    · show s.cfg.clkPerMs - 1 < s.cfg.clkPerMs; omega
    · show s.dlyPre - 1 < s.cfg.clkPerMs; omega
  have hin := h.inside
  obtain ⟨⟩ := h
  constructor
  case prescaler => exact hp
  case inside => simpa using hin
  all_goals simpa

theorem inv_finish {rest : List Action} (h : Inv s) (hp : s.pending = .finish :: rest)
   (hd : dispatchHead (s.finishProgram.withPending rest) = .next t) : Inv t := by
  have hf := h.finishing (by rw [hp]; simp)
  have : rest = [] := by have := hf.1; rw [hp] at this; simpa using this
  subst this
  have hm := h.busy_of (by simp [hp])
  have hb := h.busyFlags hm
  have hv : s.txv = false := by rw [h.offering, hp]; rfl
  have hc := h.counted
  simp [dispatchHead] at hd
  subst hd
  have hdone : initDoneAtEnd s = true := by
    unfold initDoneAtEnd
    rcases hf.2 with e | e
    · simp [e]
    · simp [(h.inShow e).1]
  refine ⟨h.legal, h.uromBuilt, h.memory, h.inside, by simp, by simp, ?_, by simp, ?_, by simp [framed], by simp, by simp, by simp, by simp, h.upcRange, by simp, ?_, by simp, h.prescaler⟩
  · simp [hv, startsSend]
  · simp [fbActions]; omega
  · intro _; simp [hdone, hb]

end Sys2Proof.Machine
end

