-- ==== Sys2Proof/Laws/PerInstr.lean ====
section
/-! SUPPORT. Per instruction: the encoder puts every instruction into its own row of the opcode table. -/

namespace Sys2Proof.Laws.InOwnRow

/-- The word of an instruction carries its operation and has its must-be-0 bits clear
(spec 30_encoding.md R95). -/
def Statement (i : Instr) : Prop := opcodeOf (encode i) = i.opcode ∧ reservedClear (encode i) = true

theorem of_fields (i : Instr) (ha : i.operandFields.1 &&& maskA i.opcode = 0)
    (hb : i.operandFields.2 &&& maskB i.opcode = 0) : Statement i :=
  ⟨opcodeOf_encode i, (reservedClear_packWord _ _ _).2 ⟨ha, hb⟩⟩

theorem nibble_clear (n : BitVec 4) : n.setWidth 16 &&& (0xFFF0 : Half) = 0 := by revert n; decide

theorem nop : Statement .nop := of_fields _ (by decide) (by decide)

theorem wreg (index value : Half) : Statement (.wreg index value) := of_fields _ (by simp [Instr.operandFields, Instr.opcode, maskA]) (by simp [Instr.operandFields, Instr.opcode, maskB])

theorem wcmd (index : Half) : Statement (.wcmd index) := of_fields _ (by simp [Instr.operandFields, Instr.opcode, maskA]) (by simp [Instr.operandFields, Instr.opcode, maskB])

theorem wdat (value : Half) : Statement (.wdat value) := of_fields _ (by simp [Instr.operandFields, Instr.opcode, maskA]) (by simp [Instr.operandFields, Instr.opcode, maskB])

theorem delay (ms : Half) : Statement (.delay ms) := of_fields _ (by simp [Instr.operandFields, Instr.opcode, maskA]) (by simp [Instr.operandFields, Instr.opcode, maskB])

theorem pins (mask levels : BitVec 4) : Statement (.pins mask levels) :=
  of_fields _ (nibble_clear mask) (nibble_clear levels)

theorem fill (value : Half) : Statement (.fill value) := of_fields _ (by simp [Instr.operandFields, Instr.opcode, maskA]) (by simp [Instr.operandFields, Instr.opcode, maskB])

theorem stream : Statement .stream := of_fields _ (by decide) (by decide)

theorem endProg : Statement .endProg := of_fields _ (by decide) (by decide)

theorem init : Statement .init := of_fields _ (by decide) (by decide)

theorem showFb : Statement .showFb := of_fields _ (by decide) (by decide)

theorem powerOff : Statement .powerOff := of_fields _ (by decide) (by decide)

theorem powerOn : Statement .powerOn := of_fields _ (by decide) (by decide)

theorem contrast (arg : Half) : Statement (.contrast arg) := of_fields _ (by simp [Instr.operandFields, Instr.opcode, maskA]) (by simp [Instr.operandFields, Instr.opcode, maskB])

theorem invert (arg : Half) : Statement (.invert arg) := of_fields _ (by simp [Instr.operandFields, Instr.opcode, maskA]) (by simp [Instr.operandFields, Instr.opcode, maskB])

theorem rotate (arg : Half) : Statement (.rotate arg) := of_fields _ (by simp [Instr.operandFields, Instr.opcode, maskA]) (by simp [Instr.operandFields, Instr.opcode, maskB])

end Sys2Proof.Laws.InOwnRow
end

