-- ==== Sys2Proof/Laws/Run.lean ====
section
/-! SUPPORT. Runs of several edges: how they compose, and what a list of phase actions does under calm edges. -/

namespace Sys2Proof.Machine

variable {s t u : State} {i : EdgeIn} {m n : Nat}

/-- A run of no edge. -/
@[simp] theorem run_zero (s : State) : Host.Core.run Sys2Proof.core 0 s = .next s := rfl

theorem core_run_next (M : Host.Core) (s t : M.State) (n : Nat) (h : M.step s = .next t) :
    M.run (n + 1) s = M.run n t := by
  unfold Host.Core.run
  rw [h]
  cases n <;> rfl

theorem core_run_fault (M : Host.Core) (s : M.State) (n : Nat) (r : M.Fault) (h : M.step s = .fault r) :
    M.run (n + 1) s = .fault r := by
  unfold Host.Core.run
  rw [h]

theorem core_run_refused (M : Host.Core) (s : M.State) (n : Nat) (r : M.Refusal) (h : M.step s = .refused r) :
    M.run (n + 1) s = .refused r := by
  unfold Host.Core.run
  rw [h]

/-- A run starts with one step. -/
theorem run_succ (h : step s = .next t) :
    Host.Core.run Sys2Proof.core (n + 1) s = Host.Core.run Sys2Proof.core n t :=
  core_run_next Sys2Proof.core s t n h

/-- A run that answers a next state takes a first step and then the rest. -/
theorem run_succ_next (h : Host.Core.run Sys2Proof.core (n + 1) s = .next t) :
    ∃ s', step s = .next s' ∧ Host.Core.run Sys2Proof.core n s' = .next t := by
  rcases hs : step s with s' | r | r
  · exact ⟨s', rfl, by rw [← run_succ hs]; exact h⟩
  · rw [core_run_fault Sys2Proof.core s n r hs] at h; cases h
  · rw [core_run_refused Sys2Proof.core s n r hs] at h; cases h

/-- Runs compose. -/
theorem run_add (h : Host.Core.run Sys2Proof.core m s = .next t) :
    Host.Core.run Sys2Proof.core (m + n) s = Host.Core.run Sys2Proof.core n t := by
  induction m generalizing s with
  | zero => cases h; rw [Nat.zero_add]
  | succ m ih =>
    obtain ⟨s', hs, hr⟩ := run_succ_next h
    rw [Nat.succ_add, run_succ hs]
    exact ih hr

/-- One step is a run of one edge. -/
theorem runsTo_one (h : step s = .next t) : RunsTo 1 s t := by
  unfold RunsTo
  rw [run_succ h]
  rfl

/-- Runs compose. -/
theorem runsTo_add (h : RunsTo m s t) (h' : RunsTo n t u) : RunsTo (m + n) s u := by
  unfold RunsTo
  rw [run_add h]
  exact h'

/-- What a calm edge is. -/
theorem calm_parts (h : calm i = true) :
    i.rst = false ∧ i.txFault = false ∧ i.txReady = true ∧ i.txIdle = true := by
  unfold calm at h
  revert h
  cases i.rst <;> cases i.txFault <;> cases i.txReady <;> cases i.txIdle <;> simp

theorem CalmFor.head (h : CalmFor (n + 1) s) : ∃ i r, s.inputs = i :: r ∧ calm i = true := by
  obtain ⟨hl, hc⟩ := h
  rcases hs : s.inputs with _ | ⟨i, r⟩
  · rw [hs] at hl; exact absurd hl (by simp)
  · exact ⟨i, r, rfl, hc i (by simp [hs])⟩

theorem CalmFor.tail (h : CalmFor (n + 1) s) (ht : t.inputs = s.inputs.tail) : CalmFor n t := by
  obtain ⟨hl, hc⟩ := h
  rcases hs : s.inputs with _ | ⟨i, r⟩
  · rw [hs] at hl; exact absurd hl (by simp)
  · rw [hs] at ht hl hc
    simp only [List.tail_cons] at ht
    refine ⟨by rw [ht]; simpa using hl, fun j hj => hc j ?_⟩
    rw [ht] at hj
    simp [hj]

theorem CalmFor.mono (h : CalmFor n s) (hmn : m ≤ n) : CalmFor m s :=
  ⟨le_trans hmn h.1, fun i hi => h.2 i ((List.take_subset_take_left _ hmn) hi)⟩

theorem CalmFor.drop (h : CalmFor (m + n) s) (ht : t.inputs = s.inputs.drop m) : CalmFor n t := by
  obtain ⟨hl, hc⟩ := h
  refine ⟨by rw [ht, List.length_drop]; omega, fun i hi => hc i ?_⟩
  rw [ht] at hi
  rw [List.take_add]
  exact List.mem_append_right _ hi

theorem nextInput_cons {r : List EdgeIn} (h : s.inputs = i :: r) : s.nextInput = i := by
  simp [State.nextInput, h]

/-- A step of a busy sequencer at an edge without reset and transport fault. -/
theorem step_busy {r : List EdgeIn} (h : s.inputs = i :: r) (hr : i.rst = false) (hf : i.txFault = false)
    (hm : s.mode = .busy) : step s = seqStep i (atPorts i s) := by
  simp [step, nextInput_cons h, edgeStep, hr, hf, hm]

/-- What the sequencer leaves alone while it performs actions. -/
structure Kept (s t : State) : Prop where
  cfg : t.cfg = s.cfg
  urom : t.urom = s.urom
  mode : t.mode = s.mode
  prog : t.prog = s.prog
  upc : t.upc = s.upc
  uw : t.uw = s.uw
  initDone : t.initDone = s.initDone
  reqErr : t.reqErr = s.reqErr
  errCode : t.errCode = s.errCode

theorem Kept.trans (h : Kept s t) (h' : Kept t u) : Kept s u :=
  ⟨h'.cfg.trans h.cfg, h'.urom.trans h.urom, h'.mode.trans h.mode, h'.prog.trans h.prog, h'.upc.trans h.upc,
    h'.uw.trans h.uw, h'.initDone.trans h.initDone, h'.reqErr.trans h.reqErr, h'.errCode.trans h.errCode⟩

theorem Kept.refl (s : State) : Kept s s := ⟨rfl, rfl, rfl, rfl, rfl, rfl, rfl, rfl, rfl⟩

/-- The actions of phases: pins, sends and drains. -/
def phaseAction : Action → Bool
  | .setPin _ _ | .send _ | .sendFb | .drain => true
  | .waitMs _ | .waiting _ | .fillByte _ | .finish => false

/-- The pins after a list of phase actions. -/
def pinsAfter : BitVec 4 → List Action → BitVec 4
  | pins, [] => pins
  | pins, .setPin p v :: l => pinsAfter (withPin pins p v) l
  | pins, .send _ :: l | pins, .sendFb :: l | pins, .drain :: l | pins, .waitMs _ :: l | pins, .waiting _ :: l
  | pins, .fillByte _ :: l | pins, .finish :: l => pinsAfter pins l

/-- The events of a list of phase actions that starts at given pins and a given `sc`, over a frame buffer. -/
def actEvents (fb : Memory) : Nat → BitVec 4 → List Action → List Event
  | _, _, [] => []
  | sc, pins, .setPin p v :: l => driveEvents pins p v ++ actEvents fb sc (withPin pins p v) l
  | sc, pins, .send b :: l => .byte b (pinLevel pins .dc) :: actEvents fb sc pins l
  | sc, pins, .sendFb :: l => .byte (fbByte fb sc) (pinLevel pins .dc) :: actEvents fb (sc + 1) pins l
  | sc, pins, .drain :: l | sc, pins, .waitMs _ :: l | sc, pins, .waiting _ :: l | sc, pins, .fillByte _ :: l
  | sc, pins, .finish :: l => actEvents fb sc pins l

/-- The bytes of the frame buffer a list still has to send. -/
def sendCount : List Action → Nat
  | [] => 0
  | .sendFb :: l => sendCount l + 1
  | .setPin _ _ :: l | .send _ :: l | .drain :: l | .waitMs _ :: l | .waiting _ :: l | .fillByte _ :: l
  | .finish :: l => sendCount l

/-- The head of `pending` is dispatched: a `Send` there is on offer. -/
structure Dispatched (s : State) : Prop where
  txv : s.txv = startsSend s.pending
  send : ∀ b r, s.pending = .send b :: r → s.txb = b
  sendFb : ∀ r, s.pending = .sendFb :: r → s.txb = fbByte s.fb s.sc

/-- Dispatching makes the head dispatched and changes nothing but the transport registers. -/
theorem dispatchHead_dispatched (hv : s.txv = false) (hsc : sendCount s.pending ≠ 0 → s.sc + sendCount s.pending ≤ s.cfg.fbBytes) :
    ∃ b v, dispatchHead s = .next { s with txb := b, txv := v } ∧ Dispatched { s with txb := b, txv := v } := by
  obtain ⟨l, hp⟩ : ∃ l, s.pending = l := ⟨_, rfl⟩
  have stay : startsSend l = false → dispatchHead s = .next s →
      ∃ b v, dispatchHead s = .next { s with txb := b, txv := v } ∧
        Dispatched { s with txb := b, txv := v } := by
    intro hl hd
    refine ⟨s.txb, s.txv, hd, ⟨by rw [hv, hp, hl], ?_, ?_⟩⟩
    · intro b r h; rw [show s.pending = _ from h] at hp; rw [← hp] at hl; cases hl
    · intro r h; rw [show s.pending = _ from h] at hp; rw [← hp] at hl; cases hl
  match l, hp with
  | .send b :: r, hp =>
    refine ⟨b, true, by simp [dispatchHead, hp, State.offer], ⟨by simp [hp, startsSend], ?_, ?_⟩⟩
    · intro b' r' h; simp [hp] at h; exact h.1
    · intro r' h; simp [hp] at h
  | .sendFb :: r, hp =>
    have hlt : s.sc < s.cfg.fbBytes := by have := hsc (by simp [hp, sendCount]); simp [hp, sendCount] at this; omega
    refine ⟨fbByte s.fb s.sc, true, by simp [dispatchHead, hp, hlt, State.offer], ⟨by simp [hp, startsSend], ?_, ?_⟩⟩
    · intro b' r' h; simp [hp] at h
    · intro r' h; rfl
  | [], hp => exact stay rfl (by simp [dispatchHead, hp])
  | .setPin _ _ :: _, hp | .drain :: _, hp | .waitMs _ :: _, hp | .waiting _ :: _, hp | .fillByte _ :: _, hp
  | .finish :: _, hp => exact stay rfl (by simp [dispatchHead, hp])

/-- One phase action at a calm edge: it completes, with its events and its pins, and the next is
dispatched over the frame buffer this edge leaves. -/
theorem step_phaseAction {a : Action} {l : List Action} (hm : s.mode = .busy) (hp : s.pending = a :: l)
    (ha : phaseAction a = true) (hd : Dispatched s) (hc : CalmFor 1 s)
    (hsc : sendCount (a :: l) ≠ 0 → s.sc + sendCount (a :: l) ≤ s.cfg.fbBytes) :
    ∃ t, step s = .next t ∧ Kept s t ∧ Dispatched t ∧ t.pending = l ∧
      t.pins = pinsAfter s.pins [a] ∧ t.trace = s.trace ++ actEvents s.fb s.sc s.pins [a] ∧
      t.sc + sendCount l = s.sc + sendCount (a :: l) ∧
      t.dlyMs = s.dlyMs ∧ t.dlyPre = s.dlyPre ∧ t.inputs = s.inputs.tail ∧
      ((∀ i ∈ s.inputs.take 1, noHostWrite i = true) → t.fb = s.fb) := by
  obtain ⟨i, r, hi, hcalm⟩ := hc.head
  obtain ⟨h1, h2, h3, h4⟩ := calm_parts hcalm
  have hstep := step_busy hi h1 h2 hm
  -- the state after the body of the action
  have body : ∀ s' : State, perform i a l (atPorts i s) = advance l s' →
      Kept (atPorts i s) s' → s'.txv = false → s'.fb = (atPorts i s).fb →
      s'.pins = pinsAfter s.pins [a] → s'.trace = s.trace ++ actEvents s.fb s.sc s.pins [a] →
      s'.sc + sendCount l = s.sc + sendCount (a :: l) → s'.dlyMs = s.dlyMs → s'.dlyPre = s.dlyPre →
      s'.inputs = s.inputs.tail →
      ∃ t, step s = .next t ∧ Kept s t ∧ Dispatched t ∧ t.pending = l ∧
        t.pins = pinsAfter s.pins [a] ∧ t.trace = s.trace ++ actEvents s.fb s.sc s.pins [a] ∧
        t.sc + sendCount l = s.sc + sendCount (a :: l) ∧
        t.dlyMs = s.dlyMs ∧ t.dlyPre = s.dlyPre ∧ t.inputs = s.inputs.tail ∧
        ((∀ i ∈ s.inputs.take 1, noHostWrite i = true) → t.fb = s.fb) := by
    intro s' hperf hk hv hfb hpins htr hcount hms hpre hin
    have hk' : Kept s s' := by
      have := hk
      constructor <;> first
        | simpa using this.cfg | simpa using this.urom | simpa using this.mode | simpa using this.prog
        | simpa using this.upc | simpa using this.uw | simpa using this.initDone | simpa using this.reqErr
        | simpa using this.errCode
    obtain ⟨b, v, hd1, hd2⟩ := dispatchHead_dispatched (s := s'.withPending l) hv (fun hz => by
      change sendCount l ≠ 0 at hz
      have hne : sendCount (a :: l) ≠ 0 := by cases a <;> simp_all [sendCount]
      show s'.sc + sendCount l ≤ s'.cfg.fbBytes
      have := hsc hne
      rw [hk'.cfg]; omega)
    refine ⟨_, ?_, ?_, hd2, rfl, hpins, htr, hcount, hms, hpre, hin, ?_⟩
    · rw [hstep, seqStep]
      simp only [State.atPorts_pending, hp]
      rw [hperf]; exact hd1
    · exact ⟨hk'.cfg, hk'.urom, hk'.mode, hk'.prog, hk'.upc, hk'.uw, hk'.initDone, hk'.reqErr, hk'.errCode⟩
    · intro hw
      show s'.fb = s.fb
      rw [hfb, atPorts_fb _ _ (hw i (by simp [hi]))]
  have hv := hd.txv
  rw [hp] at hv
  cases a with
  | setPin p v =>
    refine body ((atPorts i s).drivePin p v) (by simp [perform, performSetPin, h4]) ?_ ?_ ?_ ?_ ?_ ?_ ?_ ?_ ?_
    · constructor <;> simp
    · simpa [startsSend] using hv
    · simp
    · rw [drivePin_pins]; simp [pinsAfter]
    · rw [drivePin_trace]; simp [actEvents]
    · simp [sendCount]
    · simp
    · simp
    · simp
  | send b =>
    have hb := hd.send b l hp
    refine body (atPorts i s).accepted (by simp [perform, performSend, h3, hv, startsSend]) ?_ ?_ ?_ ?_ ?_ ?_ ?_ ?_ ?_
    · constructor <;> simp
    · simp
    · simp
    · simp [pinsAfter]
    · simp [actEvents, hb]
    · simp [sendCount]
    · simp
    · simp
    · simp
  | sendFb =>
    have hb := hd.sendFb l hp
    refine body (atPorts i s).accepted.countByte (by simp [perform, performSendFb, h3, hv, startsSend]) ?_ ?_ ?_ ?_ ?_ ?_ ?_ ?_ ?_
    · constructor <;> simp
    · simp
    · simp
    · simp [pinsAfter]
    · simp [actEvents, hb]
    · simp [sendCount]; omega
    · simp
    · simp
    · simp
  | drain =>
    refine body (atPorts i s) (by simp [perform, performDrain, h4]) ?_ ?_ ?_ ?_ ?_ ?_ ?_ ?_ ?_
    · exact Kept.refl _
    · simpa [startsSend] using hv
    · rfl
    · simp [pinsAfter]
    · simp [actEvents]
    · simp [sendCount]
    · simp
    · simp
    · simp
  | waitMs | waiting | fillByte | finish => exact absurd ha Bool.false_ne_true

theorem pinsAfter_cons (pins : BitVec 4) (a : Action) (l : List Action) :
    pinsAfter pins (a :: l) = pinsAfter (pinsAfter pins [a]) l := by cases a <;> rfl

theorem actEvents_cons (fb : Memory) (sc : Nat) (pins : BitVec 4) (a : Action) (l : List Action) :
    actEvents fb sc pins (a :: l) =
      actEvents fb sc pins [a] ++ actEvents fb (sc + sendCount [a]) (pinsAfter pins [a]) l := by
  cases a <;> simp [actEvents, pinsAfter, sendCount]

theorem actEvents_noSend (fb fb' : Memory) (sc sc' : Nat) (pins : BitVec 4) (l : List Action)
    (h : sendCount l = 0) : actEvents fb sc pins l = actEvents fb' sc' pins l := by
  induction l generalizing pins with
  | nil => rfl
  | cons a l ih =>
    cases a with
    | sendFb => exact absurd h (Nat.succ_ne_zero _)
    | setPin p v => simp only [actEvents]; rw [ih _ h]
    | send b => simp only [actEvents]; rw [ih _ h]
    | drain | waitMs | waiting | fillByte | finish => simp only [actEvents]; rw [ih _ h]

/-- A list of phase actions at calm edges takes one edge an action, and has exactly its events. -/
theorem run_phaseActions (l : List Action) : ∀ s : State, s.mode = .busy → s.pending = l →
    (∀ a ∈ l, phaseAction a = true) → Dispatched s → CalmFor l.length s →
    (sendCount l ≠ 0 → s.sc + sendCount l ≤ s.cfg.fbBytes) →
    (sendCount l ≠ 0 → ∀ i ∈ s.inputs.take l.length, noHostWrite i = true) →
    ∃ t, RunsTo l.length s t ∧ Kept s t ∧ t.pending = [] ∧ t.txv = false ∧
      t.pins = pinsAfter s.pins l ∧ t.trace = s.trace ++ actEvents s.fb s.sc s.pins l ∧
      t.sc = s.sc + sendCount l ∧ t.dlyMs = s.dlyMs ∧ t.dlyPre = s.dlyPre ∧
      t.inputs = s.inputs.drop l.length ∧
      ((∀ i ∈ s.inputs.take l.length, noHostWrite i = true) → t.fb = s.fb) := by
  induction l with
  | nil =>
    intro s hm hp _ hd _ _ _
    have hv : s.txv = false := by rw [hd.txv, hp]; rfl
    exact ⟨s, rfl, Kept.refl s, hp, hv, rfl, by simp [actEvents], by simp [sendCount], rfl, rfl, by simp,
      fun _ => rfl⟩
  | cons a l ih =>
    intro s hm hp hl hd hc hsc hq
    have hc1 : CalmFor 1 s := hc.mono (by simp)
    have hsub : ∀ i ∈ s.inputs.take 1, i ∈ s.inputs.take (a :: l).length :=
      fun i hi => (List.take_subset_take_left _ (by simp)) hi
    obtain ⟨t, hs, hk, hdt, hpt, hpins, htr, hct, hms, hpre, hin, hfb⟩ :=
      step_phaseAction hm hp (hl a (List.mem_cons_self ..)) hd hc1 hsc
    have htail : ∀ i ∈ t.inputs.take l.length, i ∈ s.inputs.take (a :: l).length := by
      intro i hi
      rw [hin] at hi
      rcases hs' : s.inputs with _ | ⟨x, r⟩
      · rw [hs'] at hi; simp at hi
      · rw [hs'] at hi; simp at hi; simp [hi]
    have hcount : sendCount (a :: l) = sendCount [a] + sendCount l := by cases a <;> simp [sendCount]; omega
    obtain ⟨u, hr, hk', hpu, hvu, hpinu, htru, hscu, hmsu, hpreu, hinu, hfbu⟩ :=
      ih t (by rw [hk.mode, hm]) hpt (fun x hx => hl x (List.mem_cons_of_mem _ hx)) hdt (hc.tail hin)
        (fun h => by have := hsc (by rw [hcount]; omega); rw [hk.cfg]; omega)
        (fun h i hi => hq (by rw [hcount]; omega) i (htail i hi))
    refine ⟨u, ?_, hk.trans hk', hpu, hvu, ?_, ?_, by omega, by rw [hmsu, hms], by rw [hpreu, hpre], ?_, ?_⟩
    · exact (show RunsTo (l.length + 1) s u by unfold RunsTo; rw [run_succ hs]; exact hr)
    · rw [hpinu, hpins, ← pinsAfter_cons]
    · rw [htru, htr, List.append_assoc, actEvents_cons s.fb s.sc s.pins a l, hpins]
      congr 2
      by_cases hz : sendCount l = 0
      · exact actEvents_noSend _ _ _ _ _ _ hz
      · rw [hfb (fun i hi => hq (by rw [hcount]; omega) i (hsub i hi)), show t.sc = s.sc + sendCount [a] by omega]
    · rw [hinu, hin]; simp
    · intro hw
      rw [hfbu (fun i hi => hw i (htail i hi)), hfb (fun i hi => hw i (hsub i hi))]

end Sys2Proof.Machine
end

