-- ==== Sys2Proof/Laws/Words.lean ====
section
/-! SUPPORT. Runs of the parts that whole microwords are made of: a fetch, a wait, a fill, the end of a program,
the completion of a host microword. -/

namespace Sys2Proof.Machine

variable {s t u : State} {i : EdgeIn} {m n : Nat} {w : Microword} {j : Instr}

theorem undisturbed_parts (h : undisturbed i = true) : i.rst = false ∧ i.txFault = false := by
  unfold undisturbed at h
  revert h
  cases i.rst <;> cases i.txFault <;> simp

theorem undisturbed_of_calm (h : calm i = true) : undisturbed i = true := by
  obtain ⟨h1, h2, -, -⟩ := calm_parts h
  simp [undisturbed, h1, h2]

theorem UndisturbedFor.of_calm (h : CalmFor n s) : UndisturbedFor n s :=
  ⟨h.1, fun i hi => undisturbed_of_calm (h.2 i hi)⟩

theorem UndisturbedFor.head (h : UndisturbedFor (n + 1) s) :
    ∃ i r, s.inputs = i :: r ∧ undisturbed i = true := by
  obtain ⟨hl, hc⟩ := h
  rcases hs : s.inputs with _ | ⟨i, r⟩
  · rw [hs] at hl; exact absurd hl (by simp)
  · exact ⟨i, r, rfl, hc i (by simp [hs])⟩

theorem UndisturbedFor.drop (h : UndisturbedFor (m + n) s) (ht : t.inputs = s.inputs.drop m) :
    UndisturbedFor n t := by
  obtain ⟨hl, hc⟩ := h
  refine ⟨by rw [ht, List.length_drop]; omega, fun i hi => hc i ?_⟩
  rw [ht] at hi
  rw [List.take_add]
  exact List.mem_append_right _ hi

theorem UndisturbedFor.mono (h : UndisturbedFor n s) (hmn : m ≤ n) : UndisturbedFor m s :=
  ⟨le_trans hmn h.1, fun i hi => h.2 i ((List.take_subset_take_left _ hmn) hi)⟩

theorem QuietFor.mono (h : QuietFor n s) (hmn : m ≤ n) : QuietFor m s :=
  ⟨h.1.mono hmn, fun i hi => h.2 i ((List.take_subset_take_left _ hmn) hi)⟩

theorem QuietFor.drop (h : QuietFor (m + n) s) (ht : t.inputs = s.inputs.drop m) : QuietFor n t := by
  refine ⟨h.1.drop ht, fun i hi => h.2 i ?_⟩
  rw [ht] at hi
  rw [List.take_add]
  exact List.mem_append_right _ hi

/-- What the fetch of a word that is legal from UROM leaves: its actions are pending, `upc` and `uw` have moved,
an engine counts from 0; everything else is as the ports leave it. -/
structure Fetched (w : Microword) (j : Instr) (s t : State) : Prop where
  pending : t.pending = actionsOf s.cfg j
  txv : t.txv = false
  cfg : t.cfg = s.cfg
  urom : t.urom = s.urom
  mode : t.mode = s.mode
  prog : t.prog = s.prog
  upc : t.upc = s.upc + 1
  uw : t.uw = w
  initDone : t.initDone = s.initDone
  reqErr : t.reqErr = s.reqErr
  errCode : t.errCode = s.errCode
  sc : t.sc = if isEngine j then 0 else s.sc
  dlyMs : t.dlyMs = s.dlyMs
  dlyPre : t.dlyPre = s.dlyPre
  pins : t.pins = s.pins
  trace : t.trace = s.trace
  txb : t.txb = s.txb
  inputs : t.inputs = s.inputs.tail
  fb : (∀ i ∈ s.inputs.take 1, noHostWrite i = true) → t.fb = s.fb

/-- The fetch of a word that is legal from UROM (43_programs.md R200). -/
theorem step_fetched (h : AboutToFetch w j s) (hl : j.opcode.legalRom = true) (hu : UndisturbedFor 1 s) :
    ∃ t, step s = .next t ∧ Fetched w j s t := by
  obtain ⟨hm, hp, hpend, hw, hd, hv⟩ := h
  obtain ⟨i, r, hi, hui⟩ := hu.head
  obtain ⟨h1, h2⟩ := undisturbed_parts hui
  have hex := exec_busy (s := (atPorts i s).fetched w) (i := j) (by simpa using hm) hl
  refine ⟨(if isEngine j then ((atPorts i s).fetched w).resetCounter else (atPorts i s).fetched w).begin
    (actionsOf ((atPorts i s).fetched w).cfg j), ?_, ?_⟩
  · rw [step_busy hi h1 h2 hm, seqStep]
    simp only [State.atPorts_pending, hpend]
    have hb : betweenWords (atPorts i s) = fetch (atPorts i s) := by
      unfold betweenWords; rw [State.atPorts_prog]; rcases hp with h | h <;> rw [h]
    rw [hb, fetch, State.atPorts_urom, State.atPorts_upc, hw]
    simp only [beginFetched, hd]
    exact hex
  · rcases he : isEngine j with _ | _
    all_goals
      constructor
      case txv => simpa using hv
      case fb => exact fun hq => atPorts_fb _ _ (hq i (by simp [hi]))
      all_goals simp [he]

/-- A step of a busy sequencer whose head action is known. -/
theorem step_head {a : Action} {l : List Action} (hm : s.mode = .busy) (hp : s.pending = a :: l)
    (hu : UndisturbedFor 1 s) :
    ∃ i, s.nextInput = i ∧ (s.inputs = i :: s.inputs.tail) ∧ step s = perform i a l (atPorts i s) := by
  obtain ⟨i, r, hi, hui⟩ := hu.head
  obtain ⟨h1, h2⟩ := undisturbed_parts hui
  refine ⟨i, nextInput_cons hi, by simp [hi], ?_⟩
  rw [step_busy hi h1 h2 hm, seqStep]
  simp only [State.atPorts_pending, hp]

theorem countDelay_kept (s : State) : Kept s s.countDelay ∧ s.countDelay.pending = s.pending ∧
    s.countDelay.txv = s.txv ∧ s.countDelay.sc = s.sc ∧ s.countDelay.pins = s.pins ∧
    s.countDelay.trace = s.trace ∧ s.countDelay.inputs = s.inputs ∧ s.countDelay.fb = s.fb := by
  unfold State.countDelay
  split <;> exact ⟨⟨rfl, rfl, rfl, rfl, rfl, rfl, rfl, rfl, rfl⟩, rfl, rfl, rfl, rfl, rfl, rfl, rfl⟩

/-- What a run of a wait leaves alone. -/
structure WaitKept (k : Nat) (s t : State) : Prop where
  kept : Kept s t
  txv : t.txv = s.txv
  sc : t.sc = s.sc
  pins : t.pins = s.pins
  inputs : t.inputs = s.inputs.drop k
  fb : (∀ i ∈ s.inputs.take k, noHostWrite i = true) → t.fb = s.fb

theorem WaitKept.refl (s : State) : WaitKept 0 s s := ⟨Kept.refl s, rfl, rfl, rfl, by simp, fun _ => rfl⟩

theorem WaitKept.trans {a b : Nat} (h : WaitKept a s t) (h' : WaitKept b t u) : WaitKept (a + b) s u := by
  refine ⟨h.kept.trans h'.kept, h'.txv.trans h.txv, h'.sc.trans h.sc, h'.pins.trans h.pins, ?_, ?_⟩
  · rw [h'.inputs, h.inputs, List.drop_drop]
  · intro hq
    rw [h'.fb, h.fb]
    · intro i hi; exact hq i ((List.take_subset_take_left _ (Nat.le_add_right a b)) hi)
    · intro i hi
      rw [h.inputs] at hi
      refine hq i ?_
      rw [List.take_add]
      exact List.mem_append_right _ hi

/-- The edges a begun wait still takes, its completion included. -/
def waitLeft (clk : Nat) (ms pre : Nat) : Nat := if ms = 0 then 1 else pre + 1 + (ms - 1) * clk + 1

/-- One edge of a begun wait that is not its last: it emits nothing and comes one edge nearer. -/
theorem step_waiting {x : Half} {l : List Action} (hm : s.mode = .busy) (hp : s.pending = .waiting x :: l)
    (hu : UndisturbedFor 1 s) (hc : 1 ≤ s.cfg.clkPerMs) (hz : s.dlyMs ≠ 0) :
    ∃ t, step s = .next t ∧ WaitKept 1 s t ∧ t.pending = .waiting x :: l ∧ t.trace = s.trace ∧
      waitLeft s.cfg.clkPerMs s.dlyMs.toNat s.dlyPre = waitLeft s.cfg.clkPerMs t.dlyMs.toNat t.dlyPre + 1 := by
  obtain ⟨i, hi, hin, hs⟩ := step_head hm hp hu
  have hfb : (∀ k ∈ s.inputs.take 1, noHostWrite k = true) → (atPorts i s).fb = s.fb :=
    fun hq => atPorts_fb _ _ (hq i (by rw [hin]; simp))
  refine ⟨(atPorts i s).countDelay, ?_, ?_, ?_, ?_, ?_⟩
  · rw [hs, perform, performWaiting, State.atPorts_dlyMs, if_neg hz]
  · obtain ⟨hk, -, h2, h3, h4, -, h6, h7⟩ := countDelay_kept (atPorts i s)
    refine ⟨?_, by rw [h2]; simp, by rw [h3]; simp, by rw [h4]; simp, ?_, ?_⟩
    · exact ⟨by rw [hk.cfg]; simp, by rw [hk.urom]; simp, by rw [hk.mode]; simp, by rw [hk.prog]; simp,
        by rw [hk.upc]; simp, by rw [hk.uw]; simp, by rw [hk.initDone]; simp, by rw [hk.reqErr]; simp,
        by rw [hk.errCode]; simp⟩
    · rw [h6]; simp
    · intro hq; rw [h7]; exact hfb hq
  · rw [(countDelay_kept _).2.1]; simpa using hp
  · rw [(countDelay_kept _).2.2.2.2.2.1]; simp
  · have hz' : s.dlyMs.toNat ≠ 0 := fun h => hz (BitVec.eq_of_toNat_eq h)
    have hlt := s.dlyMs.isLt
    unfold State.countDelay
    simp only [State.atPorts_dlyPre]
    by_cases hpre : s.dlyPre = 0
    · rw [if_pos hpre]
      have hsub : (s.dlyMs - 1).toNat = s.dlyMs.toNat - 1 := by
        have h1 : ((1 : Half)).toNat = 1 := rfl
        rw [BitVec.toNat_sub, h1]
        omega
      simp only [State.atPorts_dlyMs, State.atPorts_cfg, hsub, waitLeft, hpre, if_neg hz']
      by_cases h1 : s.dlyMs.toNat - 1 = 0
      · rw [if_pos h1, show s.dlyMs.toNat = 1 by omega]; simp
      · rw [if_neg h1]
        obtain ⟨k, hk⟩ : ∃ k, s.dlyMs.toNat = k + 2 := ⟨s.dlyMs.toNat - 2, by omega⟩
        rw [hk]
        simp only [show k + 2 - 1 = k + 1 by omega, show k + 1 - 1 = k by omega, Nat.succ_mul]
        omega
    · rw [if_neg hpre]
      simp only [State.atPorts_dlyMs, waitLeft, if_neg hz']
      omega

/-- A begun wait emits nothing before its last edge. -/
theorem run_waiting {x : Half} {l : List Action} (k : Nat) : ∀ s : State, s.mode = .busy →
    s.pending = .waiting x :: l → UndisturbedFor k s → 1 ≤ s.cfg.clkPerMs →
    k < waitLeft s.cfg.clkPerMs s.dlyMs.toNat s.dlyPre →
    ∃ t, RunsTo k s t ∧ WaitKept k s t ∧ t.pending = .waiting x :: l ∧
      t.trace = s.trace ∧
      waitLeft s.cfg.clkPerMs s.dlyMs.toNat s.dlyPre = waitLeft s.cfg.clkPerMs t.dlyMs.toNat t.dlyPre + k := by
  induction k with
  | zero => intro s _ hp _ _ _; exact ⟨s, rfl, WaitKept.refl s, hp, rfl, rfl⟩
  | succ k ih =>
    intro s hm hp hu hc hlt
    have hz : s.dlyMs ≠ 0 := by
      intro h; rw [h] at hlt; simp [waitLeft] at hlt
    obtain ⟨t, hs, hk, hpt, htr, hw⟩ := step_waiting hm hp (hu.mono (by omega)) hc hz
    have hk1 : UndisturbedFor k t := by
      rw [Nat.add_comm] at hu
      exact hu.drop hk.inputs
    obtain ⟨v, hr, hkv, hpv, htv, hwv⟩ := ih t (by rw [hk.kept.mode, hm]) hpt hk1 (by rw [hk.kept.cfg]; exact hc)
      (by rw [hk.kept.cfg]; omega)
    refine ⟨v, by unfold RunsTo; rw [run_succ hs]; exact hr, ?_, hpv, by rw [htv, htr], ?_⟩
    · have := hk.trans hkv; rwa [Nat.add_comm] at this
    · rw [hk.kept.cfg] at hwv; omega

/-- The last edge of a begun wait: the event, and the next action. -/
theorem step_waitDone {x : Half} (hm : s.mode = .busy) (hp : s.pending = [.waiting x])
    (hu : UndisturbedFor 1 s) (hz : s.dlyMs = 0) :
    ∃ t, step s = .next t ∧ WaitKept 1 s t ∧ t.pending = [] ∧ t.trace = s.trace ++ [.wait x] ∧
      t.dlyMs = s.dlyMs ∧ t.dlyPre = s.dlyPre := by
  obtain ⟨i, hi, hin, hs⟩ := step_head hm hp hu
  refine ⟨((atPorts i s).emit (.wait x)).withPending [], ?_, ?_, rfl, ?_, by simp, by simp⟩
  · rw [hs, perform, performWaiting]; simp [hz, advance, dispatchHead]
  · refine ⟨by constructor <;> simp, by simp, by simp, by simp, by simp, ?_⟩
    intro hq
    have := atPorts_fb i s (hq i (by rw [hin]; simp))
    simpa using this
  · simp

/-- The first edge of a wait: the counters are loaded. -/
theorem step_waitMs {x : Half} {l : List Action} (hm : s.mode = .busy) (hp : s.pending = .waitMs x :: l)
    (hu : UndisturbedFor 1 s) :
    ∃ t, step s = .next t ∧ WaitKept 1 s t ∧ t.pending = .waiting x :: l ∧ t.trace = s.trace ∧
      t.dlyMs = x ∧ t.dlyPre = s.cfg.clkPerMs - 1 := by
  obtain ⟨i, hi, hin, hs⟩ := step_head hm hp hu
  refine ⟨((atPorts i s).loadDelay x).withPending (.waiting x :: l), ?_, ?_, rfl, ?_, by simp, by simp⟩
  · rw [hs, perform, performWaitMs]
  · refine ⟨by constructor <;> simp, by simp, by simp, by simp, by simp, ?_⟩
    intro hq
    have := atPorts_fb i s (hq i (by rw [hin]; simp))
    simpa using this
  · simp

/-- The edges a freshly loaded wait takes (41_delay_and_pins.md R153). -/
theorem waitLeft_loaded (clk ms : Nat) (hc : 1 ≤ clk) : waitLeft clk ms (clk - 1) = ms * clk + 1 := by
  unfold waitLeft
  split
  · rename_i h; simp [h]
  · obtain ⟨k, hk⟩ : ∃ k, ms = k + 1 := ⟨ms - 1, by omega⟩
    rw [hk, Nat.succ_mul]
    simp only [Nat.add_sub_cancel]
    omega

/-- What a run of FILL's bytes leaves alone. -/
structure FillKept (s t : State) : Prop where
  kept : Kept s t
  txb : t.txb = s.txb
  txv : t.txv = s.txv
  pins : t.pins = s.pins
  trace : t.trace = s.trace
  dlyMs : t.dlyMs = s.dlyMs
  dlyPre : t.dlyPre = s.dlyPre

/-- A run of FILL's bytes (42_framebuffer_ops.md R170): from `sc` on, one address an edge. -/
theorem run_fillBytes {v : Half} (k : Nat) : ∀ s : State, s.mode = .busy →
    s.pending = List.replicate k (.fillByte v) → UndisturbedFor k s → s.sc + k ≤ s.cfg.fbBytes →
    (∀ i ∈ s.inputs.take k, noHostWrite i = true) →
    ∃ t, RunsTo k s t ∧ FillKept s t ∧ t.pending = [] ∧ t.sc = s.sc + k ∧
      t.inputs = s.inputs.drop k ∧
      ∀ a, fbByte t.fb a = if s.sc ≤ a ∧ a < s.sc + k then fillByteAt v a else fbByte s.fb a := by
  induction k with
  | zero =>
    intro s _ hp _ _ _
    exact ⟨s, rfl, ⟨Kept.refl s, rfl, rfl, rfl, rfl, rfl, rfl⟩, hp, rfl, by simp, fun a => by
      rw [if_neg (by omega)]⟩
  | succ k ih =>
    intro s hm hp hu hsc hq
    rw [List.replicate_succ] at hp
    obtain ⟨i, hi, hin, hs⟩ := step_head hm hp (hu.mono (by omega))
    have hqi : noHostWrite i = true := hq i (by rw [hin]; simp)
    have hfb : (atPorts i s).fb = s.fb := atPorts_fb _ _ hqi
    have hlt : s.sc < s.cfg.fbBytes := by omega
    obtain ⟨t, ht⟩ : ∃ t, t = (((atPorts i s).fillStore v).countByte.withPending (List.replicate k (.fillByte v))) :=
      ⟨_, rfl⟩
    have hst : step s = .next t := by
      rw [hs, perform, performFillByte]
      simp only [State.atPorts_sc, State.atPorts_cfg, if_pos hlt, advance, ht]
      cases k <;> rfl
    have hu' : UndisturbedFor k t := by
      rw [Nat.add_comm] at hu
      exact hu.drop (by rw [ht]; simp)
    obtain ⟨x, hr, hk, hpx, hscx, hinx, hfbx⟩ := ih t (by rw [ht]; simpa using hm) (by rw [ht]; rfl) hu'
      (by rw [ht]; simp; omega)
      (by
        intro j hj
        refine hq j ?_
        rw [ht] at hj
        simp only [State.withPending_inputs, State.countByte_inputs, State.fillStore_inputs,
          State.atPorts_inputs] at hj
        rw [hin]
        simpa using Or.inr hj)
    refine ⟨x, by unfold RunsTo; rw [run_succ hst]; exact hr, ?_, hpx, ?_, ?_, ?_⟩
    · have h0 : FillKept s t := by
        rw [ht]
        exact ⟨by constructor <;> simp, by simp, by simp, by simp, by simp, by simp, by simp⟩
      exact ⟨h0.kept.trans hk.kept, hk.txb.trans h0.txb, hk.txv.trans h0.txv, hk.pins.trans h0.pins, hk.trace.trans h0.trace,
        hk.dlyMs.trans h0.dlyMs, hk.dlyPre.trans h0.dlyPre⟩
    · rw [hscx, ht]; simp; omega
    · rw [hinx, ht]; simp
    · intro a
      have hsct : t.sc = s.sc + 1 := by rw [ht]; simp
      have hfbt : t.fb = Memory.write s.fb s.sc (fillByteAt v s.sc) := by rw [ht]; simp [hfb]
      rw [hfbx a, hsct, hfbt]
      by_cases ha : a = s.sc
      · subst ha
        rw [if_neg (by omega), if_pos (by omega), fbByte_write_same]
      · rw [fbByte_write_other _ _ _ _ ha]
        by_cases hr2 : s.sc + 1 ≤ a ∧ a < s.sc + 1 + k
        · rw [if_pos hr2, if_pos (by omega)]
        · rw [if_neg hr2, if_neg (by omega)]

/-- The edge of `Finish`. -/
theorem step_finish (hm : s.mode = .busy) (hp : s.pending = [.finish]) (hu : UndisturbedFor 1 s) :
    ∃ i, s.inputs = i :: s.inputs.tail ∧ step s = .next (((atPorts i s).finishProgram).withPending []) := by
  obtain ⟨i, hi, hin, hs⟩ := step_head hm hp hu
  exact ⟨i, hin, by rw [hs]; rfl⟩

/-- The edge that completes a host microword. -/
theorem step_complete (hm : s.mode = .busy) (hp : s.pending = []) (hg : s.prog = .hostOp)
    (hu : UndisturbedFor 1 s) :
    ∃ i, s.inputs = i :: s.inputs.tail ∧ step s = .next (atPorts i s).completeHostOp := by
  obtain ⟨i, r, hi, hui⟩ := hu.head
  obtain ⟨h1, h2⟩ := undisturbed_parts hui
  refine ⟨i, by simp [hi], ?_⟩
  rw [step_busy hi h1 h2 hm, seqStep]
  simp only [State.atPorts_pending, hp, betweenWords, State.atPorts_prog, hg]

/-- The edge at which a request is taken. -/
theorem step_request {r : List EdgeIn} (hm : s.mode ≠ .busy) (hi : s.inputs = i :: r)
    (hu : undisturbed i = true) (hv : i.reqValid = true) :
    step s = takeRequest i.reqWord (atPorts i s) := by
  obtain ⟨h1, h2⟩ := undisturbed_parts hu
  rcases hmode : s.mode with _ | _ | _
  · simp [step, nextInput_cons hi, edgeStep, h1, h2, hmode, portStep, hv]
  · exact absurd hmode hm
  · simp [step, nextInput_cons hi, edgeStep, h1, h2, hmode, portStep, hv]

end Sys2Proof.Machine
end

