-- ==== Sys2Proof/Tests/Slice0.lean ====
section
/-! SUPPORT. Tests of the model on small states, and for every statement with hypotheses a witness that meets them.
Expected values are those of spec/95_test_vectors.md (named V-…, P…) or worked out by hand from the cited rule. -/

namespace Sys2Proof.Tests

open Sys2Proof Sys2Proof.Machine

/-! ### Small states -/

/-- The instance of program P3: two pixels, an invented table; a millisecond is four clock cycles. -/
def toy : Params where
  width := 2
  height := 1
  busHz := 32000000
  busMode := ⟨false, false, true⟩
  clkPerMs := 4
  initTable := [.reg 0x0010 0x0000, .reg 0x0011 0x0000, .delay 40, .reg 0x0001 0x011C, .delay 10,
    .reg 0x0007 0x1017, .delay 50]
  initCsLevel := false

/-- `n` quiet edges to come. -/
def quietly (n : Nat) (s : State) : State := { s with inputs := List.replicate n EdgeIn.quiet }

/-- The given edge to come. -/
def edge (i : EdgeIn) (s : State) : State := { s with inputs := [i] }

/-- Right after reset. -/
def boot : State := State.powerOn toy

/-- In a program, about to fetch the word; the frame buffer holds F8 00 07 E0. -/
def rom (w : Microword) (n : Nat) : State :=
  quietly n { boot with urom := [w], fb := [(0, 0xF8), (1, 0x00), (2, 0x07), (3, 0xE0)], pins := 0b0100 }

/-- The end state of P3. -/
def idle : State :=
  { boot with mode := .idle, prog := .noProg, upc := 29, uw := 0x800000000, initDone := true, pins := 0b1111,
              fb := [(0, 0), (1, 0), (2, 0), (3, 0)] }

/-- The state of P4 after its step 2. -/
def faulted : State := { idle with mode := .fault, initDone := false, errCode := 1, upc := 30, pins := 0b1011 }

/-- A request word at the port. -/
def asked (w : Microword) (n : Nat) (s : State) : State :=
  { s with inputs := requestEdge w :: List.replicate n EdgeIn.quiet }

/-- The next state of a step, to be named where it is known to exist. -/
def next (s : State) : State :=
  match step s with
  | .next t => t
  | .fault _ => s
  | .refused _ => s

theorem quietFor_quietly (n : Nat) (s : State) : QuietFor n (quietly n s) := by
  refine ⟨⟨by simp [quietly], ?_⟩, ?_⟩ <;> intro i hi <;>
    (have := List.eq_of_mem_replicate (List.mem_of_mem_take hi); subst this; decide)

theorem quietFor_asked (n : Nat) (w : Microword) (s : State) : QuietFor (1 + n) (asked w n s) := by
  refine ⟨⟨by simp [asked]; omega, ?_⟩, ?_⟩ <;> intro i hi <;>
    (rcases List.mem_cons.1 (List.mem_of_mem_take hi) with h | h
     · subst h; rfl
     · have := List.eq_of_mem_replicate h; subst this; decide)

/-! ### Well-formedness: each check refuses an ill-formed term -/

/-- R91: UROM-only operations from the host. -/
theorem test_wf_host : [Instr.delay 16, .pins 1 1, .fill 0, .stream, .endProg].any (Instr.wellFormed .host) = false := by
  decide

/-- R91: host-only operations from UROM. -/
theorem test_wf_urom :
    [Instr.init, .showFb, .powerOff, .powerOn, .contrast 0, .invert 0, .rotate 0].any (Instr.wellFormed .urom) = false := by
  decide

/-- R95, item 2: V-E3, V-E5, V-E7, V-E12, V-E13, V-E15, V-E17. -/
theorem test_wf_reserved :
    [(0x000000001 : Microword), 0x200220001, 0x30001F800, 0x900000001, 0xD00010000].any (wordWellFormed .host) = false ∧
    [(0x500100000 : Microword), 0x500000010].any (wordWellFormed .urom) = false := by decide

/-- R5, R6: sizes and clock rates that no block is elaborated from; the bounds themselves are legal. -/
theorem test_wf_params :
    { toy with width := 0 }.legal = false ∧ { toy with width := 65537 }.legal = false ∧
    { toy with height := 0 }.legal = false ∧ { toy with height := 65537 }.legal = false ∧
    { toy with clkPerMs := 0 }.legal = false ∧ { toy with width := 65536, height := 65536 }.legal = true := by decide

/-- R204, condition 1: the delays are 40, 10 and 50 ms in this order, and there are no others. -/
theorem test_wf_table_delays :
    tableWellFormed [.reg 0x10 0, .delay 10, .delay 40, .delay 50] = false ∧
    tableWellFormed [.reg 0x10 0, .delay 40, .delay 10] = false ∧
    tableWellFormed [.reg 0x10 0, .delay 40, .delay 10, .delay 50, .delay 1] = false ∧
    tableWellFormed [.reg 0x10 0, .delay 40, .delay 10, .delay 50] = true := by decide

/-- R204, condition 2: an index outside the groups. -/
theorem test_wf_table_index :
    tableWellFormed [.reg 0x10 0, .reg 0x22 0, .delay 40, .delay 10, .delay 50] = false ∧
    tableWellFormed [.reg 0x10 0, .reg 0x59 0, .delay 40, .delay 10, .delay 50] = true := by decide

/-- R204, condition 3: no power-group write before the first delay. -/
theorem test_wf_table_power :
    tableWellFormed [.reg 0x01 0, .delay 40, .reg 0x10 0, .delay 10, .delay 50] = false := by decide

/-- R6: an illegal instance is refused when it is elaborated. -/
theorem test_wf_elaborate : State.elaborate { toy with width := 0 } = none ∧ State.elaborate toy = some boot :=
  ⟨rfl, rfl⟩

/-! ### Decoding: words written out bit by bit from R90 to R94 -/

theorem test_decode_nop : decode 0b000000000000000000000000000000000000 = .ok .nop := by decide

theorem test_decode_wreg : decode 0b000100000000000000110001000000011000 = .ok (.wreg 0x0003 0x1018) := by decide

theorem test_decode_wcmd : decode 0b001000000000001000100000000000000000 = .ok (.wcmd 0x0022) := by decide

theorem test_decode_wdat : decode 0b001100000000000000001111100000000000 = .ok (.wdat 0xF800) := by decide

theorem test_decode_delay : decode 0b010000000000000000000000000010010110 = .ok (.delay 150) := by decide

theorem test_decode_pins : decode 0b010100000000000000110000000000001001 = .ok (.pins 0b0011 0b1001) := by decide

theorem test_decode_fill : decode 0b011000000000000000000001111100000000 = .ok (.fill 0x1F00) := by decide

theorem test_decode_stream : decode 0b011100000000000000000000000000000000 = .ok .stream := by decide

theorem test_decode_end : decode 0b100000000000000000000000000000000000 = .ok .endProg := by decide

theorem test_decode_init : decode 0b100100000000000000000000000000000000 = .ok .init := by decide

theorem test_decode_show : decode 0b101000000000000000000000000000000000 = .ok .showFb := by decide

theorem test_decode_powerOff : decode 0b101100000000000000000000000000000000 = .ok .powerOff := by decide

theorem test_decode_powerOn : decode 0b110000000000000000000000000000000000 = .ok .powerOn := by decide

theorem test_decode_contrast : decode 0b110100000000000000001000000000000001 = .ok (.contrast 0x8001) := by decide

theorem test_decode_invert : decode 0b111000000000000000000000000000000001 = .ok (.invert 1) := by decide

theorem test_decode_rotate : decode 0b111100000000000000000000000000000010 = .ok (.rotate 2) := by decide

/-- The opcode table's numbering: bit 0 is bit 0 of the microword, and a 36-bit word fills five bytes. -/
theorem test_decode_table :
    decodeTableWord 40 0x100031018 = some (.wreg 0x0003 0x1018) ∧ decodeTableWord 40 0x200220001 = none ∧
    decodeTableWord 36 0x500010003 = some (.pins 1 3) ∧ decodeTableWord 40 0x1000000000 = none := by decide

/-- R100, R101: `DELAY 0x96 ; ms`, `SETPIN CS, 1`, and an operand that does not fit. -/
theorem test_assemble :
    assembleLine ['D','E','L','A','Y',' ','0','x','9','6',' ',';',' ','m','s'] = .word (.delay 150) ∧
    assembleLine ['S','E','T','P','I','N',' ','C','S',',',' ','1'] = .word (.pins 4 4) ∧
    assembleLine ['P','I','N','S',' ','1','6',',','0'] = .refused := by decide

/-! ### One step of each instruction -/

/-- V-P1: WREG 0x0003, 0x1018 sends 00 03 at DC = 0 and 10 18 at DC = 1. -/
theorem test_wreg : (next (rom 0x100031018 1)).pending =
    [.setPin .dc false, .setPin .cs false, .send 0x00, .send 0x03, .drain, .setPin .cs true,
     .setPin .dc true, .setPin .cs false, .send 0x10, .send 0x18, .drain, .setPin .cs true] := by decide

/-- V-P4. -/
theorem test_wcmd : (next (rom 0x200220000 1)).pending =
    [.setPin .dc false, .setPin .cs false, .send 0x00, .send 0x22, .drain, .setPin .cs true] := by decide

/-- V-P6. -/
theorem test_wdat : (next (rom 0x30000ABCD 1)).pending =
    [.setPin .dc true, .setPin .cs false, .send 0xAB, .send 0xCD, .drain, .setPin .cs true] := by decide

/-- V-P8. -/
theorem test_nop : (next (rom 0x000000000 1)).pending = [] ∧ (next (rom 0x000000000 1)).upc = 1 := by decide

/-- V-S7: a host NOP clears the errors of a rejection (`status` 0x2A) and shows BUSY. -/
theorem test_nop_host :
    let s := asked 0x000000000 0 { idle with reqErr := true, errCode := 2 }
    status s = 0x2A ∧ status (next s) = 0x03 := by decide

/-- V-D1, edges t0, t1 and t4: DELAY 1 with CLK_PER_MS = 4. -/
theorem test_delay :
    let s := { quietly 1 boot with pending := [.waitMs 1] }
    ((next s).dlyMs, (next s).dlyPre) = (1, 3) ∧
    (let t := { quietly 1 boot with pending := [.waiting 1], dlyMs := 1, dlyPre := 3 }
     ((next t).dlyMs, (next t).dlyPre) = (1, 2)) ∧
    (let t := { quietly 1 boot with pending := [.waiting 1], dlyMs := 1, dlyPre := 0 }
     ((next t).dlyMs, (next t).dlyPre) = (0, 3)) := by decide

/-- V-D2, its completion. -/
theorem test_delay_zero :
    let s := { quietly 1 boot with pending := [.waiting 0], dlyMs := 0, dlyPre := 3 }
    (next s).trace = [.reset, .wait 0] ∧ (next s).pending = [] := by decide

/-- V-D7, V-D13: the order of the pins. -/
theorem test_pins :
    (next (rom 0x500070000 1)).pending = [.setPin .rst false, .setPin .dc false, .setPin .cs false] ∧
    (next (rom 0x500060004 1)).pending = [.setPin .dc false, .setPin .cs true] := by decide

/-- V-D12 and V-D10: one pin moves, with its event; a pin at its level gives none. -/
theorem test_pins_level :
    let s := { quietly 1 boot with pins := 0b0011, pending := [.setPin .bl true] }
    let u := { quietly 1 boot with pins := 0b0001, pending := [.setPin .rst true] }
    (next s).pins = 0b1011 ∧ (next s).trace = [.reset, .pin .bl true] ∧
    (next u).pins = 0b0001 ∧ (next u).trace = [.reset] := by decide

/-- V-F1: the first byte of FILL 0x1F00 is 00 and the second 1F. -/
theorem test_fill :
    let s := { rom 0 1 with pending := [.fillByte 0x1F00], sc := 2 }
    let u := { rom 0 1 with pending := [.fillByte 0x1F00], sc := 3 }
    (next s).fb = [(0, 0xF8), (1, 0x00), (2, 0x00), (3, 0xE0)] ∧
    (next u).fb = [(0, 0xF8), (1, 0x00), (2, 0x07), (3, 0x1F)] ∧ (next u).sc = 4 := by decide

/-- V-F4: STREAM begins; its third byte is the one at address 2. -/
theorem test_stream :
    (next (rom 0x700000000 1)).pending =
      [.setPin .dc true, .setPin .cs false, .sendFb, .sendFb, .sendFb, .sendFb, .drain, .setPin .cs true] ∧
    (let s := { rom 0 1 with pending := [.sendFb, .sendFb, .drain], sc := 1, txv := true, txb := 0x00, pins := 0b0010 }
     (next s).txb = 0x07 ∧ (next s).trace = [.reset, .byte 0x00 true]) := by decide

/-- V-F7, R173: a host write at the edge that ends the action before a Send is in time for it (R340, R73); a
write while the Send is stalled is too late. -/
theorem test_stream_race :
    let s := edge (byteWriteEdge 1 0x77)
      { rom 0 1 with pending := [.setPin .cs false, .sendFb, .drain], sc := 1, pins := 0b0010 }
    let u := edge { byteWriteEdge 1 0x99 with txReady := false } (next s)
    (next s).txb = 0x77 ∧ (next u).txb = 0x77 ∧ (next u).fb = [(0, 0xF8), (1, 0x99), (2, 0x07), (3, 0xE0)] := by
  decide

/-- R201: END of INIT. -/
theorem test_end :
    let s := { quietly 1 boot with pending := [.finish], upc := 29 }
    (next s).mode = .idle ∧ status (next s) = 0x02 := by decide

/-- V-X6: INIT in FAULT. -/
theorem test_init :
    let t := next (asked 0x900000000 0 faulted)
    status faulted = 0x14 ∧ status t = 0x01 ∧ t.prog = .initProg ∧ t.upc = 0 := by decide

/-- V-X9: INIT from UROM. -/
theorem test_init_rom : status (next (rom 0x900000000 1)) = 0x44 ∧ (next (rom 0x900000000 1)).upc = 1 := by decide

/-- P1, step 3; V-X4: SHOW in FAULT. -/
theorem test_show :
    status (next (asked 0xA00000000 0 idle)) = 0x03 ∧ (next (asked 0xA00000000 0 idle)).upc = 29 ∧
    status (next (asked 0xA00000000 0 faulted)) = 0x1C := by decide

/-- V-S6, V-E16, V-E18: the stubs show BUSY and have no action. -/
theorem test_stubs :
    [(0xB00000000 : Microword), 0xC00000000, 0xD0000FFFF, 0xE00000001, 0xF00000002].all (fun w =>
      let t := next (asked w 0 idle)
      decide (status t = 0x03 ∧ t.pending = [] ∧ t.pins = 0b1111)) = true := by decide

/-- P2, steps 5 and 6; V-E10, V-E19, V-E20; V-X5: rejections. -/
theorem test_rejections :
    status (next (asked 0x400000010 0 idle)) = 0x2A ∧ status (next (asked 0x200220001 0 idle)) = 0x3A ∧
    status (next (asked 0x400010010 0 idle)) = 0x2A ∧ status (next (asked 0x800000000 0 idle)) = 0x2A ∧
    status (next (asked 0x700000000 0 idle)) = 0x2A ∧
    status (next (asked 0x400000010 0 { faulted with reqErr := true })) = 0x1C := by decide

/-! ### Ports, faults, reset, the color encoder -/

/-- V-X1 and V-X3: a transport fault in IDLE, and one at the edge of an acceptance. -/
theorem test_transport_fault :
    (let t := next (edge { EdgeIn.quiet with txFault := true } idle); status t = 0x14 ∧ t.pins = 0b1111) ∧
    (let s := { boot with pending := [.send 0x10, .drain], txv := true, txb := 0x10, pins := 0b0010 }
     let t := next (edge { EdgeIn.quiet with txFault := true } s)
     t.trace = [.reset, .fault 1] ∧ t.txv = false ∧ t.pins = 0b0010) := by decide

/-- V-X8: the fetch past the end. -/
theorem test_fetch_range :
    let t := next { rom 0x400000000 1 with upc := 1 }
    status t = 0x54 ∧ t.trace = [.reset, .fault 5] := by decide

/-- V-S1. -/
theorem test_reset :
    let t := next (edge { EdgeIn.quiet with rst := true } { idle with rstHeld := false, trace := [] })
    (t.mode, t.prog, t.upc, t.pins, status t, t.trace) = (.busy, .initProg, 0, 0b0100, 0x01, [.reset]) := by decide

/-- V-F9 to V-F18 scaled to FB_BYTES = 4: the host port. -/
theorem test_host_port :
    (next (edge (halfWriteEdge 0 0x1234) idle)).fb = [(0, 0x34), (1, 0x12), (2, 0), (3, 0)] ∧
    (next (edge (halfReadEdge 2) (rom 0 0))).fbRdata = 0xE007 ∧
    (next (edge (byteReadEdge 3) (rom 0 0))).fbRdata = 0x00E0 ∧
    (next (edge (halfWriteEdge 3 0x1234) idle)).fb = idle.fb ∧ (next (edge (halfWriteEdge 3 0x1234) idle)).fbErr = true ∧
    (next (edge (byteWriteEdge 4 0x12) idle)).fb = idle.fb ∧ (next (edge (byteWriteEdge 4 0x12) idle)).fbErr = true ∧
    (next (edge (byteWriteEdge 3 0x12) idle)).fbErr = false := by decide

/-- V-C1 to V-C3, V-C6, V-C7, V-C8, V-C18. -/
theorem test_color :
    colorFromRgb 255 0 0 = 0x00F8 ∧ colorFromRgb 0 255 0 = 0xE007 ∧ colorFromRgb 0 0 255 = 0x1F00 ∧
    colorFromRgb 0x12 0x34 0x56 = 0xAA11 ∧ colorFromRgb 8 4 8 = 0x2108 ∧ colorFromRgb 7 3 7 = 0 ∧
    colorFromRgb 0 32 0 = 0x0001 := by decide

/-- V-S9 and P3: sizes of the instances. -/
theorem test_sizes :
    toy.uromLen = 39 ∧ toy.showEntry = 29 ∧ toy.upcW = 6 ∧ toy.fbBytes = 4 ∧
    { toy with initTable := List.replicate 50 (.delay 0) }.uromLen = 82 ∧
    { toy with initTable := List.replicate 50 (.delay 0) }.upcW = 7 := by decide

/-- P3: some words of its UROM. -/
theorem test_urom :
    uromWord toy.urom 0 = some 0x500070000 ∧ uromWord toy.urom 12 = some 0x10001011C ∧
    uromWord toy.urom 16 = some 0x600000000 ∧ uromWord toy.urom 20 = some 0x100380001 ∧
    uromWord toy.urom 28 = some 0x800000000 ∧ uromWord toy.urom 29 = some 0x100031018 ∧
    uromWord toy.urom 38 = some 0x800000000 ∧ uromWord toy.urom 39 = none := by decide

/-- R42: the first phase of P3 starts with CS low already, and its bytes are one phase. -/
theorem test_projection :
    frameProjection [.reset, .pin .cs false, .wait 150, .byte 0x00 false, .byte 0x10 false, .pin .cs true,
      .pin .dc true, .pin .cs false, .byte 0x01 true, .pin .cs true] =
      [.wait 150, .phase false [0x00, 0x10], .phase true [0x01]] := by decide

/-! ### Witnesses: for every statement with hypotheses, states and operands that meet them all -/

/-- EncodeDecodeAgree. -/
theorem witness_encodeDecode : decode 0x5000F0009 = .ok (.pins 0xF 0x9) := by decide

/-- MustBeZeroFields, at the edges of its fields. -/
theorem witness_mustBeZero :
    decode (packWord 0x2 0xFFFF 0) = .ok (.wcmd 0xFFFF) ∧ decode (packWord 0x2 0 1) = .error (.reservedBits .wcmd) ∧
    decode (packWord 0x5 15 15) = .ok (.pins 15 15) ∧ decode (packWord 0x5 16 0) = .error (.reservedBits .pins) ∧
    decode (packWord 0x5 0 16) = .error (.reservedBits .pins) ∧
    decode (packWord 0xF 0 0xFFFF) = .ok (.rotate 0xFFFF) ∧ decode (packWord 0xF 1 0) = .error (.reservedBits .rotate) ∧
    decode (packWord 0x8 0 1) = .error (.reservedBits .endProg) := by decide

/-- PseudoInstructions, at the largest operands; one more is refused. -/
theorem witness_pseudo :
    assembleWords .writeReg [.num 65535, .num 65535] = some (.wreg 0xFFFF 0xFFFF) ∧
    assembleWords .writeReg [.num 65536] = none := by decide

theorem about (w : Microword) (i : Instr) (n : Nat) (hd : decode w = .ok i) : AboutToFetch w i (rom w n) :=
  ⟨rfl, .inl rfl, rfl, rfl, hd, rfl⟩

theorem aboutToTake (w : Microword) (i : Instr) (n : Nat) (hd : decode w = .ok i) : AboutToTake w i (asked w n idle) :=
  ⟨rfl, rfl, rfl, hd, requestEdge w, List.replicate n EdgeIn.quiet, rfl, rfl, rfl⟩

/-- StepRunsFetchedInstruction. -/
theorem witness_stepRunsFetched :
    AboutToFetch 0x100031018 (.wreg 0x0003 0x1018) (rom 0x100031018 1) ∧
    undisturbed (rom 0x100031018 1).nextInput = true ∧ noHostWrite (rom 0x100031018 1).nextInput = true :=
  ⟨about _ _ _ (by decide), by decide, by decide⟩

/-- StepRunsRequestedInstruction, in IDLE and in FAULT. -/
theorem witness_stepRunsRequested :
    (let s := asked 0x200220000 0 idle
     s.mode ≠ .busy ∧ s.nextInput.rst = false ∧ s.nextInput.txFault = false ∧ s.nextInput.reqValid = true ∧
       decode s.nextInput.reqWord = .ok (.wcmd 0x22)) ∧
    (let s := edge { requestEdge 0x900000000 with txFault := true } faulted
     s.mode ≠ .busy ∧ s.nextInput.rst = false ∧ s.mode = .fault ∧ s.nextInput.reqValid = true ∧
       decode s.nextInput.reqWord = .ok .init) := by decide

/-- EdgePriority: an edge and a state for each item. -/
theorem witness_edgePriority :
    { EdgeIn.quiet with rst := true, txFault := true }.rst = true ∧
    (let i : EdgeIn := { EdgeIn.quiet with txFault := true }; i.rst = false ∧ i.txFault = true ∧ boot.mode ≠ .fault) ∧
    (EdgeIn.quiet.rst = false ∧ EdgeIn.quiet.txFault = false ∧ boot.mode = .busy) ∧
    (EdgeIn.quiet.rst = false ∧ EdgeIn.quiet.txFault = false ∧ idle.mode ≠ .busy) ∧
    (let i : EdgeIn := { EdgeIn.quiet with txFault := true }
     i.rst = false ∧ faulted.mode = .fault ∧ faulted.mode ≠ .busy) := by decide

/-- The invariant of the toy instance after reset, and at the end of P3. -/
theorem boot_inv : Inv boot := by
  constructor <;> first | decide | simp [boot, State.powerOn]

theorem idle_inv : Inv idle := by
  constructor <;> first | decide | simp [idle, boot, State.powerOn]

/-- FetchPastTheEndFaults: V-X8 at its second fetch; the toy instance after reset. -/
theorem witness_fetchPastTheEnd :
    (let s := { rom 0x400000000 1 with upc := 1 }
     s.mode = .busy ∧ s.prog = .initProg ∧ s.pending = [] ∧ s.urom.length ≤ s.upc ∧ undisturbed s.nextInput = true) ∧
    (Inv boot ∧ boot.mode = .busy ∧ boot.prog = .initProg ∧ boot.pending = []) :=
  ⟨by decide, boot_inv, rfl, rfl, rfl⟩

/-- IllFormedRomWordFaults: V-X9, and V-E12 in UROM; the last word of the toy UROM. -/
theorem witness_illFormed :
    (let s := rom 0x900000000 1
     s.mode = .busy ∧ s.prog = .initProg ∧ s.pending = [] ∧ uromWord s.urom s.upc = some 0x900000000 ∧
       wordWellFormed .urom 0x900000000 = false ∧ undisturbed s.nextInput = true) ∧
    wordWellFormed .urom 0x500100000 = false ∧ uromWord toy.urom 38 = some 0x800000000 := by decide

/-- RejectedRequests, at both ends of the range 4 to 8 and beside it; RequestsInFault. -/
theorem witness_rejected :
    idle.mode = .idle ∧ wordWellFormed .host 0x400000000 = false ∧ wordWellFormed .host 0x800000000 = false ∧
    wordWellFormed .host 0x300010000 = false ∧ wordWellFormed .host 0x900000001 = false ∧ faulted.mode = .fault := by
  decide

/-- RomPhaseWordsBegin, RomControlWordsBegin, RomEnginesBegin, HostPhaseWordsAccepted, HostStubsAccepted,
ProgramRequestsAccepted, TurnedAwayForms: their modes and operations. -/
theorem witness_modes :
    boot.mode = .busy ∧ idle.mode = .idle ∧ faulted.mode = .fault ∧ (Instr.delay 16).opcode.legalHost = false ∧
    Instr.showFb ≠ .init ∧ Instr.showFb.opcode.legalRom = false := by decide

/-- ExecFrame. -/
theorem witness_execFrame : ∃ t, exec (.fill 0x1F00) boot = .next t := ⟨_, rfl⟩

/-- WregRuns. -/
theorem witness_wregRuns :
    AboutToFetch 0x100031018 (.wreg 0x0003 0x1018) (rom 0x100031018 13) ∧ CalmFor 13 (rom 0x100031018 13) ∧
    QuietFor 13 (rom 0x100031018 13) :=
  ⟨about _ _ _ (by decide), (quietFor_quietly 13 _).1, quietFor_quietly 13 _⟩

/-- WcmdWdatNopRun. -/
theorem witness_wcmdWdatNopRun :
    (AboutToFetch 0x200220000 (.wcmd 0x22) (rom 0x200220000 7) ∧ QuietFor 7 (rom 0x200220000 7)) ∧
    (AboutToFetch 0x30000ABCD (.wdat 0xABCD) (rom 0x30000ABCD 7) ∧ QuietFor 7 (rom 0x30000ABCD 7)) ∧
    (AboutToFetch 0 .nop (rom 0 1) ∧ UndisturbedFor 1 (rom 0 1) ∧ noHostWrite (rom 0 1).nextInput = true) :=
  ⟨⟨about _ _ _ (by decide), quietFor_quietly 7 _⟩, ⟨about _ _ _ (by decide), quietFor_quietly 7 _⟩,
    about _ _ _ (by decide), .of_calm (quietFor_quietly 1 _).1, by decide⟩

/-- DelayRuns, with 1 ms and with none. -/
theorem witness_delayRuns :
    (AboutToFetch 0x400000001 (.delay 1) (rom 0x400000001 7) ∧ 1 ≤ (rom 0x400000001 7).cfg.clkPerMs ∧
      UndisturbedFor (1 + (1 + ((1 : Half).toNat * (rom 0x400000001 7).cfg.clkPerMs + 1))) (rom 0x400000001 7) ∧
      ∃ t, RunsTo 2 (rom 0x400000001 7) t) ∧
    (AboutToFetch 0x400000000 (.delay 0) (rom 0x400000000 3) ∧
      UndisturbedFor (1 + (1 + ((0 : Half).toNat * (rom 0x400000000 3).cfg.clkPerMs + 1))) (rom 0x400000000 3)) :=
  ⟨⟨about _ _ _ (by decide), by decide, .of_calm (quietFor_quietly 7 _).1, _, rfl⟩,
    about _ _ _ (by decide), .of_calm (quietFor_quietly 3 _).1⟩

/-- DelayCounterSteps, each of its four cases. -/
theorem witness_delayCounterSteps :
    let s := quietly 1 boot
    (s.mode = .busy ∧ undisturbed s.nextInput = true) ∧
    { s with pending := [.waitMs 2] }.pending = [.waitMs 2] ∧
    (let t := { s with pending := [.waiting 2], dlyMs := 2, dlyPre := 0 }; t.dlyMs ≠ 0 ∧ t.dlyPre = 0) ∧
    (let t := { s with pending := [.waiting 2], dlyMs := 1, dlyPre := 3 }; t.dlyMs ≠ 0 ∧ t.dlyPre ≠ 0) ∧
    { s with pending := [.waiting 2], dlyMs := 0 }.dlyMs = 0 := by decide

/-- PinsRuns, with every pin masked and with none. -/
theorem witness_pinsRuns :
    (AboutToFetch 0x5000F0009 (.pins 15 9) (rom 0x5000F0009 5) ∧
      QuietFor (instrEdges (rom 0x5000F0009 5).cfg (.pins 15 9)) (rom 0x5000F0009 5)) ∧
    (AboutToFetch 0x50000000F (.pins 0 15) (rom 0x50000000F 1) ∧
      QuietFor (instrEdges (rom 0x50000000F 1).cfg (.pins 0 15)) (rom 0x50000000F 1)) :=
  ⟨⟨about _ _ _ (by decide), quietFor_quietly 5 _⟩, about _ _ _ (by decide), quietFor_quietly 1 _⟩

/-- FillRuns. -/
theorem witness_fillRuns :
    AboutToFetch 0x600001F00 (.fill 0x1F00) (rom 0x600001F00 5) ∧
    UndisturbedFor (1 + (rom 0x600001F00 5).cfg.fbBytes) (rom 0x600001F00 5) ∧
    (∀ i ∈ (rom 0x600001F00 5).inputs.take (1 + (rom 0x600001F00 5).cfg.fbBytes), noHostWrite i = true) :=
  ⟨about _ _ _ (by decide), .of_calm (quietFor_quietly 5 _).1, (quietFor_quietly 5 _).2⟩

/-- StreamRuns, at the toy size and at the default size. -/
theorem witness_streamRuns :
    (AboutToFetch 0x700000000 .stream (rom 0x700000000 9) ∧
      QuietFor ((rom 0x700000000 9).cfg.fbBytes + 5) (rom 0x700000000 9)) ∧
    (let s := { rom 0x700000000 0 with cfg := { toy with width := 220, height := 176 } }
     AboutToFetch 0x700000000 .stream (quietly (s.cfg.fbBytes + 5) s) ∧
       QuietFor (s.cfg.fbBytes + 5) (quietly (s.cfg.fbBytes + 5) s) ∧ s.cfg.width = 220 ∧ s.cfg.height = 176) :=
  ⟨⟨about _ _ _ (by decide), quietFor_quietly 9 _⟩,
    ⟨rfl, .inl rfl, rfl, rfl, by decide, rfl⟩, quietFor_quietly _ _, rfl, rfl⟩

/-- EndRuns. -/
theorem witness_endRuns :
    AboutToFetch 0x800000000 .endProg (rom 0x800000000 2) ∧ UndisturbedFor 2 (rom 0x800000000 2) ∧
    ∀ i ∈ (rom 0x800000000 2).inputs.take 2, noHostWrite i = true :=
  ⟨about _ _ _ (by decide), .of_calm (quietFor_quietly 2 _).1, (quietFor_quietly 2 _).2⟩

/-- HostWordsRun. -/
theorem witness_hostWordsRun :
    (AboutToTake 0x100071017 (.wreg 0x7 0x1017) (asked 0x100071017 13 idle) ∧ QuietFor 14 (asked 0x100071017 13 idle)) ∧
    (AboutToTake 0x200220000 (.wcmd 0x22) (asked 0x200220000 7 idle) ∧ QuietFor 8 (asked 0x200220000 7 idle)) ∧
    (AboutToTake 0x30000F800 (.wdat 0xF800) (asked 0x30000F800 7 idle) ∧ QuietFor 8 (asked 0x30000F800 7 idle)) ∧
    (AboutToTake 0xF00000002 (.rotate 2) (asked 0xF00000002 1 idle) ∧ UndisturbedFor 2 (asked 0xF00000002 1 idle)) :=
  ⟨⟨aboutToTake _ _ _ (by decide), quietFor_asked 13 _ _⟩, ⟨aboutToTake _ _ _ (by decide), quietFor_asked 7 _ _⟩,
    ⟨aboutToTake _ _ _ (by decide), quietFor_asked 7 _ _⟩,
    aboutToTake _ _ _ (by decide), .of_calm (quietFor_asked 1 _ _).1⟩

/-- ShowRuns: P1's SHOW; and pins with DC = CS = 1 at the default size. -/
theorem witness_showRuns :
    (AboutToTake 0xA00000000 .showFb (asked 0xA00000000 (programEdges toy toy.showProgram) idle) ∧
      (asked 0xA00000000 (programEdges toy toy.showProgram) idle).urom = toy.urom ∧
      QuietFor (1 + programEdges toy toy.showProgram) (asked 0xA00000000 (programEdges toy toy.showProgram) idle)) ∧
    (let p := { toy with width := 220, height := 176 }
     p.width = 220 ∧ p.height = 176 ∧ pinLevel 0b0110 .dc = true ∧ pinLevel 0b0110 .cs = true) :=
  ⟨⟨aboutToTake _ _ _ (by decide), rfl, quietFor_asked _ _ _⟩, by decide⟩

/-- InitRuns, ProgramWords, ResetMeetsInv: the toy instance, and one of the largest size. -/
theorem witness_initRuns :
    toy.legal = true ∧ { toy with width := 65536, height := 65536, initCsLevel := true }.legal = true ∧
    QuietFor (programEdges toy toy.initProgram)
      { State.powerOn toy with inputs := List.replicate (programEdges toy toy.initProgram) EdgeIn.quiet } :=
  ⟨by decide, by decide, quietFor_quietly _ _⟩

/-- UromLayout: the last index of each part, and the invariant of a fetching state. -/
theorem witness_uromLayout :
    28 ≤ 21 + toy.initTable.length ∧ 9 < 10 ∧ uromWord toy.urom 38 = some 0x800000000 ∧
    Inv boot ∧ boot.mode = .busy ∧ boot.prog = .initProg ∧ boot.pending = [] :=
  ⟨by decide, by decide, by decide, boot_inv, rfl, rfl, rfl⟩

/-- The invariant says nothing about the inputs to come. -/
theorem inv_inputs {s : State} (h : Inv s) (l : List EdgeIn) : Inv { s with inputs := l } := by
  cases h; constructor <;> assumption

/-- StepKeepsInv, StepNeverStops, CountersFit, UromNeverWritten: an invariant state and its step. -/
theorem witness_steps : Inv (quietly 1 boot) ∧ step (quietly 1 boot) = .next (next (quietly 1 boot)) :=
  ⟨inv_inputs boot_inv _, rfl⟩

/-- ShiftedOutWhenIdle: with its step, and in IDLE. -/
theorem witness_shiftedOut :
    (Inv (quietly 1 boot) ∧ Shifted (quietly 1 boot) ∧ step (quietly 1 boot) = .next (next (quietly 1 boot))) ∧
    (Inv idle ∧ Shifted idle ∧ idle.mode = .idle) :=
  ⟨⟨inv_inputs boot_inv _, ⟨rfl, .inl rfl⟩, rfl⟩, idle_inv, ⟨rfl, .inl rfl⟩, rfl⟩

/-- The toy instance in the last phase of its first WREG, with the byte 00 on offer. -/
def sending : State :=
  { boot with upc := 10, uw := 0x100100000, pins := 0b0011, txv := true, txb := 0
              pending := [.send 0, .drain, .setPin .cs true] }

theorem sending_inv : Inv sending := by
  constructor <;> first | decide | (intro b r h; cases h; rfl)

/-- BytesOnlyWhileSelected: a step that emits a byte. -/
theorem witness_bytes :
    Inv (quietly 1 sending) ∧ step (quietly 1 sending) = .next (next (quietly 1 sending)) ∧
    (next (quietly 1 sending)).trace = sending.trace ++ [.byte 0 true] :=
  ⟨inv_inputs sending_inv _, rfl, by decide⟩

/-- The toy instance about to raise CS at the end of its first WREG. -/
def raising : State := { sending with txv := false, pending := [.setPin .cs true] }

theorem raising_inv : Inv raising := by
  constructor <;> first | decide | (intro b r h; exact absurd h (by simp [raising]))

/-- PinsMoveOnlyWhenIdle: a step that moves a pin. -/
theorem witness_pinsMove :
    Inv (quietly 1 raising) ∧ step (quietly 1 raising) = .next (next (quietly 1 raising)) ∧
    (next (quietly 1 raising)).pins ≠ raising.pins ∧ (quietly 1 raising).nextInput.rst = false :=
  ⟨inv_inputs raising_inv _, rfl, by decide, by decide⟩

/-- HoldsWithoutLimit: a Send at an edge that is not ready, a Drain at one that is not idle. -/
theorem witness_holds :
    (let s := { sending with inputs := [{ EdgeIn.quiet with txReady := false }] }
     s.mode = .busy ∧ UndisturbedFor 1 s ∧ s.txv = true ∧ startsSend s.pending = true ∧
       ∀ i ∈ s.inputs.take 1, i.txReady = false) ∧
    (let s := { sending with txv := false, pending := [.drain], inputs := [{ EdgeIn.quiet with txIdle := false }] }
     s.mode = .busy ∧ UndisturbedFor 1 s ∧ (∃ rest, s.pending = .drain :: rest) ∧
       ∀ i ∈ s.inputs.take 1, i.txIdle = false) :=
  ⟨⟨rfl, ⟨by decide, by decide⟩, rfl, rfl, by decide⟩, rfl, ⟨by decide, by decide⟩, ⟨[], rfl⟩, by decide⟩

/-- StallsOnlyDelay: a stalled Send, and one that is taken. -/
theorem witness_stalls :
    sending.mode = .busy ∧ undisturbed { EdgeIn.quiet with txReady := false } = true ∧
    ∃ t, edgeStep { EdgeIn.quiet with txReady := false } sending = .next t := ⟨rfl, by decide, _, rfl⟩

/-- FrameBufferWriters: a byte that the host changes, and one that FILL changes. -/
theorem witness_writers :
    (let s := edge (byteWriteEdge 3 0x12) idle
     step s = .next (next s) ∧ fbByte (next s).fb 3 ≠ fbByte s.fb 3) ∧
    (let s := { rom 0 1 with pending := [.fillByte 0x1F00], sc := 3 }
     step s = .next (next s) ∧ fbByte (next s).fb 3 ≠ fbByte s.fb 3) :=
  ⟨⟨rfl, by decide⟩, rfl, by decide⟩

/-- EdgeOrderOfFrameBuffer: a host read; a Send of STREAM that starts; a byte of FILL. -/
theorem witness_edgeOrder :
    (let s := edge (halfReadEdge 2) (rom 0 0)
     step s = .next (next s) ∧ s.nextInput.fbEn = true ∧ s.nextInput.fbWe = false ∧
       hostAccessFails s.cfg s.nextInput = false) ∧
    (let s := edge (byteWriteEdge 1 0x77)
       { rom 0 1 with pending := [.setPin .cs false, .sendFb, .drain], sc := 1, pins := 0b0010 }
     step s = .next (next s) ∧ s.mode = .busy ∧ undisturbed s.nextInput = true ∧
       (next s).pending = [.sendFb, .drain] ∧ s.pending ≠ (next s).pending) ∧
    (let s := { rom 0 1 with pending := [.fillByte 0x1F00], sc := 3 }
     step s = .next (next s) ∧ s.mode = .busy ∧ undisturbed s.nextInput = true ∧ s.pending = [.fillByte 0x1F00]) :=
  ⟨⟨rfl, by decide⟩, ⟨rfl, by decide⟩, rfl, by decide⟩

/-- ContentsMoveNothing: two different frame buffers. -/
theorem witness_contents :
    SameButBytes (quietly 1 idle) { quietly 1 idle with fb := [(0, 0xFF)] } ∧
    step (quietly 1 idle) = .next (next (quietly 1 idle)) :=
  ⟨by constructor <;> rfl, rfl⟩

/-- TransportFault, FaultLeftByInitOrReset, FaultAgainAfterInit. -/
theorem witness_faults :
    (let i : EdgeIn := { EdgeIn.quiet with txFault := true }; i.rst = false ∧ i.txFault = true ∧ sending.mode ≠ .fault) ∧
    (faulted.mode = .fault ∧ step (quietly 1 faulted) = .next (next (quietly 1 faulted))) ∧
    (let i : EdgeIn := { requestEdge 0x900000000 with txFault := true }
     i.rst = false ∧ i.txFault = true ∧ i.reqValid = true ∧ i.reqWord = 0x900000000) :=
  ⟨by decide, ⟨rfl, rfl⟩, by decide⟩

/-- FaultLeftByInitOrReset: a step for each of its three cases, and a request word other than INIT. -/
theorem witness_faultLeft :
    (next (quietly 1 faulted)).mode = .fault ∧ (next (asked 0x900000001 0 faulted)).mode = .fault ∧
    (next (asked 0x900000000 0 faulted)).mode = .busy ∧
    (next (edge { EdgeIn.quiet with rst := true } faulted)).mode = .busy := by decide

/-- ResetRun: two edges of reset, from a state out of reset and from one in it; an edge without reset. -/
theorem witness_resetRun :
    let l : List EdgeIn := List.replicate 2 { EdgeIn.quiet with rst := true }
    (let s : State := { sending with rstHeld := false, inputs := l }
     1 + 1 ≤ s.inputs.length ∧ (∀ i ∈ s.inputs.take (1 + 1), i.rst = true) ∧
       ∀ i ∈ s.inputs.take (1 + 1), noHostWrite i = true) ∧
    (let s : State := { boot with inputs := l }; s.rstHeld = true ∧ ∀ i ∈ s.inputs.take (1 + 1), i.rst = true) ∧
    (let s := quietly 1 boot; s.rstHeld = true ∧ s.nextInput.rst = false ∧ step s = .next (next s)) :=
  ⟨by decide, by decide, by decide, by decide, rfl⟩

/-- HostPortAccesses and FailedAccessChangesNothing: the last address inside and the first outside, of each size. -/
theorem witness_hostPort :
    let p := idle.cfg
    (p.fbBytes ≤ (byteReadEdge 4).fbAddr ∧ hostAccessFails p (byteReadEdge 4) = true) ∧
    ((byteReadEdge 3).fbAddr < p.fbBytes ∧ (byteReadEdge 3).fbWe = false) ∧
    ((byteWriteEdge 3 1).fbAddr < p.fbBytes ∧ (byteWriteEdge 3 1).fbWe = true) ∧
    ((halfReadEdge 3).fbAddr % 2 = 1 ∧ p.fbBytes ≤ (halfReadEdge 4).fbAddr + 1 ∧
      hostAccessFails p (halfReadEdge 3) = true ∧ hostAccessFails p (halfReadEdge 4) = true) ∧
    ((halfReadEdge 2).fbAddr % 2 = 0 ∧ (halfReadEdge 2).fbAddr + 1 < p.fbBytes ∧ (halfReadEdge 2).fbWe = false) ∧
    ((halfWriteEdge 2 1).fbAddr % 2 = 0 ∧ (halfWriteEdge 2 1).fbAddr + 1 < p.fbBytes ∧ (halfWriteEdge 2 1).fbWe = true) := by
  decide

/-- FailedAccessChangesNothing: an edge with such an access. -/
theorem witness_failedAccess : ∃ t, edgeStep (halfReadEdge 3) idle = .next t := ⟨_, rfl⟩

/-- PixelReachesTheWire: the last pixel. LoadRawWrites: a short source and a long one. -/
theorem witness_drawing :
    (let s := edge (drawPixelEdge toy 1 0 255 0 0) idle
     s.mode = .idle ∧ 1 < s.cfg.width ∧ 0 < s.cfg.height ∧ s.inputs = [drawPixelEdge s.cfg 1 0 255 0 0]) ∧
    (let s := { idle with inputs := loadRaw toy [1, 2, 3] }; s.mode = .idle ∧ s.inputs = loadRaw s.cfg [1, 2, 3] ++ []) ∧
    (let s := { idle with inputs := loadRaw toy [1, 2, 3, 4, 5] }
     s.mode = .idle ∧ s.inputs = loadRaw s.cfg [1, 2, 3, 4, 5] ++ [] ∧ s.inputs.length = 4) := by decide

/-- ProjectionOfShow. -/
theorem witness_projection : ([0xF8, 0x00, 0x00, 0x1F] : List Byte) ≠ [] := by decide

/-! ### The host's questions, on one word of each row -/

/-- Every row's match word decodes, and the first step after it is placed runs it: the state is BUSY, or IDLE's
request has been taken. -/
theorem test_first_step :
    (List.range 16).all (fun k =>
      (decodeTableWord 40 (k * 0x100000000)).isSome &&
      (match step (boot.withFetchWord 40 (k * 0x100000000)) with
       | .next t => decide (t.mode = .busy ∧ t.errCode = 0)
       | .fault _ => false
       | .refused _ => false)) = true := by decide

end Sys2Proof.Tests
end

/-! SUPPORT. The widths that 00_scope.md R5 gives the counters, and the legality of the default parameters. -/

namespace Sys2Proof

/-- R5: `bitsFor n` bits count `n` values, 0 to n − 1. -/
theorem le_two_pow_bitsFor (n : Nat) : n ≤ 2 ^ bitsFor n := by
  unfold bitsFor
  split
  next h => simpa using h
  next h =>
    have hlog : n - 1 < 2 ^ ((n - 1).log2 + 1) := Nat.lt_log2_self
    omega

@[simp] theorem TableEntry.delays_append (l t : List TableEntry) :
    TableEntry.delays (l ++ t) = TableEntry.delays l ++ TableEntry.delays t := by
  induction l with
  | nil => rfl
  | cons e l ih => cases e <;> simp [TableEntry.delays, ih]

/-- Register writes stand for no delay. -/
@[simp] theorem TableEntry.delays_entries (l : List (Fin 39 × Half)) : TableEntry.delays (l.map TableShape.entry) = [] := by
  induction l with
  | nil => rfl
  | cons r l ih => simpa [TableShape.entry, TableEntry.delays] using ih

/-- Every counted index lies in a group of 43_programs.md R204, condition 2. -/
theorem groupIndex_groupIndexes : ∀ k : Fin 39, groupIndex (groupIndexes.getD k.val 0x01) = true := by decide

@[simp] theorem TableEntry.indexOk_reg (i v : Half) : (TableEntry.reg i v).indexOk = groupIndex i := rfl

@[simp] theorem TableEntry.indexOk_delay (ms : Half) : (TableEntry.delay ms).indexOk = true := rfl

@[simp] theorem TableEntry.indexOk_entry (r : Fin 39 × Half) : (TableShape.entry r).indexOk = true :=
  groupIndex_groupIndexes r.1

/-- Every counted index of the power group lies in it. -/
theorem powerIndex_counted : ∀ k : Fin 5, powerIndex (0x10 + BitVec.ofNat 16 k.val) = true := by decide

theorem groupIndex_of_powerIndex {i : Half} (h : powerIndex i = true) : groupIndex i = true := by
  simp [groupIndex, h]

/-- A write to the power group that only register writes precede meets 43_programs.md R204, condition 3. -/
theorem TableEntry.powerFirst_of_power {i v : Half} (h : powerIndex i = true) (l : List (Fin 39 × Half)) (t : List TableEntry) :
    TableEntry.powerFirst (l.map TableShape.entry ++ .reg i v :: t) = true := by
  induction l with
  | nil => simp [TableEntry.powerFirst, h]
  | cons r l ih => simp [TableShape.entry, TableEntry.powerFirst, ih]

/-- The table of every shape is well-formed (43_programs.md R204). -/
theorem tableWellFormed_table (t : TableShape) : tableWellFormed t.table = true := by
  have hpower := powerIndex_counted t.power.1
  have hdelays : TableEntry.delays t.table = [40, 10, 50] := by
    simp [TableShape.table, TableEntry.delays]
  have hindexes : t.table.all TableEntry.indexOk = true := by
    simpa [TableShape.table] using groupIndex_of_powerIndex hpower
  have hfirst : TableEntry.powerFirst t.table = true := by
    simp only [TableShape.table, List.append_assoc]
    exact TableEntry.powerFirst_of_power hpower t.lead _
  simp [tableWellFormed, hdelays, hindexes, hfirst]

/-- The default parameters are legal whatever the free table and clock rate are (log 2). -/
theorem legal_default : Params.default.legal = true := by
  simp [Params.legal, Params.default, tableWellFormed_table]

end Sys2Proof

namespace Sys2Proof.Machine

variable {s : State}

theorem clkPerMs_pos_of_legal {p : Params} (h : p.legal = true) : 0 < p.clkPerMs := by
  simp only [Params.legal, Bool.and_eq_true, decide_eq_true_eq] at h
  obtain ⟨⟨-, hclk⟩, -⟩ := h
  exact hclk

/-- The reset state of legal parameters meets the invariant (10_state.md R44): it runs the init microprogram
from its start, with nothing pending. -/
theorem inv_powerOn {p : Params} (h : p.legal = true) : Inv (State.powerOn p) where
  legal := h
  uromBuilt := rfl
  memory := .nil
  inside := by simp [State.powerOn]
  running := by simp [State.powerOn]
  resting := fun _ => rfl
  offering := rfl
  offered := by simp [State.powerOn]
  counted := Nat.zero_le _
  selected := rfl
  finishing := by simp [State.powerOn]
  inInit := by simp [State.powerOn, initEntry, Params.showEntry]
  inShow := by simp [State.powerOn]
  inHostOp := by simp [State.powerOn]
  upcRange := Nat.zero_le _
  busyFlags := fun _ => ⟨rfl, rfl⟩
  idleFlags := by simp [State.powerOn]
  faultFlags := by simp [State.powerOn]
  prescaler := clkPerMs_pos_of_legal h

/-- After reset the transport holds no byte. -/
theorem shifted_powerOn (p : Params) : Shifted (State.powerOn p) where
  sends := rfl
  held := .inl rfl

/-- 10_state.md R23: `upc` never passes UROM_LEN, and UPC_W bits count the indexes up to it. -/
theorem Inv.upc_lt (h : Inv s) : s.upc < 2 ^ s.cfg.upcW :=
  calc s.upc < s.cfg.uromLen + 1 := Nat.lt_succ_of_le h.upcRange
    _ ≤ 2 ^ s.cfg.upcW := le_two_pow_bitsFor _

/-- 10_state.md R27: `sc` reaches FB_BYTES itself, which the bit above the address covers. -/
theorem Inv.sc_lt (h : Inv s) : s.sc < 2 ^ (s.cfg.fbAddrW + 1) :=
  calc s.sc ≤ s.cfg.fbBytes := le_trans (Nat.le_add_right _ _) h.counted
    _ ≤ 2 ^ s.cfg.fbAddrW := le_two_pow_bitsFor _
    _ < 2 ^ (s.cfg.fbAddrW + 1) := Nat.pow_lt_pow_succ (by decide)

/-- 10_state.md R28: the prescaler counts the cycles of one millisecond. -/
theorem Inv.dlyPre_lt (h : Inv s) : s.dlyPre < 2 ^ s.cfg.preW :=
  calc s.dlyPre < s.cfg.clkPerMs := h.prescaler
    _ ≤ 2 ^ s.cfg.preW := le_two_pow_bitsFor _

/-- Settles O38: the invariant bounds each counter by a number of values that its width counts. -/
theorem countersFit : Obligations.CountersFit :=
  fun _ h => ⟨h.upc_lt, h.sc_lt, h.dlyPre_lt⟩

/-- Settles O35: the table of every shape is well-formed, so that the default parameters are legal ones. -/
theorem resetMeetsInv : Obligations.ResetMeetsInv :=
  ⟨legal_default, by decide, by decide, inv_powerOn legal_default, shifted_powerOn _, fun _ => inv_powerOn⟩

end Sys2Proof.Machine

/-! SUPPORT. What every step keeps: decoding undoes encoding, and from a state that meets the invariant one
clock edge answers a next state that meets it. -/

namespace Sys2Proof

open Laws.InOwnRow in
/-- Every instruction's word stands in its own row of the opcode table (30_encoding.md R92, R95). -/
theorem reservedClear_encode (i : Instr) : reservedClear (encode i) = true :=
  match i with
  | .nop => nop.2
  | .wreg index value => (wreg index value).2
  | .wcmd index => (wcmd index).2
  | .wdat value => (wdat value).2
  | .delay ms => (delay ms).2
  | .pins mask levels => (pins mask levels).2
  | .fill value => (fill value).2
  | .stream => stream.2
  | .endProg => endProg.2
  | .init => init.2
  | .showFb => showFb.2
  | .powerOff => powerOff.2
  | .powerOn => powerOn.2
  | .contrast arg => (contrast arg).2
  | .invert arg => (invert arg).2
  | .rotate arg => (rotate arg).2

/-- A mask or level list of PINS fits the low nibble of its field (30_encoding.md R94). -/
theorem nibble_of_setWidth (n : BitVec 4) : (n.setWidth 16).extractLsb' 0 4 = n := by
  revert n; decide

/-- 30_encoding.md R97: the decoder reads back what the encoder packed. -/
@[simp] theorem decode_encode (i : Instr) : decode (encode i) = .ok i := by
  rw [decode, if_pos (reservedClear_encode i), opcodeOf_encode, encode, fieldA_packWord, fieldB_packWord]
  cases i with
  | pins mask levels =>
    simp only [Instr.opcode, Instr.operandFields, buildInstr, nibble_of_setWidth]
  | _ => rfl

end Sys2Proof

namespace Sys2Proof.Machine

variable {i : EdgeIn} {a : Action} {rest : List Action} {s s' t : State}

/-! ### Progress: the byte counter never passes the end of the frame buffer (42_framebuffer_ops.md R171) -/

theorem dispatchHead_exists (hc : s.sc + fbActions s.pending ≤ s.cfg.fbBytes) :
    ∃ t, dispatchHead s = .next t := by
  unfold dispatchHead
  split
  · exact ⟨_, rfl⟩
  · next r hp =>
    have hlt : s.sc < s.cfg.fbBytes := by
      rw [hp, fbActions] at hc
      omega
    exact ⟨_, if_pos hlt⟩
  · exact ⟨_, rfl⟩

/-- A completed action leaves room for the bytes that are still to come. -/
theorem Completes.counted (h : Completes i a s s') (hc : s.sc + fbActions (a :: rest) ≤ s.cfg.fbBytes) :
    s'.sc + fbActions rest ≤ s'.cfg.fbBytes := by
  cases h with
  | setPin | drain | send | waiting | finish => simpa [fbActions] using hc
  | sendFb | fillByte =>
    simp only [fbActions, State.countByte_sc, State.countByte_cfg, State.accepted_sc, State.accepted_cfg,
      State.fillStore_sc, State.fillStore_cfg] at hc ⊢
    omega

/-- The head action never stops the block: it completes and the next is dispatched, or it holds, or it counts. -/
theorem perform_exists (i : EdgeIn) (hp : s.pending = a :: rest) (hc : s.sc + fbActions s.pending ≤ s.cfg.fbBytes) :
    ∃ t, perform i a rest s = .next t := by
  have hadvance : ∀ s', Completes i a s s' → ∃ t, advance rest s' = .next t := fun s' h =>
    dispatchHead_exists (h.counted (hp ▸ hc))
  cases a with
  | setPin p v =>
    simp only [perform, performSetPin]
    split
    · exact hadvance _ (.setPin p v s ‹_›)
    · exact ⟨_, rfl⟩
  | send b =>
    simp only [perform, performSend]
    split
    · split
      · exact hadvance _ (.send b s ‹_› ‹_›)
      · exact ⟨_, rfl⟩
    · exact dispatchHead_exists hc
  | sendFb =>
    simp only [perform, performSendFb]
    split
    · split
      · exact hadvance _ (.sendFb s ‹_› ‹_›)
      · exact ⟨_, rfl⟩
    · exact dispatchHead_exists hc
  | drain =>
    simp only [perform, performDrain]
    split
    · exact hadvance _ (.drain s ‹_›)
    · exact ⟨_, rfl⟩
  | waitMs ms => exact ⟨_, rfl⟩
  | waiting ms =>
    simp only [perform, performWaiting]
    split
    · exact hadvance _ (.waiting ms s ‹_›)
    · exact ⟨_, rfl⟩
  | fillByte v =>
    have hlt : s.sc < s.cfg.fbBytes := by
      rw [hp, fbActions] at hc
      omega
    simp only [perform, performFillByte, if_pos hlt]
    exact hadvance _ (.fillByte v s hlt)
  | finish => exact hadvance _ (.finish s)

/-! ### The invariant, one part of the step at a time -/

theorem inv_perform (h : Inv s) (hp : s.pending = a :: rest) (hs : perform i a rest s = .next t) : Inv t := by
  rcases perform_next hs with ⟨s', hc, hd⟩ | rfl | ⟨hsend, hidle, -⟩ | ⟨ms, rfl, rfl⟩ | ⟨ms, -, -, rfl⟩
  · by_cases ha : a = .finish
    · subst ha
      cases hc
      exact inv_finish h hp hd
    · exact inv_complete h hp hc ha hd
  · exact h
  · have hoffer : s.txv = true := by rw [h.offering, hp, hsend]
    exact absurd (hoffer.symm.trans hidle) (by decide)
  · exact inv_waitMs h hp
  · exact inv_countDelay h

theorem inv_betweenWords (h : Inv s) (hm : s.mode = .busy) (hp : s.pending = []) :
    ∃ t, betweenWords s = .next t ∧ Inv t := by
  unfold betweenWords
  rcases hprog : s.prog with _ | _ | _ | _
  · exact absurd hprog (h.running.1 hm)
  · obtain ⟨t, hf, ht, -⟩ := inv_fetch decode_encode h hm (.inl hprog) hp
    exact ⟨t, hf, ht⟩
  · obtain ⟨t, hf, ht, -⟩ := inv_fetch decode_encode h hm (.inr hprog) hp
    exact ⟨t, hf, ht⟩
  · exact ⟨_, rfl, inv_complete_host h hprog hp⟩

theorem inv_seqStep (i : EdgeIn) (h : Inv s) (hm : s.mode = .busy) : ∃ t, seqStep i s = .next t ∧ Inv t := by
  unfold seqStep
  rcases hp : s.pending with _ | ⟨a, rest⟩
  · exact inv_betweenWords h hm hp
  · obtain ⟨t, ht⟩ := perform_exists i hp h.counted
    exact ⟨t, ht, inv_perform h hp ht⟩

theorem inv_portStep (i : EdgeIn) (h : Inv s) (hm : s.mode ≠ .busy) : ∃ t, portStep i s = .next t ∧ Inv t := by
  unfold portStep
  split
  · obtain ⟨t, ht, hinv, -⟩ := inv_takeRequest h hm
    exact ⟨t, ht, hinv⟩
  · exact ⟨s, rfl, h⟩

/-- One clock edge in the order of 60_exceptions.md R291 answers a next state that meets the invariant. -/
theorem inv_edgeStep (i : EdgeIn) (h : Inv s) : ∃ t, edgeStep i s = .next t ∧ Inv t := by
  have hports := inv_atPorts h i
  unfold edgeStep
  split
  · exact ⟨_, rfl, inv_resetEdge hports _⟩
  · split
    · exact ⟨_, rfl, inv_transportFault hports i⟩
    · rcases hm : s.mode with _ | _ | _
      · exact inv_portStep i hports (by simp [hm])
      · exact inv_seqStep i hports (by simp [hm])
      · exact inv_portStep i hports (by simp [hm])

/-- Settles O36: of the one next state that a step answers, `inv_edgeStep` says that it meets the invariant. -/
theorem stepKeepsInv : Obligations.StepKeepsInv := by
  intro s t h hs
  obtain ⟨u, hu, hinv⟩ := inv_edgeStep s.nextInput h
  obtain rfl : u = t := Host.Outcome.next.inj (hu.symm.trans hs)
  exact hinv

/-- Settles O37: the counters of an invariant state keep the fill and stream engines inside the frame buffer. -/
theorem stepNeverStops : Obligations.StepNeverStops := by
  intro s h
  obtain ⟨t, ht, -⟩ := inv_edgeStep s.nextInput h
  exact ⟨t, ht⟩

end Sys2Proof.Machine

/-! SUPPORT. What one clock edge can change: the frame of `exec`, and what an edge shows on the pins and in the
trace. -/

namespace Sys2Proof.Machine

variable {i : EdgeIn} {a : Action} {rest : List Action} {s s' t u : State}

/-! ### The frame of `exec` -/

theorem isEngine_iff (j : Instr) : isEngine j = true ↔ (∃ v, j = .fill v) ∨ j = .stream := by
  cases j <;> simp [isEngine]

/-- Settles O21: `exec` answers one of six states (`exec_next`), each a named update of `s`, and the field lemmas
of the update say what it leaves. -/
theorem execFrame : Obligations.ExecFrame := by
  intro j s t h
  rcases exec_next j s with ⟨hm, -, hs⟩ | ⟨hm, -, hs⟩ | ⟨hm, -, hs⟩ | ⟨-, -, hs⟩ | ⟨-, rfl, hs⟩ | ⟨-, -, hs⟩ <;>
    obtain rfl := Host.Outcome.next.inj (hs.symm.trans h)
  case inl =>
    cases he : isEngine j with
    | false => simp [SameBytes]
    | true => simp [SameBytes, hm, (isEngine_iff j).1 he]
  case inr.inl => simp [SameBytes, hm, Cause.code]
  case inr.inr.inl =>
    unfold acceptedState
    split <;> simp [SameBytes, hm]
  all_goals simp [SameBytes]

/-! ### What an edge shows

A word that starts, from UROM or from the host, shows a fault at most; an action shows what it does; all else is
bookkeeping. -/

/-- What an edge does to the pins and to the trace. -/
inductive Shown (i : EdgeIn) (s t : State) : Prop where
  /-- nothing -/
  | nothing (pins : t.pins = s.pins) (trace : t.trace = s.trace)
  /-- the end of a wait (41_delay_and_pins.md R150) -/
  | wait (ms : Half) (pins : t.pins = s.pins) (trace : t.trace = s.trace ++ [.wait ms])
  /-- a fault (60_exceptions.md R283) -/
  | fault (code : BitVec 4) (pins : t.pins = s.pins) (trace : t.trace = s.trace ++ [.fault code])
  /-- the byte on offer is taken, and the head is its `Send` (40_phase_sequencer.md R120) -/
  | byte (offered : s.txv = true) (head : startsSend s.pending = true) (pins : t.pins = s.pins)
      (trace : t.trace = s.trace ++ [.byte s.txb (pinLevel s.pins .dc)])
  /-- the `SetPin` at the head changes its pin (40_phase_sequencer.md R120, R121) -/
  | pin (p : Pin) (v : Bool) (rest : List Action) (idle : i.txIdle = true) (head : s.pending = .setPin p v :: rest)
      (pins : t.pins = withPin s.pins p v) (trace : t.trace = s.trace ++ [.pin p v])
  /-- a reset (70_reset_and_hazards.md R320) -/
  | reset (rst : i.rst = true) (trace : t.trace = s.trace ∨ t.trace = s.trace ++ [.reset])

/-- UROM and the parameters stay (20_memory.md R79), and the edge shows no more than `Shown` says. -/
structure EdgeEffect (i : EdgeIn) (s t : State) : Prop where
  urom : t.urom = s.urom
  cfg : t.cfg = s.cfg
  shown : Shown i s t

/-- Two effects in a row, the second of which shows nothing. -/
theorem EdgeEffect.then_hidden (h : EdgeEffect i s t) (urom : u.urom = t.urom) (cfg : u.cfg = t.cfg)
    (pins : u.pins = t.pins) (trace : u.trace = t.trace) : EdgeEffect i s u where
  urom := urom.trans h.urom
  cfg := cfg.trans h.cfg
  shown := by
    cases h.shown with
    | nothing hp ht => exact .nothing (pins.trans hp) (trace.trans ht)
    | wait ms hp ht => exact .wait ms (pins.trans hp) (trace.trans ht)
    | fault c hp ht => exact .fault c (pins.trans hp) (trace.trans ht)
    | byte ho hh hp ht => exact .byte ho hh (pins.trans hp) (trace.trans ht)
    | pin p v rest hi hh hp ht => exact .pin p v rest hi hh (pins.trans hp) (trace.trans ht)
    | reset hr ht => exact .reset hr (trace ▸ ht)

/-- Two effects in a row, the first of which shows nothing and leaves the head action and the byte on offer. -/
theorem EdgeEffect.after_hidden (h : EdgeEffect i u t) (urom : u.urom = s.urom) (cfg : u.cfg = s.cfg)
    (pins : u.pins = s.pins) (trace : u.trace = s.trace) (pending : u.pending = s.pending) (txv : u.txv = s.txv)
    (txb : u.txb = s.txb) : EdgeEffect i s t where
  urom := h.urom.trans urom
  cfg := h.cfg.trans cfg
  shown := by
    have hshown := h.shown
    cases hshown with
    | nothing hp ht => exact .nothing (hp.trans pins) (ht.trans trace)
    | wait ms hp ht => exact .wait ms (hp.trans pins) (trace ▸ ht)
    | fault c hp ht => exact .fault c (hp.trans pins) (trace ▸ ht)
    | byte ho hh hp ht => exact .byte (txv ▸ ho) (pending ▸ hh) (hp.trans pins) (by rw [ht, trace, txb, pins])
    | pin p v rest hi hh hp ht => exact .pin p v rest hi (pending ▸ hh) (pins ▸ hp) (trace ▸ ht)
    | reset hr ht => exact .reset hr (trace ▸ ht)

theorem dispatchHead_then (h : EdgeEffect i s s') (hd : dispatchHead s' = .next t) : EdgeEffect i s t := by
  rcases dispatchHead_next hd with ⟨-, rfl⟩ | ⟨-, b, rfl, -⟩
  · exact h
  · exact h.then_hidden rfl rfl rfl rfl

theorem EdgeEffect.refl (i : EdgeIn) (s : State) : EdgeEffect i s s := ⟨rfl, rfl, .nothing rfl rfl⟩

/-- `SetPin` shows its pin where the level changes. -/
theorem shown_drivePin {p : Pin} {v : Bool} (hp : s.pending = .setPin p v :: rest) (hi : i.txIdle = true) :
    Shown i s (s.drivePin p v) := by
  by_cases hlevel : pinLevel s.pins p = v
  · have hsame : s.drivePin p v = s := if_pos hlevel
    rw [hsame]
    exact .nothing rfl rfl
  · exact .pin p v rest hi hp (drivePin_pins ..) (by rw [drivePin_trace, driveEvents, if_neg hlevel])

theorem Completes.effect (h : Completes i a s s') (hp : s.pending = a :: rest) : EdgeEffect i s s' := by
  cases h with
  | setPin p v _ hi => exact ⟨by simp, by simp, shown_drivePin hp hi⟩
  | send b _ hv => exact ⟨rfl, rfl, .byte hv (by rw [hp]; rfl) rfl rfl⟩
  | sendFb _ hv => exact ⟨rfl, rfl, .byte hv (by rw [hp]; rfl) rfl rfl⟩
  | waiting ms => exact ⟨rfl, rfl, .wait ms rfl rfl⟩
  | drain | fillByte | finish => exact ⟨rfl, rfl, .nothing rfl rfl⟩

theorem perform_effect (hp : s.pending = a :: rest) (h : perform i a rest s = .next t) : EdgeEffect i s t := by
  rcases perform_next h with ⟨s', hc, hd⟩ | rfl | ⟨-, -, hd⟩ | ⟨ms, -, rfl⟩ | ⟨ms, -, -, rfl⟩
  · exact dispatchHead_then ((hc.effect hp).then_hidden (u := s'.withPending rest) rfl rfl rfl rfl) hd
  · exact .refl i _
  · exact dispatchHead_then (.refl i s) hd
  · exact ⟨rfl, rfl, .nothing rfl rfl⟩
  · exact ⟨by simp, by simp, .nothing (by simp) (by simp)⟩

/-- A word that starts shows Fault(4) at most. -/
theorem exec_effect {j : Instr} (i : EdgeIn) (h : exec j s = .next t) : EdgeEffect i s t := by
  obtain ⟨hcfg, hurom, hpins, -, -, -, -, -, -, -, -, -, -, -, htrace, -⟩ := execFrame j s t h
  refine ⟨hurom, hcfg, ?_⟩
  rcases htrace with htrace | ⟨-, -, htrace⟩
  · exact .nothing hpins htrace
  · exact .fault 4 hpins htrace

theorem fetch_effect (i : EdgeIn) (h : fetch s = .next t) : EdgeEffect i s t := by
  rcases fetch_next h with ⟨-, rfl⟩ | ⟨w, -, ⟨op, -, rfl⟩ | ⟨j, -, hj⟩⟩
  · exact ⟨rfl, rfl, .fault _ rfl rfl⟩
  · exact ⟨rfl, rfl, .fault _ rfl rfl⟩
  · exact (exec_effect i hj).after_hidden rfl rfl rfl rfl rfl rfl rfl

theorem takeRequest_effect {w : Microword} (i : EdgeIn) (h : takeRequest w s = .next t) : EdgeEffect i s t := by
  rcases takeRequest_next h with ⟨op, -, rfl⟩ | ⟨j, -, hj⟩
  · unfold rejectMalformed
    split <;> exact ⟨rfl, rfl, .nothing rfl rfl⟩
  · exact exec_effect i hj

theorem seqStep_effect (h : seqStep i s = .next t) : EdgeEffect i s t := by
  unfold seqStep at h
  split at h
  · rcases betweenWords_next h with ⟨-, hf⟩ | ⟨-, rfl⟩ | ⟨-, rfl⟩
    · exact fetch_effect i hf
    · exact ⟨rfl, rfl, .nothing rfl rfl⟩
    · exact .refl i _
  · exact perform_effect ‹_› h

/-- What one clock edge can change outside, in the order of 60_exceptions.md R291. -/
theorem edgeStep_effect (h : edgeStep i s = .next t) : EdgeEffect i s t := by
  suffices hports : EdgeEffect i (atPorts i s) t by
    apply hports.after_hidden <;> simp
  rcases edgeStep_next h with ⟨hr, rfl⟩ | ⟨-, -, -, rfl⟩ | ⟨-, -, -, hq⟩ | ⟨-, -, -, -, hq⟩ | ⟨-, -, -, -, rfl⟩
  · refine ⟨rfl, rfl, .reset hr ?_⟩
    cases s.rstHeld
    · exact .inr rfl
    · exact .inl rfl
  · exact ⟨rfl, rfl, .fault 1 rfl rfl⟩
  · exact seqStep_effect hq
  · exact takeRequest_effect i hq
  · exact .refl i _

/-- Settles O39: no part of an edge writes UROM or a parameter. -/
theorem uromNeverWritten : Obligations.UromNeverWritten := by
  intro s t h
  have heffect := edgeStep_effect h
  exact ⟨heffect.urom, heffect.cfg⟩

/-- 10_state.md R41: while a `Send` is at the head, CS is low. -/
theorem Inv.cs_low (h : Inv s) (hs : startsSend s.pending = true) : pinLevel s.pins .cs = false := by
  have hframed := h.selected
  rcases hp : s.pending with _ | ⟨a, rest⟩
  · rw [hp] at hs
    exact absurd hs (by decide)
  · rw [hp] at hs hframed
    cases a <;> simp_all [startsSend, framed]

/-- Settles O41: the only edge that shows a byte takes the one on offer, and then a `Send` is at the head. -/
theorem bytesOnlyWhileSelected : Obligations.BytesOnlyWhileSelected := by
  intro s t h hs
  cases (edgeStep_effect hs).shown with
  | nothing _ ht => exact ⟨[], by simp [ht]⟩
  | wait ms _ ht => exact ⟨_, ht, by simp⟩
  | fault c _ ht => exact ⟨_, ht, by simp⟩
  | byte ho hh hp ht =>
    refine ⟨_, ht, le_rfl, fun b dc hmem => ?_⟩
    obtain ⟨rfl, rfl⟩ : b = s.txb ∧ dc = pinLevel s.pins .dc := by simpa using hmem
    exact ⟨ho, rfl, rfl, h.cs_low hh, hp⟩
  | pin p v rest _ _ _ ht => exact ⟨_, ht, by simp⟩
  | reset _ ht =>
    rcases ht with ht | ht
    · exact ⟨[], by simp [ht]⟩
    · exact ⟨_, ht, by simp⟩

/-- Settles O42: the only edge but a reset that moves a pin completes the `SetPin` at the head, and `txv = 1`
only while the head is a `Send`. -/
theorem pinsMoveOnlyWhenIdle : Obligations.PinsMoveOnlyWhenIdle := by
  intro s t h hs hmoved hrst
  cases (edgeStep_effect hs).shown with
  | nothing hp | wait _ hp | fault _ hp | byte _ _ hp => exact absurd hp hmoved
  | pin p v rest hi hh hp ht =>
    have hidle : s.txv = false := by rw [h.offering, hh, startsSend]
    exact ⟨hi, hidle, p, v, rest, hh, ht, fun r => by rw [hp, pinLevel_withPin]⟩
  | reset hr => exact absurd (hr.symm.trans hrst) (by decide)

end Sys2Proof.Machine

/-! SUPPORT. The frame projection of phases, and the two tables of 10_state.md: the status output and the reset
values. -/

namespace Sys2Proof.Machine

/-! ### The frame projection, between phases (10_state.md R42) -/

variable (pins : BitVec 4) (l : List Event)

@[simp] theorem projectFrom_driveEvents (p : Pin) (v : Bool) :
    projectFrom none (driveEvents pins p v ++ l) = projectFrom none l := by
  unfold driveEvents
  split
  · rfl
  · simp [projectFrom]

/-- The bytes of an open phase are gathered in their order. -/
theorem projectFrom_bytes (dc : Bool) (sent bytes : List Byte) :
    projectFrom (some (dc, sent)) (bytes.map (fun b => .byte b dc) ++ l) = projectFrom (some (dc, sent ++ bytes)) l := by
  induction bytes generalizing sent with
  | nil => simp
  | cons b bytes ih => simp [projectFrom, ih]

/-- A phase that sends a byte projects to its DC level and its bytes, from any pin levels. -/
theorem projectFrom_phaseEvents (dc : Bool) {bytes : List Byte} (h : bytes ≠ []) :
    projectFrom none (phaseEvents pins dc bytes ++ l) = .phase dc bytes :: projectFrom none l := by
  obtain ⟨b, bytes, rfl⟩ := List.exists_cons_of_ne_nil h
  simp [phaseEvents, projectFrom, projectFrom_bytes]

/-- A register write projects to its command phase and its data phase. -/
theorem projectFrom_wregEvents (index value : Half) :
    projectFrom none (wregEvents pins index value ++ l) =
      .phase false (wireBytes index) :: .phase true (wireBytes value) :: projectFrom none l := by
  have hbytes (v : Half) : wireBytes v ≠ [] := List.cons_ne_nil _ _
  rw [wregEvents, List.append_assoc, projectFrom_phaseEvents _ _ _ (hbytes _), projectFrom_phaseEvents _ _ _ (hbytes _)]

/-- Settles O60: each phase of a SHOW projects to its level and bytes from whatever levels it starts at. -/
theorem projectionOfShow : Obligations.ProjectionOfShow := by
  intro p pins contents h
  have hgram : wireBytes 0x0022 ≠ [] := List.cons_ne_nil _ _
  have hlast (q : BitVec 4) : projectFrom none (phaseEvents q true contents) = [.phase true contents] := by
    simpa [projectFrom] using projectFrom_phaseEvents q [] true h
  simp only [frameProjection, showEvents, List.append_assoc, projectFrom_wregEvents,
    projectFrom_phaseEvents _ _ _ hgram, hlast]
  rfl

/-! ### The status output (10_state.md R36) and the reset values (10_state.md R44) -/

@[simp] theorem outputs_status (i : EdgeIn) (s : State) : (outputs i s).status = status s := rfl

/-- The five fields of `status`, from bit 0 up. -/
theorem status_fields (s : State) :
    (status s).getLsbD 0 = decide (s.mode = .busy) ∧ (status s).getLsbD 1 = s.initDone ∧
    (status s).getLsbD 2 = decide (s.mode = .fault) ∧ (status s).getLsbD 3 = s.reqErr ∧
    (status s).extractLsb' 4 4 = s.errCode := by
  have hbit (k : Nat) : (status s).getLsbD k =
      if k < 1 then (bit1 (decide (s.mode = .busy))).getLsbD k
      else if k - 1 < 1 then (bit1 s.initDone).getLsbD (k - 1)
      else if k - 1 - 1 < 1 then (bit1 (decide (s.mode = .fault))).getLsbD (k - 1 - 1)
      else if k - 1 - 1 - 1 < 1 then (bit1 s.reqErr).getLsbD (k - 1 - 1 - 1)
      else s.errCode.getLsbD (k - 1 - 1 - 1 - 1) := by
    simp only [status, BitVec.getLsbD_append]
  have hcode : (status s).extractLsb' 4 4 = s.errCode := by
    apply BitVec.eq_of_getLsbD_eq
    intro k hk
    simp [hbit, hk]
  refine ⟨?_, ?_, ?_, ?_, hcode⟩ <;> simp only [hbit] <;> simp [bit1]

/-- Settles O13: the fields of `status`, and one state has one mode. -/
theorem statusLayout : Obligations.StatusLayout := by
  intro i s
  obtain ⟨hbusy, hinit, hfault, hreq, hcode⟩ := status_fields s
  refine ⟨hbusy, hinit, hfault, hreq, hcode, ?_⟩
  rw [outputs_status, hbusy, hfault]
  cases s.mode <;> rfl

/-- Settles O52: the reset state is the literal that 10_state.md R44 lists, with nothing written to the frame
buffer and no event before the reset. -/
theorem resetValues : Obligations.ResetValues := by
  refine ⟨rfl, rfl, rfl, rfl, rfl, rfl, rfl, rfl, rfl, rfl, ?_, ?_, ?_, ?_, rfl, rfl, rfl, fun _ => rfl, [], rfl⟩ <;>
    decide

end Sys2Proof.Machine

/-! SUPPORT. A byte the transport still holds is waited for before the block is IDLE (20_memory.md R82). -/

namespace Sys2Proof.Machine

variable {i : EdgeIn} {j : Instr} {a : Action} {rest l m : List Action} {s s' t : State} {w : Microword}

/-! ### Every action list waits for the transport after its last `Send` -/

theorem waitsForIdle_append_right (l : List Action) (hm : waitsForIdle m = true) : waitsForIdle (l ++ m) = true := by
  induction l with
  | nil => exact hm
  | cons a l ih => cases a <;> simp [waitsForIdle, ih]

/-- A list that waits for the transport covers every `Send` before it. -/
theorem drains_append_right (l : List Action) (hm : waitsForIdle m = true) (hd : drains m = true) :
    drains (l ++ m) = true := by
  induction l with
  | nil => exact hd
  | cons a l ih => cases a <;> simp [drains, ih, waitsForIdle_append_right l hm]

theorem drains_of_noSend (h : ∀ a ∈ l, startsSend [a] = false) : drains l = true := by
  induction l with
  | nil => rfl
  | cons a l ih =>
    have hl : drains l = true := ih fun x hx => h x (List.mem_cons_of_mem _ hx)
    have ha : startsSend [a] = false := h a List.mem_cons_self
    cases a <;> simp_all [drains, startsSend]

/-- A phase drains after its bytes (30_encoding.md R98). -/
theorem drains_phaseOf (dc : Bool) (sends : List Action) : drains (phaseOf dc sends) = true :=
  drains_append_right _ rfl rfl

theorem waitsForIdle_phase (dc : Bool) (bytes : List Byte) : waitsForIdle (phase dc bytes) = true := rfl

theorem drains_actionsOf (p : Params) (j : Instr) : drains (actionsOf p j) = true := by
  cases j with
  | wreg index value => exact drains_append_right _ (waitsForIdle_phase ..) (drains_phaseOf ..)
  | wcmd | wdat | stream => exact drains_phaseOf ..
  | pins mask levels =>
    refine drains_of_noSend fun a ha => ?_
    obtain ⟨p, v, rfl⟩ := pinActions_mem mask levels a ha
    rfl
  | fill value =>
    refine drains_of_noSend fun a ha => ?_
    obtain rfl := List.eq_of_mem_replicate ha
    rfl
  | nop | delay | endProg | init | showFb | powerOff | powerOn | contrast | invert | rotate => rfl

/-- Step (a) of INIT, at index 0 of UROM, is a PINS (43_programs.md R211): it waits for the transport. -/
theorem uromWord_zero (p : Params) :
    uromWord p.urom 0 = some (encode (.pins 0x7 (if p.initCsLevel then 0x4 else 0x0))) := rfl

theorem waitsForIdle_initPins (p : Params) (levels : BitVec 4) :
    waitsForIdle (actionsOf p (.pins 0x7 levels)) = true := rfl

/-! ### `Shifted`, one part of the step at a time -/

/-- Where the transport holds nothing, only the pending actions matter. -/
theorem shifted_of_empty (hd : drains s.pending = true) (hh : s.xportHeld = []) : Shifted s := ⟨hd, .inl hh⟩

@[simp] theorem State.atPorts_xportHeld (i : EdgeIn) (s : State) :
    (atPorts i s).xportHeld = if i.txIdle then [] else s.xportHeld := by
  unfold atPorts State.noteIdle
  split <;> simp

theorem shifted_atPorts (h : Shifted s) (i : EdgeIn) : Shifted (atPorts i s) where
  sends := by simpa using h.sends
  held := by
    rw [State.atPorts_xportHeld]
    split
    · exact .inl rfl
    · simpa using h.held

/-- While an action is pending in BUSY, a byte the transport holds is waited for. -/
theorem Shifted.held_pending (h : Shifted s) (hm : s.mode = .busy) (hp : s.pending = a :: rest) :
    s.xportHeld = [] ∨ waitsForIdle (a :: rest) = true := by
  rcases h.held with hh | hh | hh | ⟨-, -, hh⟩
  · exact .inl hh
  · exact .inr (hp ▸ hh)
  · simp [hm] at hh
  · simp [hp] at hh

theorem Shifted.empty_of_idle (h : Shifted s) (hinv : Inv s) (hm : s.mode = .idle) : s.xportHeld = [] := by
  have hpend : s.pending = [] := hinv.resting (by simp [hm])
  have hprog : s.prog = .noProg := by simpa [hm] using hinv.running
  simpa [hpend, waitsForIdle, hm, hprog] using h.held

/-- What is left to do after a completed action still covers every `Send` and every held byte: the actions that
wait for the transport complete only when it holds nothing, and a `Send` has one behind it. -/
theorem Completes.shifted (h : Completes i a s s') (hidle : i.txIdle = true → s.xportHeld = [])
    (hd : drains (a :: rest) = true) (hh : s.xportHeld = [] ∨ waitsForIdle (a :: rest) = true) :
    drains rest = true ∧ (s'.xportHeld = [] ∨ waitsForIdle rest = true) := by
  cases h with
  | setPin p v _ hi => exact ⟨hd, .inl (by simpa using hidle hi)⟩
  | drain _ hi => exact ⟨hd, .inl (hidle hi)⟩
  | send | sendFb =>
    simp only [drains, Bool.and_eq_true] at hd
    exact ⟨hd.2, .inr hd.1⟩
  | waiting | fillByte | finish => exact ⟨hd, hh⟩

/-- Dispatching moves nothing that `Shifted` speaks of. -/
theorem shifted_dispatchHead (h : Shifted s) (hd : dispatchHead s = .next t) : Shifted t := by
  rcases dispatchHead_next hd with ⟨-, rfl⟩ | ⟨-, b, rfl, -⟩
  · exact h
  · exact ⟨h.sends, h.held⟩

theorem shifted_perform (h : Shifted s) (hm : s.mode = .busy) (hp : s.pending = a :: rest)
    (hidle : i.txIdle = true → s.xportHeld = []) (hs : perform i a rest s = .next t) : Shifted t := by
  have hd : drains (a :: rest) = true := hp ▸ h.sends
  have hh := h.held_pending hm hp
  rcases perform_next hs with ⟨s', hc, hdisp⟩ | rfl | ⟨-, -, hdisp⟩ | ⟨ms, rfl, rfl⟩ | ⟨ms, -, -, rfl⟩
  · obtain ⟨hrest, hheld⟩ := hc.shifted hidle hd hh
    exact shifted_dispatchHead ⟨hrest, hheld.imp_right .inl⟩ hdisp
  · exact h
  · exact shifted_dispatchHead h hdisp
  · exact ⟨hd, hh.imp_right .inl⟩
  · exact ⟨by simpa using h.sends, by simpa using h.held⟩

/-- A fetched word's actions drain; where a byte is still held after a fault, the word is step (a) of INIT. -/
theorem shifted_fetch (hinv : Inv s) (h : Shifted s) (hm : s.mode = .busy)
    (hprog : s.prog = .initProg ∨ s.prog = .showProg) (hp : s.pending = []) (hs : fetch s = .next t) : Shifted t := by
  obtain ⟨j, hw, hlegal, -⟩ := fetched_program hinv hprog hp
  have hexec : exec j (s.fetched (encode j)) = .next t := by
    simpa only [fetch, hw, beginFetched, decode_encode] using hs
  obtain rfl := Host.Outcome.next.inj ((exec_busy (s := s.fetched (encode j)) hm hlegal).symm.trans hexec)
  have hheld : s.xportHeld = [] ∨ waitsForIdle (actionsOf s.cfg j) = true := by
    rcases h.held with hh | hh | hh | ⟨-, hupc, -⟩
    · exact .inl hh
    · simp [hp, waitsForIdle] at hh
    · simp [hm] at hh
    · rw [hinv.uromBuilt, hupc, uromWord_zero] at hw
      have hj := congrArg decode (Option.some.inj hw)
      rw [decode_encode, decode_encode] at hj
      obtain rfl := Except.ok.inj hj
      exact .inr (waitsForIdle_initPins ..)
  cases isEngine j <;> exact ⟨drains_actionsOf .., hheld.imp_right .inl⟩

theorem shifted_seqStep (hinv : Inv s) (h : Shifted s) (hm : s.mode = .busy)
    (hidle : i.txIdle = true → s.xportHeld = []) (hs : seqStep i s = .next t) : Shifted t := by
  unfold seqStep at hs
  split at hs
  next hp =>
    rcases betweenWords_next hs with ⟨hprog, hf⟩ | ⟨hprog, rfl⟩ | ⟨-, rfl⟩
    · exact shifted_fetch hinv h hm hprog hp hf
    · exact shifted_of_empty h.sends (by simpa [hp, waitsForIdle, hm, hprog] using h.held)
    · exact h
  next hp => exact shifted_perform h hm hp hidle hs

/-- A request is taken with nothing pending: in IDLE with no byte held; in FAULT INIT begins at index 0, and any
other word leaves the block there. -/
theorem shifted_takeRequest (hinv : Inv s) (h : Shifted s) (hm : s.mode ≠ .busy)
    (hs : takeRequest w s = .next t) : Shifted t := by
  have hpend := hinv.resting hm
  rcases takeRequest_next hs with ⟨op, -, rfl⟩ | ⟨j, -, hj⟩
  · unfold rejectMalformed
    split <;> exact ⟨h.sends, h.held⟩
  · rcases exec_next j s with ⟨h1, -⟩ | ⟨h1, -⟩ | ⟨hidle, -, he⟩ | ⟨-, -, he⟩ | ⟨-, -, he⟩ | ⟨-, -, he⟩
    · exact absurd h1 hm
    · exact absurd h1 hm
    all_goals obtain rfl := Host.Outcome.next.inj (he.symm.trans hj)
    · have hempty := h.empty_of_idle hinv hidle
      unfold acceptedState
      split
      · exact ⟨h.sends, .inl hempty⟩
      · exact ⟨h.sends, .inl hempty⟩
      · exact ⟨drains_actionsOf .., .inl hempty⟩
    · exact ⟨h.sends, h.held⟩
    · exact ⟨h.sends, .inr (.inr (.inr ⟨rfl, rfl, hpend⟩))⟩
    · exact ⟨h.sends, h.held⟩

/-- One clock edge keeps it, in the order of 60_exceptions.md R291. -/
theorem shifted_edgeStep (hinv : Inv s) (h : Shifted s) (hs : edgeStep i s = .next t) : Shifted t := by
  have hinv' := inv_atPorts hinv i
  have h' := shifted_atPorts h i
  rcases edgeStep_next hs with ⟨-, rfl⟩ | ⟨-, -, -, rfl⟩ | ⟨-, -, hm, hq⟩ | ⟨-, -, hm, -, hq⟩ | ⟨-, -, -, -, rfl⟩
  · exact shifted_of_empty rfl rfl
  · exact ⟨rfl, .inr (.inr (.inl rfl))⟩
  · exact shifted_seqStep hinv' h' (by simpa using hm) (fun hi => by simp [hi]) hq
  · exact shifted_takeRequest hinv' h' (by simpa using hm) hq
  · exact h'

/-- Settles O40: every edge keeps `Shifted`, and in IDLE nothing is pending that could wait for a held byte. -/
theorem shiftedOutWhenIdle : Obligations.ShiftedOutWhenIdle := by
  refine ⟨fun s t hinv h hs => shifted_edgeStep hinv h hs, fun s hinv h hm => ?_⟩
  have hpend : s.pending = [] := hinv.resting (by simp [hm])
  exact ⟨hpend, by rw [hinv.offering, hpend, startsSend], h.empty_of_idle hinv hm⟩

end Sys2Proof.Machine

/-! SUPPORT. The host's frame-buffer port (20_memory.md R66 to R69, R77): what an access leaves, said once, and that
its outputs steer nothing. -/

namespace Sys2Proof.Machine

variable {i : EdgeIn} {s t : State} {m : Memory}

/-! ### Bytes and halfwords -/

theorem fbByte_write (m : Memory) (a b : Nat) (v : Byte) :
    fbByte (Memory.write m a v) b = if b = a then v else fbByte m b := by
  split
  next h => rw [h, fbByte_write_same]
  next h => exact fbByte_write_other m a b v h

/-- A halfword lies little-endian (20_memory.md R64). -/
theorem fbByte_writeHalf (m : Memory) (a b : Nat) (v : Half) :
    fbByte (fbWriteHalf m a v) b = if b = a then lowByte v else if b = a + 1 then highByte v else fbByte m b := by
  rw [fbWriteHalf, fbByte_write, fbByte_write]
  split
  next h => rw [if_neg (by omega)]
  next h => rfl

/-- Settles O55: both widths read and write the same bytes. -/
theorem mixedWidthView : Obligations.MixedWidthView := by
  intro m a x y v
  refine ⟨?_, ?_, ?_, fun b h0 h1 => ?_⟩
  · rw [fbHalf, fbByte_write_same, fbByte_write_other _ _ _ _ (by omega), fbByte_write_same, halfOf]
  · rw [fbByte_writeHalf, if_pos rfl, lowByte]
  · rw [fbByte_writeHalf, if_neg (by omega), if_pos rfl, highByte]
  · rw [fbByte_writeHalf, if_neg h0, if_neg h1]

/-! ### One access -/

theorem hostAccessFails_byte (p : Params) (h : i.fbSize = false) :
    hostAccessFails p i = true ↔ p.fbBytes ≤ i.fbAddr := by
  simp [hostAccessFails, h]

theorem hostAccessFails_half (p : Params) (h : i.fbSize = true) :
    hostAccessFails p i = true ↔ i.fbAddr % 2 = 1 ∨ p.fbBytes ≤ i.fbAddr + 1 := by
  simp [hostAccessFails, h]

theorem hostPort_none (h : i.fbEn = false) : s.hostPort i = s := by
  simp [State.hostPort, h]

theorem hostPort_fails (h : i.fbEn = true) (hf : hostAccessFails s.cfg i = true) :
    s.hostPort i = { s with fbErr := true, fbRdata := Config.freeRdata s.edge } := by
  simp [State.hostPort, h, hf]

theorem hostPort_reads (h : i.fbEn = true) (hf : hostAccessFails s.cfg i = false) (hw : i.fbWe = false) :
    s.hostPort i = { s with fbErr := false, fbRdata := hostReadValue s.fb i } := by
  simp [State.hostPort, h, hf, hw]

theorem hostPort_writes (h : i.fbEn = true) (hf : hostAccessFails s.cfg i = false) (hw : i.fbWe = true) :
    s.hostPort i = { s with fbErr := false, fb := hostWritten s.fb i } := by
  simp [State.hostPort, h, hf, hw]

theorem fbByte_hostWritten_byte (h : i.fbSize = false) (a : Nat) :
    fbByte (hostWritten m i) a = if a = i.fbAddr then lowByte i.fbWdata else fbByte m a := by
  simp only [hostWritten, h, Bool.false_eq_true, if_false, fbByte_write]

theorem fbByte_hostWritten_half (h : i.fbSize = true) (a : Nat) :
    fbByte (hostWritten m i) a = if a = i.fbAddr then lowByte i.fbWdata
      else if a = i.fbAddr + 1 then highByte i.fbWdata else fbByte m a := by
  simp only [hostWritten, h, if_true, fbByte_writeHalf]

/-- Settles O53: the four outcomes of an access, for each of its two sizes. -/
theorem hostPortAccesses : Obligations.HostPortAccesses := by
  intro i s
  refine ⟨hostPort_none, fun hen hsize => ?_, fun hen hsize => ?_⟩
  · have hfails := hostAccessFails_byte s.cfg hsize
    have hgood (h : i.fbAddr < s.cfg.fbBytes) : hostAccessFails s.cfg i = false := by
      rw [← Bool.not_eq_true, hfails]
      omega
    refine ⟨fun h => ⟨_, hostPort_fails hen (hfails.2 h)⟩, fun h hwe => ?_, fun h hwe => ?_⟩
    · rw [hostPort_reads hen (hgood h) hwe, hostReadValue, hsize]
      rfl
    · exact ⟨_, s.fbRdata, hostPort_writes hen (hgood h) hwe, fbByte_hostWritten_byte hsize⟩
  · have hfails := hostAccessFails_half s.cfg hsize
    have hgood (heven : i.fbAddr % 2 = 0) (h : i.fbAddr + 1 < s.cfg.fbBytes) :
        hostAccessFails s.cfg i = false := by
      rw [← Bool.not_eq_true, hfails]
      omega
    refine ⟨fun h => ⟨_, hostPort_fails hen (hfails.2 h)⟩, fun heven h hwe => ?_, fun heven h hwe => ?_⟩
    · rw [hostPort_reads hen (hgood heven h) hwe, hostReadValue, hsize]
      rfl
    · exact ⟨_, s.fbRdata, hostPort_writes hen (hgood heven h) hwe, fbByte_hostWritten_half hsize⟩

/-! ### The outputs of the port steer nothing

`fb_err` and `fb_rdata` are written by the port alone and read by no part of the block: a step commutes with giving
them other values. -/

/-- The state with other values of the port's registered outputs. -/
def State.withHostOut (e : Bool) (v : Half) (s : State) : State := { s with fbErr := e, fbRdata := v }

/-- An answer whose next state, if there is one, is updated. -/
def mapNext (f : State → State) : Host.Outcome State Fault Refusal → Host.Outcome State Fault Refusal
  | .next s => .next (f s)
  | .fault r => .fault r
  | .refused r => .refused r

/-- A part of the step reads neither output of the port, and keeps both. -/
def IgnoresHostOut (f : State → Host.Outcome State Fault Refusal) : Prop :=
  ∀ (e : Bool) (v : Half) (s : State), f (s.withHostOut e v) = mapNext (State.withHostOut e v) (f s)

/-- Such a part keeps the outputs: give them the values they have. -/
theorem IgnoresHostOut.keeps {f : State → Host.Outcome State Fault Refusal} (hf : IgnoresHostOut f)
    (h : f s = .next t) : t.fbErr = s.fbErr ∧ t.fbRdata = s.fbRdata := by
  have hself : f s = mapNext (State.withHostOut s.fbErr s.fbRdata) (f s) := hf s.fbErr s.fbRdata s
  rw [h] at hself
  have ht : t = t.withHostOut s.fbErr s.fbRdata := Host.Outcome.next.inj hself
  rw [ht]
  exact ⟨rfl, rfl⟩

/-- An update of the state that leaves room for other values of the outputs. -/
theorem IgnoresHostOut.next {g : State → State} (hg : ∀ e v s, g (s.withHostOut e v) = (g s).withHostOut e v) :
    IgnoresHostOut fun s => .next (g s) := fun e v s => congrArg Host.Outcome.next (hg e v s)

theorem IgnoresHostOut.comp {f : State → Host.Outcome State Fault Refusal} {g : State → State}
    (hf : IgnoresHostOut f) (hg : ∀ e v s, g (s.withHostOut e v) = (g s).withHostOut e v) :
    IgnoresHostOut fun s => f (g s) := fun e v s => by
  simp only [hg, hf e v (g s)]

theorem IgnoresHostOut.ite {c : State → Prop} [DecidablePred c] {f g : State → Host.Outcome State Fault Refusal}
    (hc : ∀ e v s, c (s.withHostOut e v) ↔ c s) (hf : IgnoresHostOut f) (hg : IgnoresHostOut g) :
    IgnoresHostOut fun s => if c s then f s else g s := fun e v s => by
  simp only [hc]
  split
  · exact hf e v s
  · exact hg e v s

theorem drivePin_withHostOut (p : Pin) (x : Bool) (e : Bool) (v : Half) (s : State) :
    (s.withHostOut e v).drivePin p x = (s.drivePin p x).withHostOut e v := by
  unfold State.drivePin
  split <;> simp_all [State.withHostOut]

theorem countDelay_withHostOut (e : Bool) (v : Half) (s : State) :
    (s.withHostOut e v).countDelay = s.countDelay.withHostOut e v := by
  unfold State.countDelay
  split <;> simp_all [State.withHostOut]

theorem ignores_dispatchHead : IgnoresHostOut dispatchHead := by
  intro e v s
  have hpend : (s.withHostOut e v).pending = s.pending := rfl
  unfold dispatchHead
  rw [hpend]
  split
  · rfl
  · show (if s.sc < s.cfg.fbBytes then _ else _) = mapNext _ (if s.sc < s.cfg.fbBytes then _ else _)
    split <;> rfl
  · rfl

theorem ignores_advance (rest : List Action) : IgnoresHostOut (advance rest) :=
  ignores_dispatchHead.comp fun _ _ _ => rfl

theorem ignores_perform (i : EdgeIn) (a : Action) (rest : List Action) : IgnoresHostOut (perform i a rest) := by
  have hadvance {g : State → State} (hg : ∀ e v s, g (s.withHostOut e v) = (g s).withHostOut e v) :
      IgnoresHostOut fun s => advance rest (g s) := (ignores_advance rest).comp hg
  have hhold : IgnoresHostOut Host.Outcome.next := fun _ _ _ => rfl
  cases a with
  | setPin p x => exact .ite (fun _ _ _ => .rfl) (hadvance (drivePin_withHostOut p x)) hhold
  | send b =>
    exact .ite (fun _ _ _ => .rfl) (.ite (fun _ _ _ => .rfl) (hadvance fun _ _ _ => rfl) hhold) ignores_dispatchHead
  | sendFb =>
    exact .ite (fun _ _ _ => .rfl) (.ite (fun _ _ _ => .rfl) (hadvance fun _ _ _ => rfl) hhold) ignores_dispatchHead
  | drain => exact .ite (fun _ _ _ => .rfl) (ignores_advance rest) hhold
  | waitMs ms => exact .next fun _ _ _ => rfl
  | waiting ms => exact .ite (fun _ _ _ => .rfl) (hadvance fun _ _ _ => rfl) (.next countDelay_withHostOut)
  | fillByte x => exact .ite (fun _ _ _ => .rfl) (hadvance fun _ _ _ => rfl) fun _ _ _ => rfl
  | finish => exact hadvance fun _ _ _ => rfl

/-- `exec` answers by `s.mode` alone which of its updates it makes (`exec_next`), and each leaves the outputs. -/
theorem ignores_exec (j : Instr) : IgnoresHostOut (exec j) := by
  intro e v s
  rcases exec_next j s with ⟨hm, hl, hs⟩ | ⟨hm, hl, hs⟩ | ⟨hm, hl, hs⟩ | ⟨hm, hl, hs⟩ | ⟨hm, rfl, hs⟩ | ⟨hm, hj, hs⟩ <;>
    rw [hs]
  · rw [exec_busy (s := s.withHostOut e v) hm hl]
    cases isEngine j <;> rfl
  · exact exec_busy_illegal (s := s.withHostOut e v) hm hl
  · rw [exec_idle (s := s.withHostOut e v) hm hl]
    cases j <;> rfl
  · exact exec_idle_illegal (s := s.withHostOut e v) hm hl
  · exact exec_init_fault (s := s.withHostOut e v) hm
  · exact exec_fault (s := s.withHostOut e v) hm hj

theorem ignores_beginFetched (w : Microword) : IgnoresHostOut (beginFetched w) := by
  intro e v s
  unfold beginFetched
  split
  · exact ignores_exec _ e v s
  · rfl

theorem ignores_fetch : IgnoresHostOut fetch := by
  intro e v s
  have hword : uromWord (s.withHostOut e v).urom (s.withHostOut e v).upc = uromWord s.urom s.upc := rfl
  unfold fetch
  rw [hword]
  split
  · rfl
  · exact ignores_beginFetched _ e v (s.fetched _)

theorem ignores_seqStep (i : EdgeIn) : IgnoresHostOut (seqStep i) := by
  intro e v s
  have hpend : (s.withHostOut e v).pending = s.pending := rfl
  have hprog : (s.withHostOut e v).prog = s.prog := rfl
  unfold seqStep
  rw [hpend]
  split
  · unfold betweenWords
    rw [hprog]
    split
    · exact ignores_fetch e v s
    · exact ignores_fetch e v s
    · rfl
    · rfl
  · exact ignores_perform i _ _ e v s

theorem ignores_takeRequest (w : Microword) : IgnoresHostOut (takeRequest w) := by
  intro e v s
  unfold takeRequest
  split
  · exact ignores_exec _ e v s
  · have hmode : (s.withHostOut e v).mode = s.mode := rfl
    unfold rejectMalformed
    rw [hmode]
    split <;> rfl

theorem ignores_portStep (i : EdgeIn) : IgnoresHostOut (portStep i) :=
  .ite (fun _ _ _ => .rfl) (ignores_takeRequest _) fun _ _ _ => rfl

/-- What an edge does after the work of the ports. -/
def afterPorts (i : EdgeIn) (inReset : Bool) (s : State) : Host.Outcome State Fault Refusal :=
  if i.rst then .next (s.resetEdge inReset)
  else if i.txFault && decide (s.mode ≠ .fault) then .next (s.transportFault i)
  else if s.mode = .busy then seqStep i s
  else portStep i s

theorem edgeStep_eq_afterPorts (i : EdgeIn) (s : State) : edgeStep i s = afterPorts i s.rstHeld (atPorts i s) := by
  unfold edgeStep afterPorts
  rw [State.atPorts_mode]
  cases s.mode <;> rfl

theorem ignores_afterPorts (i : EdgeIn) (inReset : Bool) : IgnoresHostOut (afterPorts i inReset) := by
  refine .ite (fun _ _ _ => .rfl) (.next fun _ _ _ => rfl) (.ite (fun _ _ _ => .rfl) (.next fun _ _ _ => rfl) ?_)
  exact .ite (fun _ _ _ => .rfl) (ignores_seqStep i) (ignores_portStep i)

/-- The outputs of the port after an edge are those its port leaves. -/
theorem edgeStep_hostOut (h : edgeStep i s = .next t) :
    t.fbErr = (atPorts i s).fbErr ∧ t.fbRdata = (atPorts i s).fbRdata := by
  rw [edgeStep_eq_afterPorts] at h
  exact (ignores_afterPorts i _).keeps h

/-- A failing access leaves other outputs of the port, and nothing else of the ports' work (20_memory.md R69). -/
theorem atPorts_fails (hen : i.fbEn = true) (hf : hostAccessFails s.cfg i = true) :
    atPorts i s = (atPorts { i with fbEn := false } s).withHostOut true (Config.freeRdata (s.edge + 1)) := by
  have hnone : atPorts { i with fbEn := false } s = (s.tick i).noteIdle i := hostPort_none rfl
  rw [hnone, atPorts, hostPort_fails hen (by simpa using hf)]
  simp [State.withHostOut]

/-- Without an access the outputs hold. -/
theorem atPorts_none (h : i.fbEn = false) (s : State) : atPorts i s = (atPorts i s).withHostOut s.fbErr s.fbRdata := by
  rw [atPorts, hostPort_none h]
  unfold State.noteIdle
  split <;> rfl

/-- Settles O54: a failing access leaves of the ports' work no more than other outputs, which steer nothing. -/
theorem failedAccessChangesNothing : Obligations.FailedAccessChangesNothing := by
  intro i s t hen hf h
  have hports := atPorts_fails hen hf
  have hquiet : atPorts { i with fbEn := false } s = (atPorts i s).withHostOut s.fbErr s.fbRdata := by
    rw [hports]
    exact atPorts_none rfl s
  refine ⟨by rw [(edgeStep_hostOut h).1, hports]; rfl, ?_⟩
  calc edgeStep { i with fbEn := false } s
      = afterPorts i s.rstHeld ((atPorts i s).withHostOut s.fbErr s.fbRdata) := by
        rw [edgeStep_eq_afterPorts, hquiet]; rfl
    _ = mapNext (State.withHostOut s.fbErr s.fbRdata) (edgeStep i s) := by
        rw [ignores_afterPorts, ← edgeStep_eq_afterPorts]
    _ = .next { t with fbErr := s.fbErr, fbRdata := s.fbRdata } := by rw [h]; rfl

end Sys2Proof.Machine

/-! SUPPORT. Who writes the frame buffer at an edge, in which order (20_memory.md R65, R73), and what a drawn pixel
becomes on the wire. -/

namespace Sys2Proof.Machine

variable {i : EdgeIn} {j : Instr} {a : Action} {rest : List Action} {s s' t : State} {w : Microword}

/-! ### The host's part of an edge -/

/-- The edge's other bookkeeping does not touch the frame buffer. -/
theorem atPorts_fb_eq_hostPort (i : EdgeIn) (s : State) : (atPorts i s).fb = (s.hostPort i).fb := by
  unfold atPorts State.hostPort
  simp only [State.noteIdle_cfg, State.tick_cfg]
  split
  · split
    · simp
    · split <;> simp
  · simp

/-- The port changes a byte only by writing it. -/
theorem hostWrites_of_hostPort {b : Nat} (h : fbByte (s.hostPort i).fb b ≠ fbByte s.fb b) : hostWrites s.cfg i b := by
  rcases hen : i.fbEn with _ | _
  · exact absurd (by rw [hostPort_none hen]) h
  · rcases hf : hostAccessFails s.cfg i with _ | _
    · rcases hw : i.fbWe with _ | _
      · exact absurd (by rw [hostPort_reads hen hf hw]) h
      · refine ⟨hen, hw, hf, ?_⟩
        rw [hostPort_writes hen hf hw] at h
        by_contra hother
        rw [not_or] at hother
        rcases hsize : i.fbSize with _ | _
        · exact h (by rw [fbByte_hostWritten_byte hsize, if_neg hother.1])
        · exact h (by rw [fbByte_hostWritten_half hsize, if_neg hother.1, if_neg fun e => hother.2 ⟨hsize, e⟩])
    · exact absurd (by rw [hostPort_fails hen hf]) h

/-! ### The sequencer's part of an edge -/

/-- What the sequencer does to the frame buffer: with a byte of FILL at the head it writes it at `sc`
(42_framebuffer_ops.md R170), else nothing. -/
inductive FillEffect (s t : State) : Prop where
  | fill (v : Half) (rest : List Action) (head : s.pending = .fillByte v :: rest)
      (fb : t.fb = Memory.write s.fb s.sc (fillByteAt v s.sc))
  | none (head : ∀ v rest, s.pending ≠ .fillByte v :: rest) (fb : t.fb = s.fb)

theorem dispatchHead_fb (h : dispatchHead s = .next t) : t.fb = s.fb := by
  rcases dispatchHead_next h with ⟨-, rfl⟩ | ⟨-, b, rfl, -⟩ <;> rfl

theorem exec_fb (h : exec j s = .next t) : t.fb = s.fb := by
  obtain ⟨-, -, -, hfb, -⟩ := execFrame j s t h
  exact hfb

theorem takeRequest_fb (h : takeRequest w s = .next t) : t.fb = s.fb := by
  rcases takeRequest_next h with ⟨op, -, rfl⟩ | ⟨j, -, hj⟩
  · unfold rejectMalformed
    split <;> rfl
  · exact exec_fb hj

theorem betweenWords_fb (h : betweenWords s = .next t) : t.fb = s.fb := by
  rcases betweenWords_next h with ⟨-, hf⟩ | ⟨-, rfl⟩ | ⟨-, rfl⟩
  · rcases fetch_next hf with ⟨-, rfl⟩ | ⟨w, -, ⟨op, -, rfl⟩ | ⟨j, -, hj⟩⟩
    · rfl
    · rfl
    · exact exec_fb (s := s.fetched w) hj
  · rfl
  · rfl

theorem perform_fillByte_fb {v : Half} (h : perform i (.fillByte v) rest s = .next t) :
    t.fb = Memory.write s.fb s.sc (fillByteAt v s.sc) := by
  simp only [perform, performFillByte] at h
  split at h
  · exact dispatchHead_fb (s := (s.fillStore v).countByte.withPending rest) h
  · cases h

theorem Completes.fb (h : Completes i a s s') (ha : ∀ v, a ≠ .fillByte v) : s'.fb = s.fb := by
  cases h with
  | setPin => simp
  | send | sendFb | drain | waiting | finish => rfl
  | fillByte v => exact absurd rfl (ha v)

theorem perform_other_fb (ha : ∀ v, a ≠ .fillByte v) (h : perform i a rest s = .next t) : t.fb = s.fb := by
  rcases perform_next h with ⟨s', hc, hd⟩ | rfl | ⟨-, -, hd⟩ | ⟨ms, rfl, rfl⟩ | ⟨ms, rfl, -, rfl⟩
  · exact (dispatchHead_fb (s := s'.withPending rest) hd).trans (hc.fb ha)
  · rfl
  · exact dispatchHead_fb hd
  · rfl
  · simp

theorem seqStep_fillEffect (h : seqStep i s = .next t) : FillEffect s t := by
  unfold seqStep at h
  split at h
  next hp => exact .none (by simp [hp]) (betweenWords_fb h)
  next a rest hp =>
    by_cases ha : ∃ v, a = .fillByte v
    · obtain ⟨v, rfl⟩ := ha
      exact .fill v rest hp (perform_fillByte_fb h)
    · rw [not_exists] at ha
      exact .none (by simp [hp, ha]) (perform_other_fb ha h)

theorem edgeStep_busy (hm : s.mode = .busy) (hu : undisturbed i = true) : edgeStep i s = seqStep i (atPorts i s) := by
  obtain ⟨hr, hf⟩ := undisturbed_parts hu
  simp [edgeStep, hr, hf, hm]

/-- What an undisturbed edge in BUSY leaves in the frame buffer: the byte of FILL, over what the host left. -/
theorem edgeStep_fillEffect (hm : s.mode = .busy) (hu : undisturbed i = true) (h : edgeStep i s = .next t) :
    FillEffect (atPorts i s) t :=
  seqStep_fillEffect (edgeStep_busy hm hu ▸ h)

/-- Every other edge leaves what the host left. -/
theorem edgeStep_other_fb (hn : ¬ (s.mode = .busy ∧ undisturbed i = true)) (h : edgeStep i s = .next t) :
    t.fb = (atPorts i s).fb := by
  rcases edgeStep_next h with ⟨-, rfl⟩ | ⟨-, -, -, rfl⟩ | ⟨hr, hf, hm, -⟩ | ⟨-, -, -, -, hq⟩ | ⟨-, -, -, -, rfl⟩
  · rfl
  · rfl
  · exact absurd ⟨hm, by simp [undisturbed, hr, hf]⟩ hn
  · exact takeRequest_fb hq
  · rfl

/-- Settles O45: a byte that is as the port left it was the host's; any other is the byte of FILL. -/
theorem frameBufferWriters : Obligations.FrameBufferWriters := by
  intro s t b hs hchanged
  have hhost (hfb : fbByte t.fb b = fbByte (atPorts s.nextInput s).fb b) : hostWrites s.cfg s.nextInput b := by
    rw [hfb, atPorts_fb_eq_hostPort] at hchanged
    exact hostWrites_of_hostPort hchanged
  by_cases hn : s.mode = .busy ∧ undisturbed s.nextInput = true
  · obtain ⟨hm, hu⟩ := hn
    cases edgeStep_fillEffect hm hu hs with
    | none _ hfb => exact .inl (hhost (by rw [hfb]))
    | fill v rest hp hfb =>
      rw [State.atPorts_pending] at hp
      rw [State.atPorts_sc] at hfb
      by_cases hb : b = s.sc
      · exact .inr ⟨hm, hb, hu, v, rest, hp⟩
      · exact .inl (hhost (by rw [hfb, fbByte_write_other _ _ _ _ hb]))
  · exact .inl (hhost (by rw [edgeStep_other_fb hn hs]))

/-! ### A Send of STREAM that starts -/

theorem dispatchHead_sendFb (h : dispatchHead s = .next t) (hp : t.pending = .sendFb :: rest) :
    t.txb = fbByte t.fb t.sc := by
  rcases dispatchHead_next h with ⟨hnone, rfl⟩ | ⟨-, b, rfl, -, hb⟩
  · simp [hp, startsSend] at hnone
  · exact (hb rest hp).2

/-- A fetched word starts no `Send` at once: no action list has one at its head (`acts_ok`). -/
theorem betweenWords_noSend (h : betweenWords s = .next t) (hm : s.mode = .busy) (hp : s.pending = []) :
    startsSend t.pending = false := by
  have hidle : startsSend s.pending = false := by rw [hp]; rfl
  rcases betweenWords_next h with ⟨-, hf⟩ | ⟨-, rfl⟩ | ⟨-, rfl⟩
  · rcases fetch_next hf with ⟨-, rfl⟩ | ⟨w, -, ⟨op, -, rfl⟩ | ⟨j, -, hj⟩⟩
    · rfl
    · rfl
    · rcases hl : j.opcode.legalRom with _ | _
      · rw [exec_busy_illegal (s := s.fetched w) hm hl] at hj
        cases hj
        rfl
      · rw [exec_busy (s := s.fetched w) hm hl] at hj
        cases hj
        exact (acts_ok s.cfg j).head
  · exact hidle
  · exact hidle

/-- A Send of STREAM that comes to the head carries the byte of the frame buffer at `sc` (42_framebuffer_ops.md
R173), as this edge leaves it. -/
theorem seqStep_sendFb (h : seqStep i s = .next t) (hm : s.mode = .busy) (hp : t.pending = .sendFb :: rest)
    (hnew : s.pending ≠ t.pending) : t.txb = fbByte t.fb t.sc := by
  unfold seqStep at h
  split at h
  next hpend =>
    have hnone := betweenWords_noSend h hm hpend
    simp [hp, startsSend] at hnone
  next a l hpend =>
    rcases perform_next h with ⟨s', -, hd⟩ | rfl | ⟨-, -, hd⟩ | ⟨ms, rfl, rfl⟩ | ⟨ms, rfl, -, rfl⟩
    · exact dispatchHead_sendFb hd hp
    · exact absurd rfl hnew
    · exact dispatchHead_sendFb hd hp
    · cases hp
    · simp at hnew

/-- Settles O46: the port reads before it writes, and the sequencer works over what the port leaves. -/
theorem edgeOrderOfFrameBuffer : Obligations.EdgeOrderOfFrameBuffer := by
  refine ⟨fun s t hs hen hwe hf => ?_, fun s t rest hs hm hu hp hnew => ?_, fun s t v rest hs hm hu hp => ?_⟩
  · rw [(edgeStep_hostOut hs).2, atPorts, hostPort_reads hen (by simpa using hf) hwe]
    simp
  · rw [step, edgeStep_busy hm hu] at hs
    exact seqStep_sendFb hs (by simpa using hm) hp (by simpa using hnew)
  · cases edgeStep_fillEffect hm hu hs with
    | none hhead => exact absurd hp (by simpa using hhead v rest)
    | fill v' rest' hp' hfb =>
      obtain rfl : v' = v := by simp_all
      rw [State.atPorts_sc, atPorts_fb_eq_hostPort] at hfb
      rw [hfb]
      exact ⟨fbByte_write_same .., fun b hb => fbByte_write_other _ _ _ _ hb⟩

/-! ### A drawn pixel -/

@[simp] theorem sentBytes_append (l m : List Event) : sentBytes (l ++ m) = sentBytes l ++ sentBytes m := by
  induction l with
  | nil => rfl
  | cons e l ih => cases e <;> simp [sentBytes, ih]

@[simp] theorem sentBytes_driveEvents (pins : BitVec 4) (p : Pin) (v : Bool) : sentBytes (driveEvents pins p v) = [] := by
  unfold driveEvents
  split <;> rfl

@[simp] theorem sentBytes_bytes (dc : Bool) (bytes : List Byte) :
    sentBytes (bytes.map fun b => .byte b dc) = bytes := by
  induction bytes with
  | nil => rfl
  | cons b bytes ih => simp [sentBytes, ih]

/-- A phase sends its bytes, whatever the pins. -/
@[simp] theorem sentBytes_phaseEvents (pins : BitVec 4) (dc : Bool) (bytes : List Byte) :
    sentBytes (phaseEvents pins dc bytes) = bytes := by
  simp [phaseEvents, sentBytes]

/-- The bytes of the frame buffer in address order (42_framebuffer_ops.md R174). -/
theorem fbBytesFrom_eq_map (m : Memory) (b n : Nat) : fbBytesFrom m b n = (List.range' b n).map (fbByte m) := by
  induction n generalizing b with
  | zero => rfl
  | succ n ih => rw [fbBytesFrom, ih, List.range'_succ, List.map_cons]

theorem fbContents_length (s : State) : (fbContents s).length = s.cfg.fbBytes := by
  simp [fbContents, fbBytesFrom_eq_map]

/-- STREAM sends the byte at an address at that place. -/
theorem fbContents_getElem? {b : Nat} (h : b < s.cfg.fbBytes) : (fbContents s)[b]? = some (fbByte s.fb b) := by
  simp [fbContents, fbBytesFrom_eq_map, h]

/-- At an undisturbed edge in IDLE without a request only the ports work. -/
theorem edgeStep_portsOnly (hm : s.mode = .idle) (hu : undisturbed i = true) (hq : i.reqValid = false) :
    edgeStep i s = .next (atPorts i s) := by
  obtain ⟨hr, hf⟩ := undisturbed_parts hu
  simp [edgeStep, portStep, hr, hf, hm, hq]

theorem atPorts_sameSequencer (i : EdgeIn) (s : State) : SameSequencer s (atPorts i s) := by
  constructor <;> simp

/-- Both bytes of a pixel of the panel lie inside the frame buffer (20_memory.md R60, R61). -/
theorem pixelAddress_inside {p : Params} {x y : Nat} (hx : x < p.width) (hy : y < p.height) :
    pixelAddress p x y + 1 < p.fbBytes := by
  have hrows : (y + 1) * p.width ≤ p.height * p.width := Nat.mul_le_mul_right _ hy
  rw [Nat.succ_mul] at hrows
  rw [pixelAddress, pixelEntry, Params.fbBytes, Nat.mul_assoc, Nat.mul_comm p.width]
  omega

/-- A halfword write at an even address inside succeeds. -/
theorem atPorts_halfWrite {b : Nat} {v : Half} (heven : b % 2 = 0) (hin : b + 1 < s.cfg.fbBytes) :
    (atPorts (halfWriteEdge b v) s).fbErr = false ∧ (atPorts (halfWriteEdge b v) s).fb = fbWriteHalf s.fb b v := by
  have hgood : hostAccessFails s.cfg (halfWriteEdge b v) = false := by
    rw [← Bool.not_eq_true, hostAccessFails_half _ rfl]
    show ¬ (b % 2 = 1 ∨ s.cfg.fbBytes ≤ b + 1)
    omega
  rw [atPorts, hostPort_writes rfl (by simpa using hgood) rfl]
  exact ⟨rfl, by simp [hostWritten, halfWriteEdge]⟩

/-- The encoder swaps the bytes, so that the high byte of the RGB565 value is the entry's low byte
(44_color_encoder.md R240). -/
theorem lowByte_colorFromRgb (r g b : Byte) : lowByte (colorFromRgb r g b) = highByte (packRgb r g b) :=
  lowByte_halfOf ..

theorem highByte_colorFromRgb (r g b : Byte) : highByte (colorFromRgb r g b) = lowByte (packRgb r g b) :=
  highByte_halfOf ..

/-- Settles O56: the entry is written little-endian with its bytes swapped, and STREAM sends the bytes in address
order. -/
theorem pixelReachesTheWire : Obligations.PixelReachesTheWire := by
  intro s x y r g b rest hm hx hy hin k high low
  have hinside : 2 * k + 1 < s.cfg.fbBytes := pixelAddress_inside hx hy
  obtain ⟨herr, hfb⟩ := atPorts_halfWrite (s := s) (v := colorFromRgb r g b) (Nat.mul_mod_right 2 k) hinside
  have hbyte (a : Nat) : fbByte (atPorts (halfWriteEdge (2 * k) (colorFromRgb r g b)) s).fb a =
      if a = 2 * k then high else if a = 2 * k + 1 then low else fbByte s.fb a := by
    rw [hfb, fbByte_writeHalf, lowByte_colorFromRgb, highByte_colorFromRgb]
    rfl
  have hhigh := (hbyte (2 * k)).trans (if_pos rfl)
  have hlow := (hbyte (2 * k + 1)).trans ((if_neg (by omega)).trans (if_pos rfl))
  refine ⟨_, ?_, herr, atPorts_sameSequencer .., hhigh, hlow, fun a h0 h1 => ?_, fun pins => ?_⟩
  · rw [step, nextInput_cons hin]
    exact edgeStep_portsOnly hm rfl rfl
  · rw [hbyte, if_neg h0, if_neg h1]
  · intro sent
    have hsent : sent = fbContents _ := sentBytes_phaseEvents ..
    rw [hsent, fbContents_length, fbContents_getElem? (by simp; omega), hhigh,
      fbContents_getElem? (by simpa using hinside), hlow]
    exact ⟨by simp, rfl, rfl⟩

end Sys2Proof.Machine

/-! SUPPORT. The encoding (30_encoding.md R90 to R97): the decoder's two answers field by field, so that decoding and
encoding undo each other. -/

namespace Sys2Proof

variable {o : Opcode} {a b : Half} {w : Microword} {i : Instr}

/-! ### The must-be-0 bits of one field (30_encoding.md R92) -/

@[simp] theorem and_maskAll_eq_zero (a : Half) : a &&& 0xFFFF#16 = 0#16 ↔ a = 0#16 := by
  rw [show 0xFFFF#16 = BitVec.allOnes 16 from rfl, BitVec.and_allOnes]

/-- A field whose upper twelve bits are 0 is its low nibble. -/
theorem setWidth_nibble_of_clear (h : a &&& 0xFFF0 = 0) : (a.extractLsb' 0 4).setWidth 16 = a := by
  apply BitVec.eq_of_getLsbD_eq
  intro k hk
  have hmask : ∀ j < 16, (0xFFF0 : Half).getLsbD j = decide (4 ≤ j) := by decide
  have hbit : (a.getLsbD k && decide (4 ≤ k)) = false := by
    rw [← hmask k hk, ← BitVec.getLsbD_and, h]
    exact BitVec.getLsbD_zero
  rcases Nat.lt_or_ge k 4 with hlow | hhigh
  · simp [hlow, hk]
  · have hzero : a.getLsbD k = false := by simpa [hhigh] using hbit
    simp [hzero, Nat.not_lt.2 hhigh]

@[simp] theorem and_maskHigh_eq_zero (a : Half) : a &&& 0xFFF0#16 = 0#16 ↔ a.toNat < 16 := by
  constructor
  · intro h
    rw [← setWidth_nibble_of_clear h, BitVec.toNat_setWidth]
    exact lt_of_le_of_lt (Nat.mod_le _ _) (BitVec.isLt _)
  · intro h
    have hnibble : a = (BitVec.ofNat 4 a.toNat).setWidth 16 := by
      apply BitVec.eq_of_toNat_eq
      simp
      omega
    rw [hnibble]
    exact Laws.InOwnRow.nibble_clear _

/-! ### The decoder's two answers -/

@[simp] theorem opcode_buildInstr (o : Opcode) (a b : Half) : (buildInstr o a b).opcode = o := by cases o <;> rfl

/-- A row of the opcode table whose must-be-0 bits are clear has no bit outside its operands (30_encoding.md R92). -/
theorem operandFields_buildInstr (ha : a &&& maskA o = 0) (hb : b &&& maskB o = 0) :
    (buildInstr o a b).operandFields = (a, b) := by
  cases o with
  | pins => exact Prod.ext (setWidth_nibble_of_clear ha) (setWidth_nibble_of_clear hb)
  | _ => simp_all [maskA, maskB, buildInstr, Instr.operandFields]

theorem decode_of_clear (h : reservedClear w = true) :
    decode w = .ok (buildInstr (opcodeOf w) (fieldA w) (fieldB w)) := if_pos h

theorem decode_of_reserved (h : ¬ reservedClear w = true) : decode w = .error (.reservedBits (opcodeOf w)) := if_neg h

theorem encode_of_decode (h : decode w = .ok i) : encode i = w := by
  by_cases hclear : reservedClear w = true
  · obtain ⟨ha, hb⟩ := (reservedClear_iff w).1 hclear
    obtain rfl := Except.ok.inj ((decode_of_clear hclear).symm.trans h)
    rw [encode, opcode_buildInstr, operandFields_buildInstr ha hb, ← eq_packWord]
  · exact nomatch (decode_of_reserved hclear).symm.trans h

/-- 30_encoding.md R97: decoding and encoding undo each other. -/
theorem decode_eq_ok_iff : decode w = .ok i ↔ encode i = w :=
  ⟨encode_of_decode, fun h => h ▸ decode_encode i⟩

/-! ### The statements on the encoding -/

/-- Settles O1: an encoded word carries its instruction's operation and has its must-be-0 bits clear. -/
theorem decodeEncodeAgree : Obligations.DecodeEncodeAgree := by
  intro i
  refine ⟨decode_encode i, fun c => ?_⟩
  rw [wordWellFormed, reservedClear_encode, opcodeOf_encode, Bool.and_true, Instr.wellFormed]

/-- Settles O2: the fields of a word whose must-be-0 bits are clear are the operand fields of its instruction. -/
theorem encodeDecodeAgree : Obligations.EncodeDecodeAgree := fun _ _ => encode_of_decode

/-- Settles O3: the stated condition on the fields is, operation by operation, the decoder's test against the mask. -/
theorem mustBeZeroFields : Obligations.MustBeZeroFields := by
  intro o a b clear
  have hclear : clear ↔ reservedClear (packWord o.code a b) = true := by
    rw [reservedClear_packWord]
    cases o <;> simp [clear, maskA, maskB]
  rw [hclear]
  constructor
  · intro h
    exact ⟨_, decode_of_clear h, by simp⟩
  · intro h
    rw [decode_of_reserved h, opcodeOf_packWord]

/-- Settles O4: the sixteen words are the encodings of their instructions; the other two have a must-be-0 bit set. -/
theorem sampleWordsDecode : Obligations.SampleWordsDecode := by
  simp only [Obligations.SampleWordsDecode, decode_eq_ok_iff]
  decide

end Sys2Proof

/-! SUPPORT. What the assembler's pseudo-instructions expand into (30_encoding.md R101), what each operation begins from
UROM (R98, R99), and where it is turned away (R91). -/

namespace Sys2Proof.Machine

/-! ### Pseudo-instructions -/

theorem asHalf_of_lt {n : Nat} (h : n < 65536) : asHalf n = some (BitVec.ofNat 16 n) := if_pos h

/-- SETPIN with a level is one PINS whose mask is the pin's bit (30_encoding.md R101). -/
theorem assembleWords_setPin (p : Pin) (v : Bool) :
    assembleWords .setPin [.pin p, .num (if v then 1 else 0)] = some (setPinInstr p v) := by cases v <;> rfl

/-- Settles O5: SETPIN at the bit of its pin; operands of 16 bits fit; the other expansions are written so. -/
theorem pseudoInstructions : Obligations.PseudoInstructions := by
  refine ⟨fun p v => ⟨pinBit p, by cases p <;> simp [pinBit], assembleWords_setPin p v⟩, rfl, rfl, rfl, by decide,
    fun _ => rfl, fun _ => rfl, fun m n hm hn => ?_⟩
  simp [assembleWords, writeRegOperands, optionalHalf, writeRegInstr, asHalf_of_lt hm, asHalf_of_lt hn]

/-! ### What begins from UROM -/

/-- The actions of PINS, pin by pin (41_delay_and_pins.md R155). -/
theorem pinActions_eq (m l : BitVec 4) :
    pinActions m l =
      (if m.getLsbD 0 then [.setPin .rst (l.getLsbD 0)] else []) ++
      (if m.getLsbD 1 then [.setPin .dc (l.getLsbD 1)] else []) ++
      (if m.getLsbD 2 then [.setPin .cs (l.getLsbD 2)] else []) ++
      (if m.getLsbD 3 then [.setPin .bl (l.getLsbD 3)] else []) := by
  have hpin : ∀ (p : Pin) (ps : List Pin), (p :: ps).filterMap (pinAction m l) =
      (if m.getLsbD (pinBit p) then [.setPin p (l.getLsbD (pinBit p))] else []) ++ ps.filterMap (pinAction m l) := by
    intro p ps
    cases h : m.getLsbD (pinBit p) <;> simp [pinAction, h]
  simp only [pinActions, pinOrder, hpin, List.filterMap_nil, List.append_nil, List.append_assoc]
  rfl

/-- Settles O14: `exec_busy`, the action lists of the four operations written out. -/
theorem romPhaseWordsBegin : Obligations.RomPhaseWordsBegin :=
  fun _ _ _ hm => ⟨exec_busy hm rfl, exec_busy hm rfl, exec_busy hm rfl, exec_busy hm rfl⟩

/-- Settles O15: `exec_busy`, the actions of PINS pin by pin. -/
theorem romControlWordsBegin : Obligations.RomControlWordsBegin := by
  intro s ms m l hm
  refine ⟨exec_busy hm rfl, ?_, exec_busy hm rfl⟩
  rw [← pinActions_eq]
  exact exec_busy hm rfl

/-- Settles O16: `exec_busy`, an engine having one action for each byte of the frame buffer. -/
theorem romEnginesBegin : Obligations.RomEnginesBegin :=
  fun _ _ hm => ⟨exec_busy hm rfl, exec_busy hm rfl⟩

/-! ### Where an operation is turned away -/

/-- The operations that the host may not ask for (30_encoding.md R91). -/
theorem legalHost_eq_false_iff (i : Instr) :
    i.opcode.legalHost = false ↔
      (∃ ms, i = .delay ms) ∨ (∃ m l, i = .pins m l) ∨ (∃ v, i = .fill v) ∨ i = .stream ∨ i = .endProg := by
  cases i <;> simp [Instr.opcode, Opcode.legalHost]

/-- Settles O20: `exec` mode by mode, the three ways it turns a form away written out. -/
theorem turnedAwayForms : Obligations.TurnedAwayForms :=
  fun i _ => ⟨exec_idle_illegal, exec_fault, exec_busy_illegal, legalHost_eq_false_iff i⟩

end Sys2Proof.Machine

/-! SUPPORT. The phase sequencer's words from UROM (40_phase_sequencer.md R122 to R125): the events and the pins of a
phase, and the whole run of a word whose actions are phase actions. -/

namespace Sys2Proof.Machine

variable {s t : State} {w : Microword} {j : Instr} {sends : List Action}

/-! ### Lists of phase actions -/

theorem pinsAfter_append (pins : BitVec 4) (l m : List Action) :
    pinsAfter pins (l ++ m) = pinsAfter (pinsAfter pins l) m := by
  induction l generalizing pins with
  | nil => rfl
  | cons a l ih => rw [List.cons_append, pinsAfter_cons, ih, ← pinsAfter_cons]

theorem sendCount_cons (a : Action) (l : List Action) : sendCount (a :: l) = sendCount [a] + sendCount l := by
  cases a <;> simp [sendCount, Nat.add_comm]

theorem sendCount_append (l m : List Action) : sendCount (l ++ m) = sendCount l + sendCount m := by
  induction l with
  | nil => simp [sendCount]
  | cons a l ih => rw [List.cons_append, sendCount_cons, ih, sendCount_cons a l, Nat.add_assoc]

theorem actEvents_append (fb : Memory) (sc : Nat) (pins : BitVec 4) (l m : List Action) :
    actEvents fb sc pins (l ++ m) =
      actEvents fb sc pins l ++ actEvents fb (sc + sendCount l) (pinsAfter pins l) m := by
  induction l generalizing sc pins with
  | nil => rfl
  | cons a l ih =>
    rw [List.cons_append, actEvents_cons, ih, actEvents_cons fb sc pins a l, sendCount_cons a l,
      pinsAfter_cons pins a l, Nat.add_assoc, List.append_assoc]

/-! ### A phase -/

theorem withPin_withPin (pins : BitVec 4) (p : Pin) (v v' : Bool) :
    withPin (withPin pins p v) p v' = withPin pins p v' := by
  cases p <;> cases v <;> cases v' <;> revert pins <;> decide

/-- A phase whose sends move no pin leaves DC at its level and CS high (40_phase_sequencer.md R128). -/
theorem pinsAfter_phaseOf (hsends : ∀ pins, pinsAfter pins sends = pins) (pins : BitVec 4) (dc : Bool) :
    pinsAfter pins (phaseOf dc sends) = phasePins pins dc := by
  simp [phaseOf, pinsAfter, pinsAfter_append, hsends, withPin_withPin, phasePins]

/-- The events of a phase: its two pins where they change, its sends at its level of DC, and the rise of CS
(40_phase_sequencer.md R127, R128). -/
theorem actEvents_phaseOf (hsends : ∀ pins, pinsAfter pins sends = pins) (fb : Memory) (sc : Nat) (pins : BitVec 4)
    (dc : Bool) :
    actEvents fb sc pins (phaseOf dc sends) = driveEvents pins .dc dc ++ driveEvents pins .cs false ++
      actEvents fb sc (withPin (withPin pins .dc dc) .cs false) sends ++ [.pin .cs true] := by
  simp [phaseOf, actEvents, actEvents_append, hsends, driveEvents, pinLevel_withPin]

theorem pinsAfter_sends (pins : BitVec 4) (bytes : List Byte) : pinsAfter pins (bytes.map .send) = pins := by
  induction bytes with
  | nil => rfl
  | cons b bytes ih => exact ih

theorem sendCount_sends (bytes : List Byte) : sendCount (bytes.map .send) = 0 := by
  induction bytes with
  | nil => rfl
  | cons b bytes ih => exact ih

theorem actEvents_sends (fb : Memory) (sc : Nat) (pins : BitVec 4) (bytes : List Byte) :
    actEvents fb sc pins (bytes.map .send) = bytes.map fun b => .byte b (pinLevel pins .dc) := by
  induction bytes with
  | nil => rfl
  | cons b bytes ih => exact congrArg (List.cons _) ih

@[simp] theorem pinsAfter_phase (pins : BitVec 4) (dc : Bool) (bytes : List Byte) :
    pinsAfter pins (phase dc bytes) = phasePins pins dc := pinsAfter_phaseOf (pinsAfter_sends · bytes) pins dc

@[simp] theorem sendCount_phase (dc : Bool) (bytes : List Byte) : sendCount (phase dc bytes) = 0 := by
  simp [phase, phaseOf, sendCount, sendCount_append, sendCount_sends]

@[simp] theorem actEvents_phase (fb : Memory) (sc : Nat) (pins : BitVec 4) (dc : Bool) (bytes : List Byte) :
    actEvents fb sc pins (phase dc bytes) = phaseEvents pins dc bytes := by
  rw [phase, actEvents_phaseOf (pinsAfter_sends · bytes), actEvents_sends]
  simp [pinLevel_withPin, phaseEvents]

theorem phaseAction_of_mem_phase {a : Action} {dc : Bool} {bytes : List Byte} (h : a ∈ phase dc bytes) :
    phaseAction a = true := by
  simp only [phase, phaseOf, List.mem_append, List.mem_cons, List.mem_map, List.not_mem_nil, or_false] at h
  rcases h with ((rfl | rfl) | ⟨b, -, rfl⟩) | (rfl | rfl) <;> rfl

theorem pinLevel_phasePins (pins : BitVec 4) (dc : Bool) (q : Pin) :
    pinLevel (phasePins pins dc) q = if q = .cs then true else if q = .dc then dc else pinLevel pins q := by
  simp only [phasePins, pinLevel_withPin]

/-! ### The run of a word -/

/-- Where no `Send` is at the head, none is on offer. -/
theorem Dispatched.of_noSend (hv : s.txv = false) (hs : startsSend s.pending = false) : Dispatched s where
  txv := hv.trans hs.symm
  send b r h := by simp [h, startsSend] at hs
  sendFb r h := by simp [h, startsSend] at hs

/-- What a word from UROM leaves whose actions are pins, drains and sends of given bytes: the registers of a
completed word, the pins and the events of its actions, and nothing else that R20 names. -/
structure ActionsDone (w : Microword) (acts : List Action) (s t : State) : Prop where
  done : WordDone w s t
  sc : t.sc = s.sc
  dlyMs : t.dlyMs = s.dlyMs
  dlyPre : t.dlyPre = s.dlyPre
  pins : t.pins = pinsAfter s.pins acts
  trace : t.trace = s.trace ++ actEvents s.fb s.sc s.pins acts
  inputs : t.inputs = s.inputs.drop (1 + acts.length)
  bytes : QuietFor (1 + acts.length) s → SameBytes s t

/-- Such a word takes its fetch and one calm edge for each action (70_reset_and_hazards.md R341). -/
theorem run_actionsWord (h : AboutToFetch w j s) (hl : j.opcode.legalRom = true) (he : isEngine j = false)
    (hacts : ∀ a ∈ actionsOf s.cfg j, phaseAction a = true) (hcount : sendCount (actionsOf s.cfg j) = 0)
    (hc : CalmFor (1 + (actionsOf s.cfg j).length) s) :
    ∃ t, RunsTo (1 + (actionsOf s.cfg j).length) s t ∧ ActionsDone w (actionsOf s.cfg j) s t := by
  obtain ⟨f, hstep, hf⟩ := step_fetched h hl (.of_calm (hc.mono (Nat.le_add_right ..)))
  have hdrop : f.inputs = s.inputs.drop 1 := by rw [hf.inputs, List.drop_one]
  have hfsc : f.sc = s.sc := by rw [hf.sc, he]; rfl
  have hdisp : Dispatched f := .of_noSend hf.txv (by rw [hf.pending]; exact (acts_ok s.cfg j).head)
  obtain ⟨t, hrun, hk, hpend, hv, hpins, htrace, hsc, hms, hpre, hin, hfb⟩ :=
    run_phaseActions (actionsOf s.cfg j) f (hf.mode.trans h.1) hf.pending hacts hdisp (hc.drop hdrop)
      (absurd hcount) (absurd hcount)
  refine ⟨t, runsTo_add (runsTo_one hstep) hrun, ?_, ?_, hms.trans hf.dlyMs, hpre.trans hf.dlyPre, ?_, ?_, ?_, ?_⟩
  · exact ⟨hk.cfg.trans hf.cfg, hk.urom.trans hf.urom, hk.mode.trans hf.mode, hk.prog.trans hf.prog,
      hk.upc.trans hf.upc, hk.uw.trans hf.uw, hpend, hv, hk.initDone.trans hf.initDone, hk.reqErr.trans hf.reqErr,
      hk.errCode.trans hf.errCode⟩
  · rw [hsc, hfsc, hcount, Nat.add_zero]
  · rw [hpins, hf.pins]
  · rw [htrace, hf.trace, hf.pins, actEvents_noSend f.fb s.fb f.sc s.sc s.pins _ hcount]
  · rw [hin, hdrop, List.drop_drop]
  · intro hq a
    rw [hfb (hq.drop hdrop).2, hf.fb (hq.mono (Nat.le_add_right ..)).2]

/-- A word from UROM that is one phase: `run_actionsWord` with the phase's events and pins. -/
theorem run_phaseWord {dc : Bool} {bytes : List Byte} (h : AboutToFetch w j s) (hl : j.opcode.legalRom = true)
    (he : isEngine j = false) (hacts : actionsOf s.cfg j = phase dc bytes)
    (hc : CalmFor (1 + (phase dc bytes).length) s) :
    ∃ t, RunsTo (1 + (phase dc bytes).length) s t ∧ WordDone w s t ∧ t.sc = s.sc ∧ t.dlyMs = s.dlyMs ∧
      t.dlyPre = s.dlyPre ∧ t.trace = s.trace ++ phaseEvents s.pins dc bytes ∧ t.pins = phasePins s.pins dc ∧
      (QuietFor (1 + (phase dc bytes).length) s → SameBytes s t) := by
  rw [← hacts] at hc ⊢
  have hphase : ∀ a ∈ actionsOf s.cfg j, phaseAction a = true := fun _ ha => phaseAction_of_mem_phase (hacts ▸ ha)
  obtain ⟨t, hrun, ht⟩ := run_actionsWord h hl he hphase (by simp [hacts]) hc
  refine ⟨t, hrun, ht.done, ht.sc, ht.dlyMs, ht.dlyPre, ?_, ?_, ht.bytes⟩
  · simp [ht.trace, hacts]
  · simp [ht.pins, hacts]

/-- Settles O22: the run of WREG's two phases, the second from the pins that the first leaves. -/
theorem wregRuns : Obligations.WregRuns := by
  intro w a b s h hc
  have hphase : ∀ x ∈ actionsOf s.cfg (.wreg a b), phaseAction x = true := fun x hx =>
    (List.mem_append.1 hx).elim phaseAction_of_mem_phase phaseAction_of_mem_phase
  have hcount : sendCount (actionsOf s.cfg (.wreg a b)) = 0 := rfl
  obtain ⟨t, hrun, ht⟩ := run_actionsWord h rfl rfl hphase hcount hc
  have hpins : t.pins = phasePins (phasePins s.pins false) true := by
    simp [ht.pins, actionsOf, commandPhase, dataPhase, pinsAfter_append]
  have htrace : t.trace = s.trace ++ wregEvents s.pins a b := by
    simp [ht.trace, actionsOf, commandPhase, dataPhase, actEvents_append, wregEvents]
  refine ⟨t, hrun, ht.done, ht.sc, ht.dlyMs, ht.dlyPre, htrace, ?_, ?_, ?_, ?_, ht.bytes⟩ <;>
    simp [hpins, pinLevel_phasePins]

/-- Settles O23: WCMD and WDAT are one phase each; NOP is its fetch, with no action pending after it. -/
theorem wcmdWdatNopRun : Obligations.WcmdWdatNopRun := by
  refine fun w v s => ⟨fun h hc => run_phaseWord h rfl rfl rfl hc, fun h hc => run_phaseWord h rfl rfl rfl hc,
    fun h hu => ?_⟩
  obtain ⟨t, hstep, hf⟩ := step_fetched h rfl hu
  obtain ⟨i, r, hin, -⟩ := hu.head
  refine ⟨t, hstep, ?_, hf.sc, hf.dlyMs, hf.dlyPre, hf.trace, hf.pins, hf.txb, fun hw a => ?_⟩
  · exact ⟨hf.cfg, hf.urom, hf.mode, hf.prog, hf.upc, hf.uw, hf.pending, hf.txv, hf.initDone, hf.reqErr,
      hf.errCode⟩
  · rw [nextInput_cons hin] at hw
    rw [hf.fb (by simpa [hin] using hw)]

end Sys2Proof.Machine

/-! SUPPORT. A transport that is not ready or not idle (40_phase_sequencer.md R120, R121, R131): what holds, and for
how long. -/

namespace Sys2Proof.Machine

variable {i : EdgeIn} {j : Instr} {a : Action} {rest : List Action} {l : List Byte} {s s' t u : State}

/-! ### Holding -/

theorem SameSequencer.refl (s : State) : SameSequencer s s := by constructor <;> rfl

theorem SameSequencer.trans (h : SameSequencer s t) (h' : SameSequencer t u) : SameSequencer s u where
  cfg := h'.cfg.trans h.cfg
  urom := h'.urom.trans h.urom
  mode := h'.mode.trans h.mode
  prog := h'.prog.trans h.prog
  upc := h'.upc.trans h.upc
  uw := h'.uw.trans h.uw
  pending := h'.pending.trans h.pending
  sc := h'.sc.trans h.sc
  dlyMs := h'.dlyMs.trans h.dlyMs
  dlyPre := h'.dlyPre.trans h.dlyPre
  txb := h'.txb.trans h.txb
  txv := h'.txv.trans h.txv
  pins := h'.pins.trans h.pins
  initDone := h'.initDone.trans h.initDone
  reqErr := h'.reqErr.trans h.reqErr
  errCode := h'.errCode.trans h.errCode
  trace := h'.trace.trans h.trace

/-- The head action waits for an answer that the transport does not give at the edge `i`: a `Send` on offer is not
taken, or a `Drain` finds the transport not idle (40_phase_sequencer.md R131). -/
def Stalled (i : EdgeIn) (s : State) : Prop :=
  (s.txv = true ∧ startsSend s.pending = true ∧ i.txReady = false) ∨
  ((∃ rest, s.pending = .drain :: rest) ∧ i.txIdle = false)

/-- Whether an action is stalled is up to the sequencer and the wires. -/
theorem Stalled.of_same (h : Stalled i s) (hst : SameSequencer s t) : Stalled i t := by
  unfold Stalled
  rw [hst.txv, hst.pending]
  exact h

/-- A list that starts with a `Send`. -/
theorem startsSend_cases {acts : List Action} (h : startsSend acts = true) :
    ∃ rest, (∃ b, acts = .send b :: rest) ∨ acts = .sendFb :: rest := by
  rcases acts with _ | ⟨a, rest⟩
  · cases h
  · cases a <;> simp_all [startsSend]

/-- A stalled action holds. -/
theorem seqStep_of_stalled (h : Stalled i s) : seqStep i s = .next s := by
  rcases h with ⟨hv, hs, hr⟩ | ⟨⟨rest, hp⟩, hi⟩
  · obtain ⟨rest, ⟨b, hp⟩ | hp⟩ := startsSend_cases hs
    · simp [seqStep, hp, perform, performSend, hv, hr]
    · simp [seqStep, hp, perform, performSendFb, hv, hr]
  · simp [seqStep, hp, perform, performDrain, hi]

/-- Any number of edges at which the head action is stalled: the sequencer stays as it is. -/
theorem run_stalled (n : Nat) : ∀ s : State, s.mode = .busy → UndisturbedFor n s →
    (∀ i ∈ s.inputs.take n, Stalled i s) → ∃ t, RunsTo n s t ∧ SameSequencer s t := by
  induction n with
  | zero => exact fun s _ _ _ => ⟨s, rfl, .refl s⟩
  | succ n ih =>
    intro s hm hu hstall
    obtain ⟨i, r, hin, hui⟩ := hu.head
    have hsame := atPorts_sameSequencer i s
    have hstep : step s = .next (atPorts i s) := by
      rw [step, nextInput_cons hin, edgeStep_busy hm hui]
      exact seqStep_of_stalled ((hstall i (by simp [hin])).of_same hsame)
    obtain ⟨t, hrun, ht⟩ := ih (atPorts i s) (by simpa using hm)
      (UndisturbedFor.drop (m := 1) (Nat.add_comm n 1 ▸ hu) (by simp))
      fun k hk => (hstall k (by rw [hin]; exact List.mem_cons_of_mem i (by simpa [hin] using hk))).of_same hsame
    exact ⟨t, (run_succ hstep).trans hrun, hsame.trans ht⟩

/-- Settles O43: at each of the edges the head action is stalled, so `run_stalled` applies. -/
theorem holdsWithoutLimit : Obligations.HoldsWithoutLimit := by
  intro n s hm hu hhold
  refine run_stalled n s hm hu fun i hi => ?_
  rcases hhold with ⟨hv, hs, hr⟩ | ⟨hp, hidle⟩
  · exact .inl ⟨hv, hs, hr i hi⟩
  · exact .inr ⟨hp, hidle i hi⟩

/-! ### Only a delay

With the transport ready and idle an edge starts from the same state, but that the transport holds no byte; and what
it holds steers nothing of the sequencer. -/

/-- The same wires with the transport ready and idle. -/
def readyIdle (i : EdgeIn) : EdgeIn := { i with txReady := true, txIdle := true }

/-- The state with other bytes in the transport. -/
def State.withHeld (l : List Byte) (s : State) : State := { s with xportHeld := l }

@[simp] theorem State.withHeld_urom : (s.withHeld l).urom = s.urom := rfl
@[simp] theorem State.withHeld_prog : (s.withHeld l).prog = s.prog := rfl
@[simp] theorem State.withHeld_upc : (s.withHeld l).upc = s.upc := rfl
@[simp] theorem State.withHeld_pending : (s.withHeld l).pending = s.pending := rfl
@[simp] theorem State.withHeld_txv : (s.withHeld l).txv = s.txv := rfl

theorem withHeld_sameSequencer (l : List Byte) (s : State) : SameSequencer s (s.withHeld l) := by
  constructor <;> rfl

theorem hostPort_withHeld (i : EdgeIn) (l : List Byte) (s : State) :
    (s.withHeld l).hostPort i = (s.hostPort i).withHeld l := by
  simp only [State.hostPort, apply_ite (State.withHeld l)]
  rfl

theorem atPorts_readyIdle (i : EdgeIn) (s : State) : atPorts (readyIdle i) s = (atPorts i s).withHeld [] := by
  have hnote : (s.tick (readyIdle i)).noteIdle (readyIdle i) = ((s.tick i).noteIdle i).withHeld [] := by
    cases hi : i.txIdle <;> simp [State.noteIdle, State.tick, State.withHeld, readyIdle, hi]
  rw [atPorts, hnote]
  exact hostPort_withHeld i [] _

theorem dispatchHead_withHeld (h : dispatchHead s = .next t) : dispatchHead (s.withHeld l) = .next (t.withHeld l) := by
  unfold dispatchHead at h ⊢
  rw [State.withHeld_pending]
  split at h
  · cases h; rfl
  · split at h
    next hlt => cases h; exact if_pos hlt
    next => cases h
  · cases h; rfl

theorem drivePin_withHeld (p : Pin) (v : Bool) : (s.withHeld l).drivePin p v = (s.drivePin p v).withHeld l := by
  simp only [State.drivePin, apply_ite (State.withHeld l)]
  rfl

theorem countDelay_withHeld : (s.withHeld l).countDelay = s.countDelay.withHeld l := by
  simp only [State.countDelay, apply_ite (State.withHeld l)]
  rfl

/-- From UROM, `exec` neither reads nor writes what the transport holds. -/
theorem exec_withHeld (hm : s.mode = .busy) (h : exec j s = .next t) :
    exec j (s.withHeld l) = .next (t.withHeld l) := by
  rcases hl : j.opcode.legalRom with _ | _
  · cases (exec_busy_illegal hm hl).symm.trans h
    exact exec_busy_illegal (s := s.withHeld l) hm hl
  · cases (exec_busy hm hl).symm.trans h
    rw [exec_busy (s := s.withHeld l) hm hl]
    cases isEngine j <;> rfl

theorem fetch_withHeld (hm : s.mode = .busy) (h : fetch s = .next t) : fetch (s.withHeld l) = .next (t.withHeld l) := by
  rcases fetch_next h with ⟨hw, rfl⟩ | ⟨w, hw, ⟨op, hd, rfl⟩ | ⟨j, hd, hj⟩⟩
  · simp only [fetch, State.withHeld_urom, State.withHeld_upc, hw]
    rfl
  · simp only [fetch, State.withHeld_urom, State.withHeld_upc, hw, beginFetched, hd]
    rfl
  · simp only [fetch, State.withHeld_urom, State.withHeld_upc, hw, beginFetched, hd]
    exact exec_withHeld (s := s.fetched w) hm hj

theorem betweenWords_withHeld (hm : s.mode = .busy) (h : betweenWords s = .next t) :
    betweenWords (s.withHeld l) = .next (t.withHeld l) := by
  rcases betweenWords_next h with ⟨hp | hp, hf⟩ | ⟨hp, rfl⟩ | ⟨hp, rfl⟩ <;>
    simp only [betweenWords, State.withHeld_prog, hp]
  · exact fetch_withHeld hm hf
  · exact fetch_withHeld hm hf
  · rfl

/-- An action that completes is performed, and the next one is dispatched. -/
theorem Completes.perform_eq (h : Completes i a s s') : perform i a rest s = advance rest s' := by
  cases h with
  | setPin p v _ hi => exact if_pos hi
  | send b _ hv hr => simp [perform, performSend, hv, hr]
  | sendFb _ hv hr => simp [perform, performSendFb, hv, hr]
  | drain _ hi => exact if_pos hi
  | waiting ms _ hz => exact if_pos hz
  | fillByte v _ hlt => exact if_pos hlt
  | finish => rfl

/-- An action that completes also completes with the transport ready and idle, to the same effect. -/
theorem Completes.readyIdle (h : Completes i a s s') (l : List Byte) :
    ∃ l', Completes (readyIdle i) a (s.withHeld l) (s'.withHeld l') := by
  cases h with
  | setPin p v => exact ⟨l, drivePin_withHeld (s := s) p v ▸ .setPin p v _ rfl⟩
  | send b _ hv => exact ⟨l ++ [s.txb], .send b (s.withHeld l) hv rfl⟩
  | sendFb _ hv => exact ⟨l ++ [s.txb], .sendFb (s.withHeld l) hv rfl⟩
  | drain => exact ⟨l, .drain _ rfl⟩
  | waiting ms _ hz => exact ⟨l, .waiting ms (s.withHeld l) hz⟩
  | fillByte v _ hlt => exact ⟨l, .fillByte v (s.withHeld l) hlt⟩
  | finish => exact ⟨l, .finish (s.withHeld l)⟩

/-- A `Send` that is not on offer is put on offer, whatever the transport answers. -/
theorem perform_notOffered (hs : startsSend (a :: rest) = true) (hv : s.txv = false) :
    perform i a rest s = dispatchHead s := by
  obtain ⟨_, ⟨b, h⟩ | h⟩ := startsSend_cases hs <;> cases h
  · simp [perform, performSend, hv]
  · simp [perform, performSendFb, hv]

/-- An action either holds, or does what it does with the transport ready and idle. -/
theorem perform_readyIdle (h : perform i a rest s = .next t) (l : List Byte) :
    t = s ∨ ∃ l', perform (readyIdle i) a rest (s.withHeld l) = .next (t.withHeld l') := by
  rcases perform_next h with ⟨s', hc, hd⟩ | rfl | ⟨hs, hv, hd⟩ | ⟨ms, rfl, rfl⟩ | ⟨ms, rfl, hz, rfl⟩
  · obtain ⟨l', hc'⟩ := hc.readyIdle l
    exact .inr ⟨l', hc'.perform_eq.trans (dispatchHead_withHeld (s := s'.withPending rest) hd)⟩
  · exact .inl rfl
  · exact .inr ⟨l, (perform_notOffered (s := s.withHeld l) hs hv).trans (dispatchHead_withHeld hd)⟩
  · exact .inr ⟨l, rfl⟩
  · refine .inr ⟨l, ?_⟩
    rw [← countDelay_withHeld]
    exact if_neg hz

theorem seqStep_readyIdle (hm : s.mode = .busy) (h : seqStep i s = .next t) (l : List Byte) :
    t = s ∨ ∃ l', seqStep (readyIdle i) (s.withHeld l) = .next (t.withHeld l') := by
  unfold seqStep at h ⊢
  rw [State.withHeld_pending]
  split at h
  · exact .inr ⟨l, betweenWords_withHeld hm h⟩
  · exact perform_readyIdle h l

/-- Settles O44: the head action holds, or it does the same with the transport ready and idle
(`seqStep_readyIdle`), up to what the transport holds. -/
theorem stallsOnlyDelay : Obligations.StallsOnlyDelay := by
  intro i s t hm hu h
  rw [edgeStep_busy hm hu] at h
  rcases seqStep_readyIdle (by simpa using hm) h [] with rfl | ⟨l, hready⟩
  · exact .inl (atPorts_sameSequencer i s)
  · refine .inr ⟨t.withHeld l, ?_, withHeld_sameSequencer l t, fun _ => rfl⟩
    rw [← atPorts_readyIdle] at hready
    exact (edgeStep_busy (i := readyIdle i) hm hu).trans hready

end Sys2Proof.Machine

/-! SUPPORT. DELAY and PINS from UROM (41_delay_and_pins.md R150 to R156): the delay FSM edge by edge, the run of a
whole wait, and the pins and events of a list of `SetPin`s. -/

namespace Sys2Proof.Machine

variable {a : Action} {rest : List Action} {s f t u : State} {w : Microword} {j : Instr} {ms : Half} {n k : Nat}

/-! ### The delay FSM, edge by edge (41_delay_and_pins.md R152) -/

/-- An undisturbed edge in BUSY performs the head of `pending`, whether the edge is listed or free. -/
theorem step_eq_perform (hm : s.mode = .busy) (hu : undisturbed s.nextInput = true) (hp : s.pending = a :: rest) :
    step s = perform s.nextInput a rest (atPorts s.nextInput s) := by
  rw [step, edgeStep_busy hm hu, seqStep]
  simp only [State.atPorts_pending, hp]

theorem performWaiting_done (hz : s.dlyMs = 0) :
    performWaiting ms rest s = advance rest (s.emit (.wait ms)) := if_pos hz

theorem performWaiting_counts (hz : s.dlyMs ≠ 0) : performWaiting ms rest s = .next s.countDelay := if_neg hz

theorem countDelay_reloads (hz : s.dlyPre = 0) :
    s.countDelay = { s with dlyPre := s.cfg.clkPerMs - 1, dlyMs := s.dlyMs - 1 } := if_pos hz

theorem countDelay_decrements (hz : s.dlyPre ≠ 0) : s.countDelay = { s with dlyPre := s.dlyPre - 1 } := if_neg hz

/-- A count of milliseconds that is not 0 does not wrap. -/
theorem toNat_sub_one_add_one (h : ms ≠ 0) : (ms - 1).toNat + 1 = ms.toNat := by
  bv_omega

/-- Settles O25: each case of the delay FSM is one branch of the action performed. -/
theorem delayCounterSteps : Obligations.DelayCounterSteps := by
  refine fun ms rest s hm hu => ⟨fun hp => ?_, fun hp hz hpre => ?_, fun hp hz hpre => ?_, fun hp hz => ?_⟩ <;>
    rw [step_eq_perform hm hu hp]
  · exact ⟨_, rfl, rfl, rfl, by simp, by simp⟩
  · refine ⟨_, performWaiting_counts (by simpa using hz), ?_⟩
    rw [countDelay_reloads (by simpa using hpre)]
    exact ⟨by simp, by simpa using toNat_sub_one_add_one hz, by simp, by simp⟩
  · refine ⟨_, performWaiting_counts (by simpa using hz), ?_⟩
    rw [countDelay_decrements (by simpa using hpre)]
    exact ⟨by simp, by simp, by simpa using Nat.succ_pred hpre, by simp⟩
  · exact ⟨_, performWaiting_done (by simpa using hz), rfl, by simp⟩

/-! ### The run of a DELAY (41_delay_and_pins.md R153) -/

/-- A run answers one state. -/
theorem RunsTo.unique (h : RunsTo n s t) (h' : RunsTo n s u) : t = u := by
  cases h.symm.trans h'
  rfl

/-- A wait is at its last edge exactly when no millisecond is left. -/
theorem dlyMs_eq_zero_of_waitLeft {clk pre : Nat} (h : waitLeft clk ms.toNat pre = 1) : ms = 0 := by
  by_contra hz
  have hne : ms.toNat ≠ 0 := fun h0 => hz (BitVec.eq_of_toNat_eq h0)
  rw [waitLeft, if_neg hne] at h
  omega

/-- A microword is done when what followed its fetch kept the program's registers. -/
theorem Fetched.wordDone (hf : Fetched w j s f) (hk : Kept f t) (hp : t.pending = []) (hv : t.txv = false) :
    WordDone w s t where
  cfg := hk.cfg.trans hf.cfg
  urom := hk.urom.trans hf.urom
  mode := hk.mode.trans hf.mode
  prog := hk.prog.trans hf.prog
  upc := hk.upc.trans hf.upc
  uw := hk.uw.trans hf.uw
  pending := hp
  txv := hv
  initDone := hk.initDone.trans hf.initDone
  reqErr := hk.reqErr.trans hf.reqErr
  errCode := hk.errCode.trans hf.errCode

/-- The start edge of a wait and `k` edges of it, up to the last before its completion edge: nothing is emitted, and
the completion edge is `k` edges nearer. -/
theorem run_waitBegun (hm : s.mode = .busy) (hp : s.pending = .waitMs ms :: rest) (hc : 1 ≤ s.cfg.clkPerMs)
    (hu : UndisturbedFor (1 + k) s) (hle : k ≤ ms.toNat * s.cfg.clkPerMs) :
    ∃ t, RunsTo (1 + k) s t ∧ WaitKept (1 + k) s t ∧ t.pending = .waiting ms :: rest ∧ t.trace = s.trace ∧
      waitLeft s.cfg.clkPerMs t.dlyMs.toNat t.dlyPre + k = ms.toNat * s.cfg.clkPerMs + 1 := by
  obtain ⟨b, hstep, hb, hpb, htrb, hms, hpre⟩ := step_waitMs hm hp (hu.mono (Nat.le_add_right ..))
  have hleft : waitLeft b.cfg.clkPerMs b.dlyMs.toNat b.dlyPre = ms.toNat * s.cfg.clkPerMs + 1 := by
    rw [hb.kept.cfg, hms, hpre, waitLeft_loaded _ _ hc]
  obtain ⟨t, hrun, ht, hpt, htr, hcount⟩ := run_waiting k b (hb.kept.mode.trans hm) hpb (hu.drop hb.inputs)
    (by rwa [hb.kept.cfg]) (by omega)
  refine ⟨t, runsTo_add (runsTo_one hstep) hrun, hb.trans ht, hpt, htr.trans htrb, ?_⟩
  rw [← hleft, hcount, hb.kept.cfg]

/-- A whole wait: its completion edge comes `ms·CLK_PER_MS + 1` edges after its start edge. -/
theorem run_wait (hm : s.mode = .busy) (hp : s.pending = [.waitMs ms]) (hc : 1 ≤ s.cfg.clkPerMs)
    (hu : UndisturbedFor (1 + (ms.toNat * s.cfg.clkPerMs + 1)) s) :
    ∃ t, RunsTo (1 + (ms.toNat * s.cfg.clkPerMs + 1)) s t ∧ WaitKept (1 + (ms.toNat * s.cfg.clkPerMs + 1)) s t ∧
      t.pending = [] ∧ t.trace = s.trace ++ [.wait ms] := by
  rw [← Nat.add_assoc] at hu ⊢
  obtain ⟨b, hrun, hb, hpb, htrb, hleft⟩ := run_waitBegun hm hp hc (hu.mono (Nat.le_add_right ..)) le_rfl
  have hlast : waitLeft s.cfg.clkPerMs b.dlyMs.toNat b.dlyPre = 1 := by omega
  have hz : b.dlyMs = 0 := dlyMs_eq_zero_of_waitLeft hlast
  obtain ⟨t, hstep, ht, hpt, htr, -, -⟩ := step_waitDone (hb.kept.mode.trans hm) hpb (hu.drop hb.inputs) hz
  exact ⟨t, runsTo_add hrun (runsTo_one hstep), hb.trans ht, hpt, by rw [htr, htrb]⟩

/-- A DELAY from UROM emits nothing up to the edge before its completion edge. -/
theorem delay_trace (h : AboutToFetch w (.delay ms) s) (hc : 1 ≤ s.cfg.clkPerMs) (hu : UndisturbedFor k s)
    (hle : k ≤ 1 + (ms.toNat * s.cfg.clkPerMs + 1)) (hrun : RunsTo k s t) : t.trace = s.trace := by
  rcases k with _ | k
  · rw [RunsTo.unique hrun rfl]
  rw [Nat.add_comm] at hu hrun
  obtain ⟨f, hstep, hf⟩ := step_fetched h rfl (hu.mono (Nat.le_add_right ..))
  rcases k with _ | k
  · rw [hrun.unique (runsTo_one hstep), hf.trace]
  rw [Nat.add_comm k] at hu hrun
  obtain ⟨u, hrun', -, -, htr, -⟩ := run_waitBegun (hf.mode.trans h.1) hf.pending (by rwa [hf.cfg])
    (hu.drop (by rw [hf.inputs, List.drop_one])) (by rw [hf.cfg]; omega)
  rw [hrun.unique (runsTo_add (runsTo_one hstep) hrun'), htr, hf.trace]

/-- Settles O24: the fetch, then `run_wait`; before the completion edge `delay_trace`. -/
theorem delayRuns : Obligations.DelayRuns := by
  intro w ms s h hc hu
  refine ⟨?_, fun k t hk hrun => delay_trace h hc (hu.mono (by omega)) hk hrun⟩
  obtain ⟨f, hstep, hf⟩ := step_fetched h rfl (hu.mono (Nat.le_add_right ..))
  have hdrop : f.inputs = s.inputs.drop 1 := by rw [hf.inputs, List.drop_one]
  obtain ⟨t, hrun, ht, hp, htr⟩ := run_wait (hf.mode.trans h.1) hf.pending (by rwa [hf.cfg])
    (by rw [hf.cfg]; exact hu.drop hdrop)
  rw [hf.cfg] at hrun ht
  refine ⟨t, runsTo_add (runsTo_one hstep) hrun, hf.wordDone ht.kept hp (ht.txv.trans hf.txv), by rw [htr, hf.trace],
    ht.pins.trans hf.pins, ht.sc.trans hf.sc, fun hq a => ?_⟩
  rw [List.take_add, List.forall_mem_append, ← hdrop] at hq
  rw [ht.fb hq.2, hf.fb hq.1]

/-! ### The run of PINS (41_delay_and_pins.md R155, R156) -/

/-- PINS has one action for each masked pin. -/
theorem pinActions_length (m l : BitVec 4) :
    (pinActions m l).length = (pinOrder.filter fun q => m.getLsbD (pinBit q)).length := by
  have hpins : ∀ ps : List Pin, (ps.filterMap (pinAction m l)).length =
      (ps.filter fun q => m.getLsbD (pinBit q)).length := by
    intro ps
    induction ps with
    | nil => rfl
    | cons p ps ih => cases hp : m.getLsbD (pinBit p) <;> simp [pinAction, hp, ih]
  exact hpins pinOrder

/-- The actions of PINS for a list of pins leave the masked ones at their levels and move no other. -/
theorem pinLevel_pinsAfter_pinAction (m l pins : BitVec 4) (ps : List Pin) (q : Pin) :
    pinLevel (pinsAfter pins (ps.filterMap (pinAction m l))) q =
      if q ∈ ps ∧ m.getLsbD (pinBit q) then l.getLsbD (pinBit q) else pinLevel pins q := by
  induction ps generalizing pins with
  | nil => simp [pinsAfter]
  | cons p ps ih =>
    rcases eq_or_ne q p with rfl | hq
    · cases hp : m.getLsbD (pinBit q) <;> simp [pinAction, hp, ih, pinsAfter, pinLevel_withPin]
    · cases hp : m.getLsbD (pinBit p) <;> simp [pinAction, hp, ih, hq, pinsAfter, pinLevel_withPin]

/-- The events of the actions of PINS for a list of pins, none of them twice: those of the pins that change. -/
theorem actEvents_pinAction (fb : Memory) (sc : Nat) (m l pins : BitVec 4) {ps : List Pin} (hps : ps.Nodup) :
    actEvents fb sc pins (ps.filterMap (pinAction m l)) =
      (ps.filter fun q => m.getLsbD (pinBit q) && (l.getLsbD (pinBit q) != pinLevel pins q)).map
        fun q => .pin q (l.getLsbD (pinBit q)) := by
  induction ps generalizing pins with
  | nil => rfl
  | cons p ps ih =>
    obtain ⟨hnot, hps⟩ := List.nodup_cons.1 hps
    cases hp : m.getLsbD (pinBit p)
    · simp [pinAction, hp, ih pins hps]
    · have hother : ∀ q ∈ ps, pinLevel (withPin pins p (l.getLsbD (pinBit p))) q = pinLevel pins q := by
        intro q hq
        rw [pinLevel_withPin, if_neg]
        rintro rfl
        exact hnot hq
      have hrest := List.filter_congr fun q hq =>
        congrArg (fun level => m.getLsbD (pinBit q) && (l.getLsbD (pinBit q) != level)) (hother q hq)
      by_cases hlevel : pinLevel pins p = l.getLsbD (pinBit p)
      · simp [pinAction, hp, actEvents, driveEvents, ih _ hps, hrest, hlevel]
      · simp [pinAction, hp, actEvents, driveEvents, ih _ hps, hrest, hlevel, Ne.symm hlevel]

/-- PINS can move every pin. -/
theorem mem_pinOrder (q : Pin) : q ∈ pinOrder := by cases q <;> decide

theorem phaseAction_of_mem_pinActions {m l : BitVec 4} (h : a ∈ pinActions m l) : phaseAction a = true := by
  obtain ⟨p, v, rfl⟩ := pinActions_mem m l a h
  rfl

theorem sendCount_setPins {acts : List Action} (h : ∀ a ∈ acts, ∃ p v, a = .setPin p v) : sendCount acts = 0 := by
  induction acts with
  | nil => rfl
  | cons a acts ih =>
    obtain ⟨⟨p, v, rfl⟩, hacts⟩ := List.forall_mem_cons.1 h
    exact ih hacts

/-- Settles O26: `run_actionsWord`, with the pins and the events of the pins in their order. -/
theorem pinsRuns : Obligations.PinsRuns := by
  intro w m l s h hc
  have hlen : instrEdges s.cfg (.pins m l) = 1 + (pinActions m l).length := by
    rw [pinActions_length]; rfl
  rw [hlen] at hc ⊢
  obtain ⟨t, hrun, ht⟩ := run_actionsWord h rfl rfl (fun _ => phaseAction_of_mem_pinActions)
    (sendCount_setPins (pinActions_mem m l)) hc
  refine ⟨t, hrun, ht.done, ht.sc, ht.dlyMs, ht.dlyPre, fun q => ?_, ?_, ht.bytes⟩
  · simp [ht.pins, actionsOf, pinActions, pinLevel_pinsAfter_pinAction, mem_pinOrder]
  · rw [ht.trace]
    exact congrArg _ (actEvents_pinAction _ _ m l s.pins (by decide))

end Sys2Proof.Machine

/-! SUPPORT. The contents of the frame buffer steer nothing (42_framebuffer_ops.md R172, 43_programs.md R208): from two
states that differ only in bytes every part of an edge does the same, up to bytes. -/

namespace Sys2Proof.Machine

variable {i : EdgeIn} {s s' : State} {o o' u u' : Host.Outcome State Fault Refusal}

/-! ### The updates of the state keep `SameButBytes` -/

theorem SameButBytes.withPending (h : SameButBytes s s') (l : List Action) :
    SameButBytes (s.withPending l) (s'.withPending l) := { h with pending := rfl }

theorem SameButBytes.begin (h : SameButBytes s s') (l : List Action) : SameButBytes (s.begin l) (s'.begin l) :=
  { h with pending := rfl }

/-- The two bytes put on offer may be different. -/
theorem SameButBytes.offer (h : SameButBytes s s') (b b' : Byte) : SameButBytes (s.offer b) (s'.offer b') :=
  { h with txv := rfl }

theorem SameButBytes.emit (h : SameButBytes s s') (e : Event) : SameButBytes (s.emit e) (s'.emit e) :=
  { h with trace := by simp [h.trace] }

theorem SameButBytes.accepted (h : SameButBytes s s') : SameButBytes s.accepted s'.accepted :=
  { h with
    txv := rfl
    trace := by simp [h.trace, h.pins, eraseByte]
    xportHeld := by simp [h.xportHeld] }

theorem SameButBytes.countByte (h : SameButBytes s s') : SameButBytes s.countByte s'.countByte :=
  { h with sc := by simp [h.sc] }

theorem SameButBytes.fillStore (h : SameButBytes s s') (v : Half) : SameButBytes (s.fillStore v) (s'.fillStore v) :=
  { h with }

theorem SameButBytes.drivePin (h : SameButBytes s s') (p : Pin) (v : Bool) :
    SameButBytes (s.drivePin p v) (s'.drivePin p v) := by
  unfold State.drivePin
  rw [h.pins]
  split
  · exact h
  · exact { h with pins := by simp, trace := by simp [h.trace] }

theorem SameButBytes.loadDelay (h : SameButBytes s s') (ms : Half) : SameButBytes (s.loadDelay ms) (s'.loadDelay ms) :=
  { h with dlyMs := rfl, dlyPre := by simp [h.cfg] }

theorem SameButBytes.countDelay (h : SameButBytes s s') : SameButBytes s.countDelay s'.countDelay := by
  unfold State.countDelay
  rw [h.dlyPre, h.dlyMs, h.cfg]
  split
  · exact { h with cfg := rfl, dlyMs := rfl, dlyPre := rfl }
  · exact { h with cfg := rfl, dlyMs := rfl, dlyPre := rfl }

theorem SameButBytes.resetCounter (h : SameButBytes s s') : SameButBytes s.resetCounter s'.resetCounter :=
  { h with sc := rfl }

theorem SameButBytes.fetched (h : SameButBytes s s') (w : Microword) : SameButBytes (s.fetched w) (s'.fetched w) :=
  { h with uw := rfl, upc := by simp [h.upc] }

theorem SameButBytes.finishProgram (h : SameButBytes s s') : SameButBytes s.finishProgram s'.finishProgram :=
  { h with mode := rfl, prog := rfl, initDone := by simp [initDoneAtEnd, h.initDone, h.prog] }

theorem SameButBytes.completeHostOp (h : SameButBytes s s') : SameButBytes s.completeHostOp s'.completeHostOp :=
  { h with mode := rfl, prog := rfl }

theorem SameButBytes.raiseFault (h : SameButBytes s s') (c : Cause) : SameButBytes (s.raiseFault c) (s'.raiseFault c) :=
  { h with
    mode := rfl
    prog := rfl
    pending := rfl
    txv := rfl
    initDone := rfl
    errCode := rfl
    trace := by simp [h.trace] }

/-- Whether the byte on offer reached the transport is up to the edge, not to the byte (log 13). -/
theorem SameButBytes.transportFault (h : SameButBytes s s') (i : EdgeIn) :
    SameButBytes (s.transportFault i) (s'.transportFault i) :=
  { h.raiseFault .xportFault with
    xportHeld := by
      simp only [State.transportFault, h.txv, h.edge]
      split <;> simp [h.xportHeld] }

theorem SameButBytes.refuseInFault (h : SameButBytes s s') : SameButBytes s.refuseInFault s'.refuseInFault :=
  { h with reqErr := rfl }

theorem SameButBytes.reject (h : SameButBytes s s') (c : Cause) : SameButBytes (s.reject c) (s'.reject c) :=
  { h with reqErr := rfl, errCode := rfl }

theorem SameButBytes.rejectMalformed (h : SameButBytes s s') (op : Opcode) :
    SameButBytes (rejectMalformed op s) (rejectMalformed op s') := by
  unfold Machine.rejectMalformed
  rw [h.mode]
  split
  · exact h.refuseInFault
  · exact h.reject _
  · exact h.reject _

theorem SameButBytes.enterInit (h : SameButBytes s s') : SameButBytes s.enterInit s'.enterInit :=
  { h with initDone := rfl, reqErr := rfl, errCode := rfl, mode := rfl, prog := rfl, upc := rfl }

theorem SameButBytes.enterShow (h : SameButBytes s s') : SameButBytes s.enterShow s'.enterShow :=
  { h with reqErr := rfl, errCode := rfl, mode := rfl, prog := rfl, upc := by simp [h.cfg] }

theorem SameButBytes.acceptRequest (h : SameButBytes s s') (j : Instr) (l : List Action) :
    SameButBytes (s.acceptRequest j l) (s'.acceptRequest j l) :=
  { h with reqErr := rfl, errCode := rfl, uw := rfl, mode := rfl, prog := rfl, pending := rfl }

theorem SameButBytes.acceptedState (h : SameButBytes s s') (j : Instr) :
    SameButBytes (acceptedState j s) (acceptedState j s') := by
  unfold Machine.acceptedState
  rw [h.cfg]
  split
  · exact h.enterInit
  · exact h.enterShow
  · exact h.acceptRequest _ _

theorem SameButBytes.resetEdge (h : SameButBytes s s') (inReset : Bool) :
    SameButBytes (s.resetEdge inReset) (s'.resetEdge inReset) where
  cfg := h.cfg
  urom := h.urom
  fbErr := h.fbErr
  rstHeld := h.rstHeld
  inputs := h.inputs
  edge := h.edge
  trace := by cases inReset <;> simp [h.trace]
  mode := rfl
  prog := rfl
  upc := rfl
  uw := rfl
  pending := rfl
  sc := rfl
  dlyMs := rfl
  dlyPre := rfl
  txv := rfl
  pins := rfl
  initDone := rfl
  reqErr := rfl
  errCode := rfl
  xportHeld := rfl

/-! ### The ports -/

theorem SameButBytes.tick (h : SameButBytes s s') (i : EdgeIn) : SameButBytes (s.tick i) (s'.tick i) :=
  { h with rstHeld := rfl, inputs := by simp [h.inputs], edge := by simp [h.edge] }

theorem SameButBytes.noteIdle (h : SameButBytes s s') (i : EdgeIn) : SameButBytes (s.noteIdle i) (s'.noteIdle i) := by
  unfold State.noteIdle
  split
  · exact { h with xportHeld := rfl }
  · exact h

/-- Whether an access of the host fails is up to its address and size (20_memory.md R66 to R68). -/
theorem SameButBytes.hostPort (h : SameButBytes s s') (i : EdgeIn) : SameButBytes (s.hostPort i) (s'.hostPort i) := by
  unfold State.hostPort
  rw [h.cfg]
  split_ifs
  · exact { h with cfg := rfl, fbErr := rfl }
  · exact { h with cfg := rfl, fbErr := rfl }
  · exact { h with cfg := rfl, fbErr := rfl }
  · exact h

theorem SameButBytes.atPorts (h : SameButBytes s s') (i : EdgeIn) : SameButBytes (atPorts i s) (atPorts i s') :=
  ((h.tick i).noteIdle i).hostPort i

theorem SameButBytes.nextInput (h : SameButBytes s s') : s'.nextInput = s.nextInput := by
  unfold State.nextInput
  rw [h.inputs, h.edge]

/-! ### The parts of an edge -/

/-- A next state that one answer gives is matched by the other, up to bytes. -/
def Matched (o o' : Host.Outcome State Fault Refusal) : Prop :=
  ∀ t, o = .next t → ∃ t', o' = .next t' ∧ SameButBytes t t'

theorem Matched.next (h : SameButBytes s s') : Matched (.next s) (.next s') := by
  rintro _ ⟨⟩
  exact ⟨s', rfl, h⟩

theorem Matched.fault (r : Fault) : Matched (.fault r) o := by
  rintro _ ⟨⟩

/-- Two branchings on one condition. -/
theorem Matched.ite {c : Prop} [Decidable c] (h : Matched o o') (hu : Matched u u') :
    Matched (if c then o else u) (if c then o' else u') := by
  split
  · exact h
  · exact hu

/-- Whether STREAM has a byte to offer is up to `sc`; which byte it is, is not kept. -/
theorem SameButBytes.dispatchHead (h : SameButBytes s s') : Matched (dispatchHead s) (dispatchHead s') := by
  unfold Machine.dispatchHead
  rw [h.pending, h.sc, h.cfg]
  split
  · exact .next (h.offer _ _)
  · exact .ite (.next (h.offer _ _)) (.fault _)
  · exact .next h

theorem SameButBytes.advance (h : SameButBytes s s') (rest : List Action) :
    Matched (advance rest s) (advance rest s') := (h.withPending rest).dispatchHead

theorem SameButBytes.perform (h : SameButBytes s s') (i : EdgeIn) (a : Action) (rest : List Action) :
    Matched (perform i a rest s) (perform i a rest s') := by
  cases a with
  | setPin p v => exact .ite ((h.drivePin p v).advance rest) (.next h)
  | send b =>
    simp only [Machine.perform, performSend, h.txv]
    exact .ite (.ite (h.accepted.advance rest) (.next h)) h.dispatchHead
  | sendFb =>
    simp only [Machine.perform, performSendFb, h.txv]
    exact .ite (.ite (h.accepted.countByte.advance rest) (.next h)) h.dispatchHead
  | drain => exact .ite (h.advance rest) (.next h)
  | waitMs ms => exact .next ((h.loadDelay ms).withPending _)
  | waiting ms =>
    simp only [Machine.perform, performWaiting, h.dlyMs]
    exact .ite ((h.emit _).advance rest) (.next h.countDelay)
  | fillByte v =>
    simp only [Machine.perform, performFillByte, h.sc, h.cfg]
    exact .ite ((h.fillStore v).countByte.advance rest) (.fault _)
  | finish => exact h.finishProgram.advance rest

/-- Which of its updates `exec` makes is up to the mode (`exec_next`). -/
theorem SameButBytes.exec (h : SameButBytes s s') (j : Instr) : Matched (exec j s) (exec j s') := by
  rcases exec_next j s with ⟨hm, hl, hs⟩ | ⟨hm, hl, hs⟩ | ⟨hm, hl, hs⟩ | ⟨hm, hl, hs⟩ | ⟨hm, rfl, hs⟩ | ⟨hm, hj, hs⟩ <;>
    rw [← h.mode] at hm <;> rw [hs]
  · rw [exec_busy hm hl, h.cfg]
    cases isEngine j
    · exact .next (h.begin _)
    · exact .next (h.resetCounter.begin _)
  · rw [exec_busy_illegal hm hl]
    exact .next (h.raiseFault _)
  · rw [exec_idle hm hl]
    exact .next (h.acceptedState j)
  · rw [exec_idle_illegal hm hl]
    exact .next (h.reject _)
  · rw [exec_init_fault hm]
    exact .next h.enterInit
  · rw [exec_fault hm hj]
    exact .next h.refuseInFault

theorem SameButBytes.fetch (h : SameButBytes s s') : Matched (fetch s) (fetch s') := by
  unfold Machine.fetch
  rw [h.urom, h.upc]
  split
  · exact .next (h.raiseFault _)
  · unfold beginFetched
    split
    · exact (h.fetched _).exec _
    · exact .next ((h.fetched _).raiseFault _)

theorem SameButBytes.seqStep (h : SameButBytes s s') (i : EdgeIn) : Matched (seqStep i s) (seqStep i s') := by
  unfold Machine.seqStep
  rw [h.pending]
  split
  · unfold betweenWords
    rw [h.prog]
    split
    · exact h.fetch
    · exact h.fetch
    · exact .next h.completeHostOp
    · exact .next h
  · exact h.perform i _ _

theorem SameButBytes.takeRequest (h : SameButBytes s s') (w : Microword) :
    Matched (takeRequest w s) (takeRequest w s') := by
  unfold Machine.takeRequest
  split
  · exact h.exec _
  · exact .next (h.rejectMalformed _)

theorem SameButBytes.afterPorts (h : SameButBytes s s') (i : EdgeIn) (inReset : Bool) :
    Matched (afterPorts i inReset s) (afterPorts i inReset s') := by
  unfold Machine.afterPorts
  rw [h.mode]
  refine .ite (.next (h.resetEdge inReset)) (.ite (.next (h.transportFault i)) (.ite (h.seqStep i) ?_))
  exact .ite (h.takeRequest i.reqWord) (.next h)

/-- Settles O47: the two states take one edge, the ports leave them the same but for bytes, and so does every part of
the edge after the ports. -/
theorem contentsMoveNothing : Obligations.ContentsMoveNothing := by
  intro s s' t h hs
  have hmatched : Matched (step s) (step s') := by
    rw [step, step, h.nextInput, edgeStep_eq_afterPorts, edgeStep_eq_afterPorts, h.rstHeld]
    exact (h.atPorts _).afterPorts _ _
  exact hmatched t hs

end Sys2Proof.Machine

/-! SUPPORT. FILL, STREAM and `loadRaw` (42_framebuffer_ops.md R170 to R175, R186, R187): the entries a fill leaves, the
events of a phase that sends the frame buffer, and a run of byte writes of the host. -/

namespace Sys2Proof.Machine

variable {s : State} {m : Memory}

/-! ### FILL (42_framebuffer_ops.md R170, R171) -/

/-- An entry whose two bytes FILL has written holds its value, little-endian (20_memory.md R62). -/
theorem fbHalf_of_filled {k : Nat} {v : Half} (hlow : fbByte m (2 * k) = fillByteAt v (2 * k))
    (hhigh : fbByte m (2 * k + 1) = fillByteAt v (2 * k + 1)) : fbHalf m (2 * k) = v := by
  rw [fbHalf, hlow, hhigh, fillByteAt, fillByteAt, if_neg (by omega), if_pos (by omega), halfOf_bytes]

/-- The frame buffer holds two bytes for each entry (00_scope.md R6). -/
theorem fbBytes_eq_two_mul (p : Params) : p.fbBytes = 2 * (p.width * p.height) := Nat.mul_assoc ..

/-- Settles O27: the fetch, then one byte of the buffer an edge from `sc = 0` on (`run_fillBytes`). -/
theorem fillRuns : Obligations.FillRuns := by
  intro w v s h hu hq
  obtain ⟨f, hstep, hf⟩ := step_fetched h rfl (hu.mono (Nat.le_add_right ..))
  have hdrop : f.inputs = s.inputs.drop 1 := by rw [hf.inputs, List.drop_one]
  have hsc : f.sc = 0 := hf.sc
  rw [List.take_add, List.forall_mem_append, ← hdrop] at hq
  obtain ⟨t, hrun, ht, hp, hsct, -, hfb⟩ := run_fillBytes s.cfg.fbBytes f (hf.mode.trans h.1) hf.pending
    (hu.drop hdrop) (by rw [hsc, hf.cfg, Nat.zero_add]) hq.2
  have hbyte (a : Nat) : fbByte t.fb a = if a < s.cfg.fbBytes then fillByteAt v a else fbByte s.fb a := by
    rw [hfb, hsc, hf.fb hq.1]
    simp
  refine ⟨t, runsTo_add (runsTo_one hstep) hrun, hf.wordDone ht.kept hp (ht.txv.trans hf.txv),
    ht.dlyMs.trans hf.dlyMs, ht.dlyPre.trans hf.dlyPre, ht.txb.trans hf.txb, ht.pins.trans hf.pins,
    ht.trace.trans hf.trace, by rw [hsct, hsc, Nat.zero_add], fun k hk => ?_, fun a ha => ?_⟩
  · have hsize := fbBytes_eq_two_mul s.cfg
    exact fbHalf_of_filled ((hbyte _).trans (if_pos (by omega))) ((hbyte _).trans (if_pos (by omega)))
  · rw [hbyte, if_neg (by omega)]

/-! ### STREAM (42_framebuffer_ops.md R172 to R175) -/

theorem pinsAfter_sendFbs (pins : BitVec 4) (n : Nat) : pinsAfter pins (List.replicate n .sendFb) = pins := by
  induction n with
  | zero => rfl
  | succ n ih => exact ih

theorem sendCount_sendFbs (n : Nat) : sendCount (List.replicate n .sendFb) = n := by
  induction n with
  | zero => rfl
  | succ n ih => exact congrArg (· + 1) ih

/-- The sends of STREAM show the bytes of the frame buffer from `sc` on. -/
theorem actEvents_sendFbs (fb : Memory) (sc : Nat) (pins : BitVec 4) (n : Nat) :
    actEvents fb sc pins (List.replicate n .sendFb) =
      (fbBytesFrom fb sc n).map fun b => .byte b (pinLevel pins .dc) := by
  induction n generalizing sc with
  | zero => rfl
  | succ n ih => exact congrArg (List.cons _) (ih (sc + 1))

theorem streamActions_length (p : Params) : (streamActions p).length = p.fbBytes + 4 := by
  simp [streamActions, phaseOf]

theorem phaseAction_of_mem_streamActions {p : Params} {a : Action} (h : a ∈ streamActions p) :
    phaseAction a = true := by
  simp only [streamActions, phaseOf, List.mem_append, List.mem_cons, List.mem_replicate, List.not_mem_nil,
    or_false] at h
  rcases h with ((rfl | rfl) | ⟨-, rfl⟩) | (rfl | rfl) <;> rfl

theorem sendCount_streamActions (p : Params) : sendCount (streamActions p) = p.fbBytes := by
  simp [streamActions, phaseOf, sendCount, sendCount_append, sendCount_sendFbs]

theorem pinsAfter_streamActions (pins : BitVec 4) (p : Params) :
    pinsAfter pins (streamActions p) = phasePins pins true := pinsAfter_phaseOf (pinsAfter_sendFbs · _) pins true

/-- STREAM shows one data phase of the bytes from `sc` on. -/
theorem actEvents_streamActions (fb : Memory) (sc : Nat) (pins : BitVec 4) (p : Params) :
    actEvents fb sc pins (streamActions p) = phaseEvents pins true (fbBytesFrom fb sc p.fbBytes) := by
  rw [streamActions, actEvents_phaseOf (pinsAfter_sendFbs · _), actEvents_sendFbs]
  simp [pinLevel_withPin, phaseEvents]

/-- Address order is entry order, the low byte of each entry first (42_framebuffer_ops.md R174). -/
theorem fbBytesFrom_entries (m : Memory) (k n : Nat) :
    fbBytesFrom m (2 * k) (2 * n) =
      (List.range' k n).flatMap fun k => [lowByte (fbHalf m (2 * k)), highByte (fbHalf m (2 * k))] := by
  induction n generalizing k with
  | zero => rfl
  | succ n ih =>
    have hrest := ih (k + 1)
    rw [Nat.mul_succ] at hrest
    simp [Nat.mul_succ, fbBytesFrom, hrest, List.range'_succ, fbHalf]

/-- Settles O28: the fetch, then the run of one phase of sends (`run_phaseActions`) from `sc = 0`. -/
theorem streamRuns : Obligations.StreamRuns := by
  intro w s h hq
  have hlen : s.cfg.fbBytes + 5 = 1 + (streamActions s.cfg).length := by rw [streamActions_length]; omega
  rw [hlen] at hq ⊢
  obtain ⟨f, hstep, hf⟩ := step_fetched h rfl (.of_calm (hq.1.mono (Nat.le_add_right ..)))
  have hdrop : f.inputs = s.inputs.drop 1 := by rw [hf.inputs, List.drop_one]
  have hsc : f.sc = 0 := hf.sc
  have hfb : f.fb = s.fb := hf.fb (hq.mono (Nat.le_add_right ..)).2
  have hcount := sendCount_streamActions s.cfg
  obtain ⟨t, hrun, hk, hp, hv, hpins, htrace, hsct, hms, hpre, -, hfbt⟩ :=
    run_phaseActions (streamActions s.cfg) f (hf.mode.trans h.1) hf.pending
      (fun _ => phaseAction_of_mem_streamActions) (.of_noSend hf.txv (by rw [hf.pending]; rfl)) (hq.drop hdrop).1
      (fun _ => by rw [hsc, hcount, hf.cfg, Nat.zero_add]) (fun _ => (hq.drop hdrop).2)
  refine ⟨t, runsTo_add (runsTo_one hstep) hrun, hf.wordDone hk hp hv, hms.trans hf.dlyMs, hpre.trans hf.dlyPre, ?_,
    fun a => ?_, ?_, ?_, fbContents_length s, ?_, fun hw hh => ?_⟩
  · rw [hsct, hsc, hcount, Nat.zero_add]
  · rw [hfbt (hq.drop hdrop).2, hfb]
  · rw [hpins, hf.pins, pinsAfter_streamActions]
  · rw [htrace, hf.trace, hf.pins, hfb, hsc, actEvents_streamActions, fbContents]
  · rw [fbContents, fbBytes_eq_two_mul, List.range_eq_range']
    exact fbBytesFrom_entries s.fb 0 _
  · rw [fbContents_length, Params.fbBytes, hw, hh]

/-! ### `loadRaw` (42_framebuffer_ops.md R186, R187) -/

theorem writeBytesFrom_length (a : Nat) (bytes : List Byte) : (writeBytesFrom a bytes).length = bytes.length := by
  induction bytes generalizing a with
  | nil => rfl
  | cons b bytes ih => exact congrArg (· + 1) (ih (a + 1))

theorem lowByte_setWidth (b : Byte) : lowByte (b.setWidth 16) = b := by
  apply BitVec.eq_of_getLsbD_eq
  intro k hk
  simp [lowByte, hk, show k < 16 by omega]

/-- A byte write inside leaves its byte, and every other byte alone (20_memory.md R67). -/
theorem fbByte_atPorts_byteWrite {a : Nat} {b : Byte} (hin : a < s.cfg.fbBytes) (x : Nat) :
    fbByte (atPorts (byteWriteEdge a b) s).fb x = if x = a then b else fbByte s.fb x := by
  have hgood : hostAccessFails s.cfg (byteWriteEdge a b) = false := by
    rw [← Bool.not_eq_true, hostAccessFails_byte _ rfl]
    exact Nat.not_le.2 hin
  have hwritten := fbByte_hostWritten_byte (m := s.fb) (i := byteWriteEdge a b) rfl x
  have hlow : lowByte (byteWriteEdge a b).fbWdata = b := lowByte_setWidth b
  rw [hlow] at hwritten
  rw [atPorts_fb_eq_hostPort, hostPort_writes rfl hgood rfl]
  exact hwritten

/-- Byte writes at rising addresses in IDLE: one edge each, and the sequencer stays as it is. -/
theorem run_writeBytes (bytes : List Byte) : ∀ (a : Nat) (rest : List EdgeIn) (s : State), s.mode = .idle →
    s.inputs = writeBytesFrom a bytes ++ rest → a + bytes.length ≤ s.cfg.fbBytes →
    ∃ t, RunsTo bytes.length s t ∧ SameSequencer s t ∧
      ∀ x, fbByte t.fb x = if a ≤ x then bytes.getD (x - a) (fbByte s.fb x) else fbByte s.fb x := by
  induction bytes with
  | nil => exact fun a rest s _ _ _ => ⟨s, rfl, .refl s, by simp⟩
  | cons b bytes ih =>
    intro a rest s hm hin hlen
    rw [List.length_cons] at hlen
    have hsame := atPorts_sameSequencer (byteWriteEdge a b) s
    have hstep : step s = .next (atPorts (byteWriteEdge a b) s) := by
      rw [step, nextInput_cons hin]
      exact edgeStep_portsOnly hm rfl rfl
    obtain ⟨t, hrun, ht, hbyte⟩ := ih (a + 1) rest (atPorts (byteWriteEdge a b) s) (by simpa using hm)
      (by simp [hin, writeBytesFrom]) (by simp; omega)
    refine ⟨t, (run_succ hstep).trans hrun, hsame.trans ht, fun x => ?_⟩
    rw [hbyte, fbByte_atPorts_byteWrite (by omega)]
    rcases lt_trichotomy x a with hlt | rfl | hgt
    · rw [if_neg (by omega), if_neg (by omega), if_neg (by omega)]
    · simp
    · obtain ⟨k, rfl⟩ := Nat.exists_eq_add_of_lt hgt
      have hnext : a + k + 1 - (a + 1) = k := by omega
      have hthis : a + k + 1 - a = k + 1 := by omega
      rw [if_pos (by omega), if_pos hgt.le, if_neg hgt.ne', hnext, hthis, List.getD_cons_succ]

/-- Settles O57: `loadRaw` is a run of byte writes of the part of the source that fits. -/
theorem loadRawWrites : Obligations.LoadRawWrites := by
  intro s source rest hm hin
  have hlen : (source.take s.cfg.fbBytes).length = min source.length s.cfg.fbBytes := by
    rw [List.length_take, Nat.min_comm]
  obtain ⟨t, hrun, ht, hbyte⟩ := run_writeBytes (source.take s.cfg.fbBytes) 0 rest s hm hin (by omega)
  refine ⟨t, hlen ▸ hrun, ht, fun a => ?_⟩
  rw [hbyte, if_pos (Nat.zero_le a), Nat.sub_zero]
  split
  next h =>
    rw [List.getD_eq_getElem _ _ (by omega), List.getElem_take]
  next h =>
    rw [List.getD_eq_default _ _ (by omega)]

end Sys2Proof.Machine

/-! SUPPORT. The microprograms' words (43_programs.md R200 to R213): what a step runs from UROM, what a program request
starts, the words of UROM as numbers and where they stand, and the end of a program. -/

namespace Sys2Proof

theorem packWord_toNat (o : BitVec 4) (a b : Half) :
    (packWord o a b).toNat = o.toNat * 0x100000000 + a.toNat * 0x10000 + b.toNat := by
  have ha := a.isLt
  have hb := b.isLt
  rw [packWord, BitVec.toNat_append, BitVec.toNat_append, ← Nat.shiftLeft_add_eq_or_of_lt hb,
    ← Nat.shiftLeft_add_eq_or_of_lt ha, Nat.shiftLeft_eq, Nat.shiftLeft_eq]
  omega

/-- The number of an instruction's word, from its three fields (30_encoding.md R90). -/
theorem encode_toNat (i : Instr) :
    (encode i).toNat =
      i.opcode.code.toNat * 0x100000000 + i.operandFields.1.toNat * 0x10000 + i.operandFields.2.toNat :=
  packWord_toNat ..

/-- The last row and column of a legal instance fit 16 bits (00_scope.md R5). -/
theorem Params.size_of_legal {p : Params} (h : p.legal = true) : p.width ≤ 65536 ∧ p.height ≤ 65536 := by
  simp only [Params.legal, Bool.and_eq_true, decide_eq_true_eq] at h
  obtain ⟨⟨⟨⟨⟨-, hw⟩, -⟩, hh⟩, -⟩, -⟩ := h
  exact ⟨hw, hh⟩

theorem Params.clkPerMs_of_legal {p : Params} (h : p.legal = true) : 1 ≤ p.clkPerMs := by
  simp only [Params.legal, Bool.and_eq_true, decide_eq_true_eq] at h
  obtain ⟨⟨-, hclk⟩, -⟩ := h
  exact hclk

theorem Params.lastRow_toNat {p : Params} (h : p.height ≤ 65536) : p.lastRow.toNat = p.height - 1 := by
  rw [Params.lastRow, BitVec.toNat_ofNat]
  omega

theorem Params.lastColumn_toNat {p : Params} (h : p.width ≤ 65536) : p.lastColumn.toNat = p.width - 1 := by
  rw [Params.lastColumn, BitVec.toNat_ofNat]
  omega

/-- Settles O33: each word is the number of its three fields, and `H − 1` and `W − 1` fit theirs. -/
theorem programWords : Obligations.ProgramWords := by
  intro p hlegal h v showWords
  obtain ⟨hw, hh⟩ := p.size_of_legal hlegal
  have hshow : p.showBody.map (fun i => (encode i).toNat) = showWords := by
    simp [Params.showBody, encode_toNat, Instr.opcode, Opcode.code, Instr.operandFields,
      Params.lastRow_toNat hh, Params.lastColumn_toNat hw, showWords, h, v]
  have hhead : p.initHead.map (fun i => (encode i).toNat) =
      [0x500070000 + (if p.initCsLevel then 4 else 0), 0x400000096, 0x500010001, 0x400000096, 0x500010000,
       0x400000096, 0x500010001, 0x400000032, 0x500080000] := by
    cases hcs : p.initCsLevel <;>
      simp [Params.initHead, hcs, encode_toNat, Instr.opcode, Opcode.code, Instr.operandFields]
  have htable (e : TableEntry) : (encode e.instr).toNat = match e with
      | .reg i x => 0x100000000 + i.toNat * 65536 + x.toNat
      | .delay ms => 0x400000000 + ms.toNat := by
    cases e <;> simp [TableEntry.instr, encode_toNat, Instr.opcode, Opcode.code, Instr.operandFields]
  constructor
  · rw [Params.showProgram, List.map_append, hshow]
    rfl
  · simp only [Params.initProgram, List.map_append, hhead, hshow, List.map_map, Function.comp_def, htable]
    rfl

end Sys2Proof

namespace Sys2Proof.Machine

variable {s : State} {w : Microword} {j : Instr} {p : Params}

/-! ### Fetching, and the requests that start a program (43_programs.md R200, R202, R203) -/

theorem betweenWords_program (h : s.prog = .initProg ∨ s.prog = .showProg) : betweenWords s = fetch s := by
  unfold betweenWords
  rcases h with h | h <;> rw [h]

theorem fetch_of_word (hw : uromWord s.urom s.upc = some w) (hd : decode w = .ok j) :
    fetch s = exec j (s.fetched w) := by
  simp only [fetch, hw, beginFetched, hd]

/-- Settles O6: an undisturbed edge of a program between two words is the fetch over what the ports leave. -/
theorem stepRunsFetchedInstruction : Obligations.StepRunsFetchedInstruction := by
  rintro w j s ⟨hm, hprog, hpend, hw, hd, -⟩ hu
  refine ⟨?_, atPorts_sameSequencer .., fun hq a => by rw [atPorts_fb _ _ hq]⟩
  calc step s
      = seqStep s.nextInput (atPorts s.nextInput s) := edgeStep_busy hm hu
    _ = betweenWords (atPorts s.nextInput s) := by simp only [seqStep, State.atPorts_pending, hpend]
    _ = fetch (atPorts s.nextInput s) := betweenWords_program (by simpa using hprog)
    _ = exec j ((atPorts s.nextInput s).fetched w) := fetch_of_word (by simpa using hw) hd
    _ = _ := by rw [State.fetched, State.atPorts_upc]

/-- Settles O19: both modes accept INIT with the same state, and IDLE accepts SHOW. -/
theorem programRequestsAccepted : Obligations.ProgramRequestsAccepted := by
  refine fun s => ⟨fun hm => ⟨?_, by simp [status, bit1]⟩, fun hm => exec_idle hm rfl⟩
  rcases hm with hm | hm
  · exact exec_idle hm rfl
  · exact exec_init_fault hm

/-! ### The layout of UROM (43_programs.md R213) -/

theorem initProgram_eq (p : Params) : p.initProgram = progBody p ++ [.endProg] := by
  simp [Params.initProgram, initTail, progBody]

theorem initProgram_length (p : Params) : p.initProgram.length = p.showEntry := by
  rw [initProgram_eq, List.length_append, progBody_length, Params.showEntry]
  simp only [List.length_singleton]
  omega

/-- UROM is the init microprogram and then the show microprogram. -/
theorem urom_eq (p : Params) : p.urom = p.initProgram.map encode ++ p.showProgram.map encode := List.map_append

theorem urom_drop_showEntry (p : Params) : p.urom.drop p.showEntry = p.showProgram.map encode := by
  rw [urom_eq]
  exact List.drop_left' (by rw [List.length_map, initProgram_length])

/-- Every word of UROM is the word of an instruction that is legal there. -/
theorem wellFormed_of_uromWord {k : Nat} (h : uromWord p.urom k = some w) : wordWellFormed .urom w = true := by
  rw [uromWord_program, Option.map_eq_some_iff] at h
  obtain ⟨i, hi, rfl⟩ := h
  have hk : k < p.uromLen := by
    rw [← program_length]
    exact (List.getElem?_eq_some_iff.1 hi).1
  obtain ⟨i', hi', hlegal, -⟩ := program_at p k hk
  obtain rfl : i = i' := Option.some.inj (hi.symm.trans hi')
  rw [(decodeEncodeAgree i).2]
  exact hlegal

/-- Between two words of a program the next fetch is inside UROM. -/
theorem Inv.fetch_inside (h : Inv s) (hprog : s.prog = .initProg ∨ s.prog = .showProg) (hp : s.pending = []) :
    s.upc < s.cfg.uromLen := by
  rcases hprog with hprog | hprog
  · have hupc := (h.inInit hprog).2
    rw [hp, if_neg (by simp), Params.showEntry] at hupc
    rw [Params.uromLen]
    omega
  · have hupc := (h.inShow hprog).2.2
    rwa [hp, if_neg (by simp)] at hupc

/-- Settles O34: UROM is the two programs in a row, each word of it is well-formed, and the invariant keeps a
program from fetching past its END. -/
theorem uromLayout : Obligations.UromLayout := by
  refine ⟨fun p => ⟨rfl, rfl, rfl, ?_, fun k hk => ?_, fun k _ => ?_, fun _ _ => wellFormed_of_uromWord⟩,
    fun s h _ hprog hp => h.fetch_inside hprog hp⟩
  · rw [Params.urom, List.length_map, program_length]
  · rw [uromWord_eq, urom_eq, List.getElem?_append_left]
    rw [List.length_map, initProgram_length, Params.showEntry]
    omega
  · rw [uromWord_eq, ← urom_drop_showEntry, List.getElem?_drop, Params.showEntry]

/-! ### The end of a program (43_programs.md R201) -/

/-- Settles O29: the fetch of the END, then the edge of its `Finish`. -/
theorem endRuns : Obligations.EndRuns := by
  intro w s h hu
  obtain ⟨f, hstep, hf⟩ := step_fetched h rfl (hu.mono (by omega))
  have hdrop : f.inputs = s.inputs.drop 1 := by rw [hf.inputs, List.drop_one]
  obtain ⟨i, hin, hfin⟩ := step_finish (hf.mode.trans h.1) hf.pending (hu.drop (m := 1) hdrop)
  have hsc : f.sc = s.sc := hf.sc
  refine ⟨_, runsTo_add (runsTo_one hstep) (runsTo_one hfin), rfl, rfl, ?_, ?_⟩
  · cases hprog : s.prog <;> simp [initDoneAtEnd, hf.prog, hf.initDone, hprog]
  · refine ⟨by simp [hf.cfg], by simp [hf.urom], by simp [hf.upc], by simp [hf.uw], rfl, by simp [hsc],
      by simp [hf.dlyMs], by simp [hf.dlyPre], by simp [hf.txb], by simp [hf.txv], by simp [hf.pins],
      by simp [hf.reqErr], by simp [hf.errCode], by simp [hf.trace], fun hq a => ?_⟩
    rw [show 2 = 1 + 1 from rfl, List.take_add, List.forall_mem_append, ← hdrop] at hq
    have hports : (atPorts i f).fb = s.fb := by
      rw [atPorts_fb _ _ (hq.2 i (by rw [hin]; simp)), hf.fb hq.1]
    simp [hports]

end Sys2Proof.Machine

/-! SUPPORT. Runs of lists of UROM words (43_programs.md R200): every edge uses up one sample of the wires, each word
changes the pins and the bytes of the frame buffer and shows events, and a program runs its words in a row. -/

namespace Sys2Proof.Machine

variable {i : EdgeIn} {a : Action} {acts : List Action} {s s' t : State} {w : Microword} {j : Instr}
  {l rest : List Instr} {p : Params} {n : Nat}

/-! ### The wires of a run (log 1) -/

theorem dispatchHead_inputs (h : dispatchHead s = .next t) : t.inputs = s.inputs := by
  rcases dispatchHead_next h with ⟨-, rfl⟩ | ⟨-, b, rfl, -⟩ <;> rfl

theorem Completes.inputs (h : Completes i a s s') : s'.inputs = s.inputs := by
  cases h with
  | setPin => simp
  | send | sendFb | drain | waiting | fillByte | finish => rfl

theorem perform_inputs (h : perform i a acts s = .next t) : t.inputs = s.inputs := by
  rcases perform_next h with ⟨s', hc, hd⟩ | rfl | ⟨-, -, hd⟩ | ⟨ms, -, rfl⟩ | ⟨ms, -, -, rfl⟩
  · exact (dispatchHead_inputs (s := s'.withPending acts) hd).trans hc.inputs
  · rfl
  · exact dispatchHead_inputs hd
  · rfl
  · simp

theorem exec_inputs (h : exec j s = .next t) : t.inputs = s.inputs := by
  obtain ⟨-, -, -, -, -, -, -, -, -, -, -, -, hin, -⟩ := execFrame j s t h
  exact hin

theorem takeRequest_inputs (h : takeRequest w s = .next t) : t.inputs = s.inputs := by
  rcases takeRequest_next h with ⟨op, -, rfl⟩ | ⟨j, -, hj⟩
  · unfold rejectMalformed
    split <;> rfl
  · exact exec_inputs hj

theorem seqStep_inputs (h : seqStep i s = .next t) : t.inputs = s.inputs := by
  unfold seqStep at h
  split at h
  · rcases betweenWords_next h with ⟨-, hf⟩ | ⟨-, rfl⟩ | ⟨-, rfl⟩
    · rcases fetch_next hf with ⟨-, rfl⟩ | ⟨w, -, ⟨op, -, rfl⟩ | ⟨j, -, hj⟩⟩
      · rfl
      · rfl
      · exact exec_inputs (s := s.fetched w) hj
    · rfl
    · rfl
  · exact perform_inputs h

/-- An edge uses up one sample of the wires. -/
theorem step_inputs (h : step s = .next t) : t.inputs = s.inputs.tail := by
  rw [← State.atPorts_inputs (s := s) s.nextInput]
  rcases edgeStep_next h with ⟨-, rfl⟩ | ⟨-, -, -, rfl⟩ | ⟨-, -, -, hq⟩ | ⟨-, -, -, -, hq⟩ | ⟨-, -, -, -, rfl⟩
  · rfl
  · rfl
  · exact seqStep_inputs hq
  · exact takeRequest_inputs hq
  · rfl

theorem RunsTo.inputs (h : RunsTo n s t) : t.inputs = s.inputs.drop n := by
  induction n generalizing s with
  | zero => cases h; rfl
  | succ n ih =>
    obtain ⟨u, hu, hr⟩ := run_succ_next h
    rw [ih hr, step_inputs hu, ← List.drop_one, List.drop_drop, Nat.add_comm]

/-! ### Pins -/

/-- The pins are their four levels (10_state.md R31). -/
theorem pins_ext {pins pins' : BitVec 4} (h : ∀ q, pinLevel pins q = pinLevel pins' q) : pins = pins' := by
  apply BitVec.eq_of_getLsbD_eq
  intro k hk
  match k, hk with
  | 0, _ => exact h .rst
  | 1, _ => exact h .dc
  | 2, _ => exact h .cs
  | 3, _ => exact h .bl

@[simp] theorem phasePins_phasePins (pins : BitVec 4) (dc dc' : Bool) :
    phasePins (phasePins pins dc) dc' = phasePins pins dc' := by
  apply pins_ext
  intro q
  simp only [pinLevel_phasePins]
  split
  · rfl
  · split <;> rfl

/-- The pins after PINS: the masked ones at their levels (41_delay_and_pins.md R155). -/
def maskedPins (pins m l : BitVec 4) : BitVec 4 := (pins &&& ~~~m) ||| (l &&& m)

theorem pinLevel_maskedPins (pins m l : BitVec 4) (q : Pin) :
    pinLevel (maskedPins pins m l) q =
      if m.getLsbD (pinBit q) then l.getLsbD (pinBit q) else pinLevel pins q := by
  have hq : pinBit q < 4 := by cases q <;> decide
  cases hm : m.getLsbD (pinBit q) <;>
    simp only [maskedPins, pinLevel, BitVec.getLsbD_or, BitVec.getLsbD_and, BitVec.getLsbD_not, hm, hq] <;> simp

/-- The events of PINS: one for each masked pin that changes (41_delay_and_pins.md R155, R156). -/
def maskedEvents (pins m l : BitVec 4) : List Event :=
  (pinOrder.filter fun q => m.getLsbD (pinBit q) && (l.getLsbD (pinBit q) != pinLevel pins q)).map
    fun q => .pin q (l.getLsbD (pinBit q))

/-! ### What a word of UROM does to the pins and the frame buffer, and what it shows -/

/-- What the words of a program work on: the pins, and what every byte of the frame buffer reads. -/
structure Picture where
  pins  : BitVec 4
  bytes : Nat → Byte

/-- The pins and the frame buffer of a state. -/
def picture (s : State) : Picture := ⟨s.pins, fbByte s.fb⟩

/-- The frame buffer's bytes in the order STREAM sends them (42_framebuffer_ops.md R174). -/
def Picture.contents (p : Params) (v : Picture) : List Byte := (List.range p.fbBytes).map v.bytes

theorem picture_contents (s : State) : (picture s).contents s.cfg = fbContents s := by
  rw [fbContents, fbBytesFrom_eq_map, ← List.range_eq_range']
  rfl

/-- Every byte after a FILL (42_framebuffer_ops.md R170). -/
def filledBytes (p : Params) (x : Half) (bytes : Nat → Byte) (a : Nat) : Byte :=
  if a < p.fbBytes then fillByteAt x a else bytes a

/-- What a word of UROM leaves. -/
def Picture.after (p : Params) (v : Picture) : Instr → Picture
  | .wreg _ _ => { v with pins := wregPins v.pins }
  | .wcmd _ => { v with pins := phasePins v.pins false }
  | .wdat _ | .stream => { v with pins := phasePins v.pins true }
  | .pins m l => { v with pins := maskedPins v.pins m l }
  | .fill x => { v with bytes := filledBytes p x v.bytes }
  | .nop | .delay _ | .endProg | .init | .showFb | .powerOff | .powerOn | .contrast _ | .invert _ | .rotate _ => v

/-- The events that a word of UROM shows. -/
def Picture.events (p : Params) (v : Picture) : Instr → List Event
  | .wreg a b => wregEvents v.pins a b
  | .wcmd a => phaseEvents v.pins false (wireBytes a)
  | .wdat b => phaseEvents v.pins true (wireBytes b)
  | .stream => phaseEvents v.pins true (v.contents p)
  | .pins m l => maskedEvents v.pins m l
  | .delay ms => [.wait ms]
  | .nop | .fill _ | .endProg | .init | .showFb | .powerOff | .powerOn | .contrast _ | .invert _ | .rotate _ => []

/-- The run of one word that is no END: its registers, its picture and its events. -/
structure WordRun (j : Instr) (s t : State) : Prop where
  done : WordDone (encode j) s t
  effect : picture t = (picture s).after s.cfg j
  trace : t.trace = s.trace ++ (picture s).events s.cfg j

theorem picture_eq {pins : BitVec 4} {bytes : Nat → Byte} (hpins : t.pins = pins)
    (hbytes : ∀ a, fbByte t.fb a = bytes a) : picture t = ⟨pins, bytes⟩ := by
  rw [picture, hpins, funext hbytes]

/-- A word that writes no byte of the frame buffer. -/
theorem picture_of_sameBytes {pins : BitVec 4} (hpins : t.pins = pins) (h : SameBytes s t) :
    picture t = { picture s with pins } :=
  picture_eq hpins h

/-- An entry's two bytes, read from it (20_memory.md R62). -/
theorem fbByte_of_entries {m : Memory} {x : Half} (h : ∀ k, k < p.width * p.height → fbHalf m (2 * k) = x) {a : Nat}
    (ha : a < p.fbBytes) : fbByte m a = fillByteAt x a := by
  rw [fbBytes_eq_two_mul] at ha
  have hentry := h (a / 2) (by omega)
  rw [fbHalf] at hentry
  rw [fillByteAt]
  split
  next heven =>
    rw [← hentry, lowByte_halfOf, show 2 * (a / 2) = a by omega]
  next hodd =>
    rw [← hentry, highByte_halfOf, show 2 * (a / 2) + 1 = a by omega]

/-- Every word that a program holds before its END runs in its edges (70_reset_and_hazards.md R341). -/
theorem run_word (h : AboutToFetch (encode j) j s) (hj : bodyOk j)
    (hclk : ∀ ms, j = .delay ms → 1 ≤ s.cfg.clkPerMs) (hq : QuietFor (instrEdges s.cfg j) s) :
    ∃ t, RunsTo (instrEdges s.cfg j) s t ∧ WordRun j s t := by
  cases j with
  | nop =>
    obtain ⟨t, hstep, hdone, -, -, -, htrace, hpins, -, hbytes⟩ :=
      (wcmdWdatNopRun _ 0 s).2.2 h (.of_calm hq.1)
    obtain ⟨i, r, hin, -⟩ := hq.1.head
    have hsame := hbytes (by rw [nextInput_cons hin]; exact hq.2 i (by simp [hin, instrEdges]))
    exact ⟨t, runsTo_one hstep, hdone, picture_of_sameBytes hpins hsame, by simpa [Picture.events] using htrace⟩
  | wreg x y =>
    obtain ⟨t, hrun, hdone, -, -, -, htrace, hdc, hcs, hrst, hbl, hbytes⟩ := wregRuns _ x y s h hq.1
    have hpins : t.pins = wregPins s.pins := by
      apply pins_ext
      intro q
      rw [wregPins, pinLevel_phasePins]
      cases q
      · simpa using hrst
      · simpa using hdc
      · simpa using hcs
      · simpa using hbl
    exact ⟨t, hrun, hdone, picture_of_sameBytes hpins (hbytes hq), htrace⟩
  | wcmd x =>
    obtain ⟨t, hrun, hdone, -, -, -, htrace, hpins, hbytes⟩ := (wcmdWdatNopRun _ x s).1 h hq.1
    exact ⟨t, hrun, hdone, picture_of_sameBytes hpins (hbytes hq), htrace⟩
  | wdat x =>
    obtain ⟨t, hrun, hdone, -, -, -, htrace, hpins, hbytes⟩ := (wcmdWdatNopRun _ x s).2.1 h hq.1
    exact ⟨t, hrun, hdone, picture_of_sameBytes hpins (hbytes hq), htrace⟩
  | delay ms =>
    have hlen : instrEdges s.cfg (.delay ms) = 1 + (1 + (ms.toNat * s.cfg.clkPerMs + 1)) := by
      rw [instrEdges]
      omega
    rw [hlen] at hq ⊢
    obtain ⟨⟨t, hrun, hdone, htrace, hpins, -, hbytes⟩, -⟩ := delayRuns _ ms s h (hclk ms rfl) (.of_calm hq.1)
    exact ⟨t, hrun, hdone, picture_of_sameBytes hpins (hbytes hq.2), htrace⟩
  | pins m l =>
    obtain ⟨t, hrun, hdone, -, -, -, hlevels, htrace, hbytes⟩ := pinsRuns _ m l s h hq.1
    have hpins : t.pins = maskedPins s.pins m l :=
      pins_ext fun q => (hlevels q).trans (pinLevel_maskedPins s.pins m l q).symm
    exact ⟨t, hrun, hdone, picture_of_sameBytes hpins (hbytes hq), htrace⟩
  | fill x =>
    obtain ⟨t, hrun, hdone, -, -, -, hpins, htrace, -, hentries, hbeyond⟩ := fillRuns _ x s h (.of_calm hq.1) hq.2
    refine ⟨t, hrun, hdone, picture_eq hpins fun a => ?_, by simpa [Picture.events] using htrace⟩
    rw [filledBytes]
    split
    next ha => exact fbByte_of_entries hentries ha
    next ha => exact hbeyond a (by omega)
  | stream =>
    obtain ⟨t, hrun, hdone, -, -, -, hbytes, hpins, htrace, -⟩ := streamRuns _ s h hq
    exact ⟨t, hrun, hdone, picture_of_sameBytes hpins hbytes, by rw [htrace, ← picture_contents]; rfl⟩
  | endProg => exact absurd rfl hj.2
  | init | showFb | powerOff | powerOn | contrast | invert | rotate => exact absurd hj.1 Bool.false_ne_true

/-! ### The words of a program in a row -/

/-- What a list of words leaves. -/
def Picture.afterAll (p : Params) (v : Picture) (l : List Instr) : Picture := l.foldl (Picture.after p) v

/-- The events that a list of words shows. -/
def Picture.allEvents (p : Params) : Picture → List Instr → List Event
  | _, [] => []
  | v, j :: l => v.events p j ++ allEvents p (v.after p j) l

theorem Picture.afterAll_append (v : Picture) (l m : List Instr) :
    v.afterAll p (l ++ m) = (v.afterAll p l).afterAll p m := List.foldl_append

theorem Picture.allEvents_append (v : Picture) (l m : List Instr) :
    v.allEvents p (l ++ m) = v.allEvents p l ++ (v.afterAll p l).allEvents p m := by
  induction l generalizing v with
  | nil => rfl
  | cons j l ih =>
    rw [List.cons_append, allEvents, ih, allEvents, List.append_assoc]
    rfl

theorem programEdges_append (p : Params) (l m : List Instr) :
    programEdges p (l ++ m) = programEdges p l + programEdges p m := by
  induction l with
  | nil => rw [List.nil_append, programEdges, Nat.zero_add]
  | cons j l ih => rw [List.cons_append, programEdges, ih, programEdges, Nat.add_assoc]

/-- A program is between two words, and `code` is what UROM holds from `upc` on. -/
structure AtCode (code : List Instr) (s : State) : Prop where
  mode : s.mode = .busy
  prog : s.prog = .initProg ∨ s.prog = .showProg
  pending : s.pending = []
  txv : s.txv = false
  code : s.urom.drop s.upc = code.map encode

theorem AtCode.aboutToFetch (h : AtCode (j :: l) s) : AboutToFetch (encode j) j s := by
  refine ⟨h.mode, h.prog, h.pending, ?_, decode_encode j, h.txv⟩
  have hhead : (s.urom.drop s.upc)[0]? = some (encode j) := by rw [h.code]; rfl
  rwa [List.getElem?_drop, Nat.add_zero, ← uromWord_eq] at hhead

/-- After a word the program is at what follows it. -/
theorem AtCode.next (h : AtCode (j :: l) s) (hdone : WordDone w s t) : AtCode l t where
  mode := hdone.mode.trans h.mode
  prog := hdone.prog ▸ h.prog
  pending := hdone.pending
  txv := hdone.txv
  code := by rw [hdone.urom, hdone.upc, ← List.drop_drop, h.code]; rfl

/-- The run of a list of words: the program goes on behind them. -/
structure WordsRun (l : List Instr) (s t : State) : Prop where
  cfg : t.cfg = s.cfg
  prog : t.prog = s.prog
  upc : t.upc = s.upc + l.length
  initDone : t.initDone = s.initDone
  reqErr : t.reqErr = s.reqErr
  errCode : t.errCode = s.errCode
  effect : picture t = (picture s).afterAll s.cfg l
  trace : t.trace = s.trace ++ (picture s).allEvents s.cfg l

theorem WordsRun.nil (s : State) : WordsRun [] s s := ⟨rfl, rfl, rfl, rfl, rfl, rfl, rfl, (List.append_nil _).symm⟩

theorem WordsRun.cons {u : State} (h : WordRun j s t) (h' : WordsRun l t u) : WordsRun (j :: l) s u where
  cfg := h'.cfg.trans h.done.cfg
  prog := h'.prog.trans h.done.prog
  upc := by rw [h'.upc, h.done.upc, List.length_cons]; omega
  initDone := h'.initDone.trans h.done.initDone
  reqErr := h'.reqErr.trans h.done.reqErr
  errCode := h'.errCode.trans h.done.errCode
  effect := by rw [h'.effect, h.effect, h.done.cfg]; rfl
  trace := by rw [h'.trace, h.trace, h.effect, h.done.cfg, List.append_assoc]; rfl

/-- The words of a program before its END, one after the other. -/
theorem run_words (l : List Instr) : ∀ s : State, AtCode (l ++ rest) s → (∀ j ∈ l, bodyOk j) →
    (∀ ms, .delay ms ∈ l → 1 ≤ s.cfg.clkPerMs) → QuietFor (programEdges s.cfg l) s →
    ∃ t, RunsTo (programEdges s.cfg l) s t ∧ AtCode rest t ∧ WordsRun l s t := by
  induction l with
  | nil => exact fun s h _ _ _ => ⟨s, rfl, h, .nil s⟩
  | cons j l ih =>
    intro s h hl hclk hq
    rw [programEdges] at hq ⊢
    obtain ⟨t, hrun, ht⟩ := run_word h.aboutToFetch (hl j (List.mem_cons_self ..))
      (fun ms hms => hclk ms (hms ▸ List.mem_cons_self ..)) (hq.mono (Nat.le_add_right ..))
    have hcfg := ht.done.cfg
    have hrest := hq.drop hrun.inputs
    rw [← hcfg] at hclk hrest
    obtain ⟨u, hrun', hu, hu'⟩ := ih t (h.next ht.done) (fun x hx => hl x (List.mem_cons_of_mem _ hx))
      (fun ms hms => hclk ms (List.mem_cons_of_mem _ hms)) hrest
    rw [hcfg] at hrun'
    exact ⟨u, runsTo_add hrun hrun', hu, .cons ht hu'⟩

/-- The run of a whole program, its END included: the block is IDLE behind the END. -/
structure ProgramRun (l : List Instr) (s t : State) : Prop where
  mode : t.mode = .idle
  prog : t.prog = .noProg
  initDone : t.initDone = if s.prog = .initProg then true else s.initDone
  upc : t.upc = s.upc + l.length + 1
  pending : t.pending = []
  txv : t.txv = false
  reqErr : t.reqErr = s.reqErr
  errCode : t.errCode = s.errCode
  effect : picture t = (picture s).afterAll s.cfg l
  trace : t.trace = s.trace ++ (picture s).allEvents s.cfg l

/-- A program runs its words, then its END. -/
theorem run_program (h : AtCode (l ++ .endProg :: rest) s) (hl : ∀ j ∈ l, bodyOk j)
    (hclk : ∀ ms, .delay ms ∈ l → 1 ≤ s.cfg.clkPerMs) (hq : QuietFor (programEdges s.cfg (l ++ [.endProg])) s) :
    ∃ t, RunsTo (programEdges s.cfg (l ++ [.endProg])) s t ∧ ProgramRun l s t := by
  rw [programEdges_append] at hq ⊢
  obtain ⟨u, hrun, hend, hu⟩ := run_words l s h hl hclk (hq.mono (Nat.le_add_right ..))
  have hlast : QuietFor 2 u := hq.drop hrun.inputs
  obtain ⟨t, hrun', hmode, hprog, hinit, -, -, hupc, -, hpend, -, -, -, -, htxv, hpins, hreq, herr, htrace, hbytes⟩ :=
    endRuns _ u hend.aboutToFetch (.of_calm hlast.1)
  refine ⟨t, runsTo_add hrun hrun', hmode, hprog, ?_, by rw [hupc, hu.upc], hpend, htxv, hreq.trans hu.reqErr,
    herr.trans hu.errCode, ?_, htrace.trans hu.trace⟩
  · rw [hinit, hu.prog, hu.initDone]
  · exact (picture_of_sameBytes hpins (hbytes hlast.2)).trans hu.effect

end Sys2Proof.Machine

/-! SUPPORT. The runs of the two microprograms: SHOW from its request (43_programs.md R207, R215) and INIT from reset
(43_programs.md R211, R214). -/

namespace Sys2Proof.Machine

variable {s : State} {w : Microword} {p : Params}

/-! ### SHOW (43_programs.md R207, R215) -/

/-- The show program leaves DC and CS high, as its last data phase does, and no byte changed. -/
theorem Picture.afterAll_showBody (v : Picture) :
    v.afterAll p p.showBody = { v with pins := phasePins v.pins true } := by
  simp [Params.showBody, afterAll, after, wregPins]

theorem Picture.allEvents_showBody (v : Picture) :
    v.allEvents p p.showBody = showEvents p v.pins (v.contents p) := by
  simp [Params.showBody, allEvents, events, after, wregPins, showEvents, contents]

/-- What the edge that takes a SHOW leaves: the show program at its first word, the errors cleared (43_programs.md
R203), and the pins and the bytes as they were. -/
structure ShowTaken (s u : State) : Prop where
  code : AtCode s.cfg.showProgram u
  cfg : u.cfg = s.cfg
  prog : u.prog = .showProg
  upc : u.upc = s.cfg.showEntry
  initDone : u.initDone = s.initDone
  reqErr : u.reqErr = false
  errCode : u.errCode = 0
  effect : picture u = picture s
  trace : u.trace = s.trace

theorem step_showTaken (h : AboutToTake w .showFb s) (hurom : s.urom = s.cfg.urom) (hq : QuietFor 1 s) :
    ∃ u, step s = .next u ∧ ShowTaken s u := by
  obtain ⟨hm, hpend, hv, hd, e, r, hin, hvalid, rfl⟩ := h
  have he : e ∈ s.inputs.take 1 := by simp [hin]
  have hmode : s.mode ≠ .busy := by simp [hm]
  have hstep : step s = .next (atPorts e s).enterShow := by
    rw [step_request hmode hin (undisturbed_of_calm (hq.1.2 e he)) hvalid, takeRequest, hd]
    exact exec_idle (by simpa using hm) rfl
  have hcode : AtCode s.cfg.showProgram (atPorts e s).enterShow :=
    ⟨rfl, .inr rfl, by simpa using hpend, by simpa using hv, by simp [hurom, urom_drop_showEntry]⟩
  have hfb : (atPorts e s).fb = s.fb := atPorts_fb e s (hq.2 e he)
  exact ⟨_, hstep, hcode, by simp, rfl, by simp, by simp, rfl, rfl,
    picture_of_sameBytes (by simp) fun a => by simp [hfb], by simp⟩

/-- A phase at whose start both DC and CS move (43_programs.md R215). -/
def fullPhase (dc : Bool) (bytes : List Byte) : List Event :=
  .pin .dc dc :: .pin .cs false :: bytes.map (fun b => Event.byte b dc) ++ [Event.pin .cs true]

theorem phaseEvents_eq_fullPhase {pins : BitVec 4} {dc : Bool} (hdc : pinLevel pins .dc ≠ dc)
    (hcs : pinLevel pins .cs = true) (bytes : List Byte) : phaseEvents pins dc bytes = fullPhase dc bytes := by
  simp [phaseEvents, driveEvents, hdc, hcs, fullPhase]

/-- A register write from DC and CS high is two such phases. -/
theorem wregEvents_of_high {pins : BitVec 4} (hdc : pinLevel pins .dc = true) (hcs : pinLevel pins .cs = true)
    (index value : Half) :
    wregEvents pins index value = fullPhase false (wireBytes index) ++ fullPhase true (wireBytes value) := by
  rw [wregEvents, phaseEvents_eq_fullPhase (by simp [hdc]) hcs,
    phaseEvents_eq_fullPhase (by simp [pinLevel_phasePins]) (by simp [pinLevel_phasePins])]

/-- A SHOW from DC and CS high is made of such phases only, the last of them STREAM's. -/
theorem showEvents_of_high {pins : BitVec 4} (contents : List Byte) (hdc : pinLevel pins .dc = true)
    (hcs : pinLevel pins .cs = true) :
    showEvents p pins contents = List.flatten
      [fullPhase false (wireBytes 0x0003), fullPhase true (wireBytes 0x1018),
       fullPhase false (wireBytes 0x0036), fullPhase true (wireBytes p.lastRow),
       fullPhase false (wireBytes 0x0037), fullPhase true (wireBytes 0x0000),
       fullPhase false (wireBytes 0x0038), fullPhase true (wireBytes p.lastColumn),
       fullPhase false (wireBytes 0x0039), fullPhase true (wireBytes 0x0000),
       fullPhase false (wireBytes 0x0020), fullPhase true (wireBytes p.lastRow),
       fullPhase false (wireBytes 0x0021), fullPhase true (wireBytes 0x0000),
       fullPhase false (wireBytes 0x0022), fullPhase true contents] := by
  have hdc' : pinLevel (wregPins pins) .dc = true := by simp [wregPins, pinLevel_phasePins]
  have hcs' : pinLevel (wregPins pins) .cs = true := by simp [wregPins, pinLevel_phasePins]
  have hcommand := phaseEvents_eq_fullPhase (dc := false) (by simp [hdc']) hcs' (wireBytes 0x0022)
  have hstream := phaseEvents_eq_fullPhase (pins := phasePins (wregPins pins) false) (dc := true)
    (by simp [pinLevel_phasePins]) (by simp [pinLevel_phasePins]) contents
  simp only [showEvents, wregEvents_of_high hdc hcs, wregEvents_of_high hdc' hcs', hcommand, hstream, List.flatten_cons,
    List.flatten_nil, List.append_assoc, List.append_nil]

/-- Settles O31: the request, then `run_program`; at the defaults every phase starts from DC and CS high or from a
command phase. -/
theorem showRuns : Obligations.ShowRuns := by
  refine ⟨fun w s h hurom hq => ?_, fun p pins contents hw hh hdc hcs => ?_⟩
  · obtain ⟨u, hstep, hu⟩ := step_showTaken h hurom (hq.mono (Nat.le_add_right ..))
    have hrest := hq.drop (runsTo_one hstep).inputs
    have hnodelay : ∀ ms, .delay ms ∈ s.cfg.showBody → 1 ≤ u.cfg.clkPerMs := by simp [Params.showBody]
    rw [← hu.cfg] at hrest hnodelay
    obtain ⟨t, hrun, ht⟩ := run_program (hu.cfg ▸ hu.code) (showBody_ok u.cfg) hnodelay hrest
    rw [hu.cfg] at hrun
    have heffect := ht.effect
    rw [Picture.afterAll_showBody, hu.effect] at heffect
    refine ⟨t, runsTo_add (runsTo_one hstep) hrun, ht.mode, ht.prog, ?_, ?_, ht.reqErr.trans hu.reqErr,
      ht.errCode.trans hu.errCode, congrArg Picture.pins heffect, congrFun (congrArg Picture.bytes heffect), ?_⟩
    · rw [ht.upc, hu.upc, showBody_length, Params.showEntry, Params.uromLen]
      omega
    · rw [ht.initDone, hu.prog, hu.initDone]
      rfl
    · rw [ht.trace, hu.trace, Picture.allEvents_showBody, hu.effect, hu.cfg, picture_contents]
      rfl
  · have hrow : p.lastRow = 0x00AF := by rw [Params.lastRow, hh]; rfl
    have hcolumn : p.lastColumn = 0x00DB := by rw [Params.lastColumn, hw]; rfl
    simp [showEvents_of_high contents hdc hcs, fullPhase, wireBytes, highByte, lowByte, hrow, hcolumn]

/-! ### INIT (43_programs.md R211, R214) -/

/-- The words of the init table show its events and leave the pins it leaves (43_programs.md R205, R214). -/
theorem Picture.afterAll_table (v : Picture) (t : List TableEntry) :
    v.afterAll p (t.map TableEntry.instr) = { v with pins := tablePins v.pins t } := by
  induction t generalizing v with
  | nil => rfl
  | cons e t ih => cases e <;> exact ih _

theorem Picture.allEvents_table (v : Picture) (t : List TableEntry) :
    v.allEvents p (t.map TableEntry.instr) = tableEvents v.pins t := by
  induction t generalizing v with
  | nil => rfl
  | cons e t ih => cases e <;> exact congrArg _ (ih _)

/-- A phase after the table leaves the pins it would have left without it. -/
theorem phasePins_tablePins (pins : BitVec 4) (t : List TableEntry) (dc : Bool) :
    phasePins (tablePins pins t) dc = phasePins pins dc := by
  induction t generalizing pins with
  | nil => rfl
  | cons e t ih =>
    cases e with
    | reg i x => rw [tablePins, ih, wregPins, phasePins_phasePins]
    | delay ms => exact ih pins

/-- The pins after steps (a) to (c): RST high, CS at INIT_CS_LEVEL, DC and the backlight low (43_programs.md R211). -/
def headPins (p : Params) : BitVec 4 := if p.initCsLevel then 0b0101 else 0b0001

theorem Picture.afterAll_initHead (bytes : Nat → Byte) :
    Picture.afterAll p ⟨0b0100, bytes⟩ p.initHead = ⟨headPins p, bytes⟩ := by
  cases hcs : p.initCsLevel <;> simp [Params.initHead, headPins, hcs, afterAll, after, maskedPins]

/-- The trace of steps (a) to (c) (43_programs.md R214). -/
theorem Picture.allEvents_initHead (bytes : Nat → Byte) :
    Picture.allEvents p ⟨0b0100, bytes⟩ p.initHead = List.flatten
      [if p.initCsLevel then [] else [.pin .cs false],
       [.wait 150, .pin .rst true, .wait 150, .pin .rst false, .wait 150, .pin .rst true, .wait 50]] := by
  cases hcs : p.initCsLevel <;>
    simp [Params.initHead, hcs, allEvents, events, after, maskedPins, maskedEvents, pinOrder, pinBit, pinLevel]

theorem filledBytes_zero {a : Nat} (bytes : Nat → Byte) (ha : a < p.fbBytes) : filledBytes p 0 bytes a = 0 := by
  rw [filledBytes, if_pos ha, fillByteAt]
  split <;> rfl

/-- A STREAM after a FILL with 0 sends a black frame. -/
theorem Picture.contents_black (pins : BitVec 4) (bytes : Nat → Byte) :
    Picture.contents p ⟨pins, filledBytes p 0 bytes⟩ = List.replicate p.fbBytes 0 := by
  rw [contents, List.map_congr_left fun a ha => filledBytes_zero bytes (List.mem_range.1 ha), List.map_const',
    List.length_range]

/-- The pins when the show words of INIT are done: only the backlight is still low. -/
theorem phasePins_table (p : Params) : phasePins (tablePins (headPins p) p.initTable) true = 0b0111 := by
  rw [phasePins_tablePins, headPins]
  cases p.initCsLevel <;> rfl

/-- The init program turns the backlight on last and leaves a black frame (43_programs.md R211). -/
theorem Picture.afterAll_progBody (bytes : Nat → Byte) :
    Picture.afterAll p ⟨0b0100, bytes⟩ (progBody p) = ⟨0b1111, filledBytes p 0 bytes⟩ := by
  simp only [progBody, afterAll_append, afterAll_initHead, afterAll_table, afterAll_showBody]
  simp [afterAll, after, phasePins_table, maskedPins]

/-- The trace of the init program, stage by stage (43_programs.md R214). -/
theorem Picture.allEvents_progBody (bytes : Nat → Byte) :
    Picture.allEvents p ⟨0b0100, bytes⟩ (progBody p) = List.flatten
      [if p.initCsLevel then [] else [.pin .cs false],
       [.wait 150, .pin .rst true, .wait 150, .pin .rst false, .wait 150, .pin .rst true, .wait 50],
       tableEvents (headPins p) p.initTable,
       showEvents p (tablePins (headPins p) p.initTable) (List.replicate p.fbBytes 0),
       [.wait 50, .pin .bl true]] := by
  have hfill (v : Picture) : v.afterAll p [.fill 0] = { v with bytes := filledBytes p 0 v.bytes } := rfl
  have hlight : maskedEvents 0b0111 8 8 = [.pin .bl true] := rfl
  simp only [progBody, allEvents_append, afterAll_append, allEvents_initHead, afterAll_initHead, allEvents_table,
    afterAll_table, allEvents_showBody, afterAll_showBody, hfill, contents_black, phasePins_table, allEvents, events,
    after, hlight]
  simp

/-- After reset the init program is at its first word. -/
theorem atCode_powerOn (p : Params) (ins : List EdgeIn) :
    AtCode (progBody p ++ .endProg :: p.showProgram) { State.powerOn p with inputs := ins } := by
  refine ⟨rfl, .inl rfl, rfl, rfl, ?_⟩
  show p.urom = _
  rw [urom_eq, initProgram_eq, ← List.map_append, List.append_assoc]
  rfl

/-- Settles O32: `run_program` from the reset state, with the picture and the trace of the init program. -/
theorem initRuns : Obligations.InitRuns := by
  intro p ins hlegal hq tablePins0 stages
  rw [initProgram_eq] at hq ⊢
  obtain ⟨t, hrun, ht⟩ := run_program (atCode_powerOn p ins) (progBody_ok p) (fun _ _ => p.clkPerMs_of_legal hlegal) hq
  have heffect : picture t = ⟨0b1111, filledBytes p 0 _⟩ := ht.effect.trans (Picture.afterAll_progBody _)
  refine ⟨t, hrun, ht.mode, ht.prog, ht.initDone, ?_, ht.reqErr, ht.errCode, congrArg Picture.pins heffect, ht.pending,
    ht.txv, fun a ha => ?_, ?_⟩
  · rw [ht.upc, progBody_length]
    show 0 + (21 + p.initTable.length) + 1 = _
    omega
  · exact (congrFun (congrArg Picture.bytes heffect) a).trans (filledBytes_zero _ ha)
  · exact ht.trace.trans (congrArg (Event.reset :: ·) (Picture.allEvents_progBody (p := p) _))

end Sys2Proof.Machine

/-! SUPPORT. The color encoder (44_color_encoder.md R240 to R247): the kept bits of a channel, the packed value from
its three parts, and the byte swap. -/

namespace Sys2Proof.Machine

variable {m n : Nat} {r5 : BitVec 5} {g6 : BitVec 6} {b5 : BitVec 5} {r g b : Byte} {v : Half}

/-! ### A word cut in two -/

/-- A word is its high part followed by its low part. -/
theorem append_eq_iff {hi : BitVec m} {lo : BitVec n} {x : BitVec (m + n)} :
    hi ++ lo = x ↔ hi = x.extractLsb' n m ∧ lo = x.extractLsb' 0 n := by
  constructor
  · rintro rfl
    exact ⟨BitVec.extractLsb'_append_eq_left.symm, BitVec.extractLsb'_append_eq_right.symm⟩
  · rintro ⟨rfl, rfl⟩
    exact BitVec.extractLsb'_append_extractLsb'

/-- The words with given high bits are these bits extended by any low bits. -/
theorem extractLsb'_eq_iff_exists_append {hi : BitVec m} {x : BitVec (m + n)} :
    x.extractLsb' n m = hi ↔ ∃ lo : BitVec n, x = hi ++ lo := by
  constructor
  · rintro rfl
    exact ⟨x.extractLsb' 0 n, BitVec.extractLsb'_append_extractLsb'.symm⟩
  · rintro ⟨lo, rfl⟩
    exact BitVec.extractLsb'_append_eq_left

/-- The high bits are the number shifted right. -/
theorem toNat_extractLsb'_high (x : BitVec (m + n)) : (x.extractLsb' n m).toNat = x.toNat >>> n := by
  rw [BitVec.extractLsb'_toNat, Nat.mod_eq_of_lt]
  rw [Nat.shiftRight_eq_div_pow, Nat.div_lt_iff_lt_mul (Nat.two_pow_pos n), ← Nat.pow_add]
  exact x.isLt

/-- A part of a part, inside it, is a part of the whole. -/
theorem extractLsb'_extractLsb' {w start len start' len' : Nat} (x : BitVec w) (h : start' + len' ≤ len) :
    (x.extractLsb' start len).extractLsb' start' len' = x.extractLsb' (start + start') len' := by
  apply BitVec.eq_of_getLsbD_eq
  intro k hk
  simp [hk, show start' + k < len by omega, Nat.add_assoc]

/-! ### The packed value -/

/-- A value is packed from exactly one triple: its bits 15:11, 10:5 and 4:0 (44_color_encoder.md R242). -/
theorem pack565_eq_iff :
    pack565 r5 g6 b5 = v ↔ r5 = v.extractLsb' 11 5 ∧ g6 = v.extractLsb' 5 6 ∧ b5 = v.extractLsb' 0 5 := by
  calc pack565 r5 g6 b5 = v
    _ ↔ r5 ++ g6 = v.extractLsb' 5 11 ∧ b5 = v.extractLsb' 0 5 := append_eq_iff
    _ ↔ _ := by
      rw [append_eq_iff, extractLsb'_extractLsb' v (by decide), extractLsb'_extractLsb' v (by decide), and_assoc]

/-- The high byte of a packed value is `{r5, g6[5:3]}` (44_color_encoder.md R241). -/
theorem highByte_of_pack565 (h : pack565 r5 g6 b5 = v) : highByte v = r5 ++ g6.extractLsb' 3 3 := by
  obtain ⟨rfl, rfl, rfl⟩ := pack565_eq_iff.1 h
  rw [extractLsb'_extractLsb' v (by decide)]
  exact (BitVec.extractLsb'_append_extractLsb'_eq_extractLsb' (start₁ := 8) (len₁ := 3) (len₂ := 5) rfl).symm

/-- The low byte of a packed value is `{g6[2:0], b5}` (44_color_encoder.md R241). -/
theorem lowByte_of_pack565 (h : pack565 r5 g6 b5 = v) : lowByte v = g6.extractLsb' 0 3 ++ b5 := by
  obtain ⟨rfl, rfl, rfl⟩ := pack565_eq_iff.1 h
  rw [extractLsb'_extractLsb' v (by decide)]
  exact (BitVec.extractLsb'_append_extractLsb'_eq_extractLsb' (start₁ := 0) (len₁ := 5) (len₂ := 3) rfl).symm

/-- The packed value of three channels as a number (44_color_encoder.md R244). -/
theorem toNat_packRgb (r g b : Byte) : (packRgb r g b).toNat =
    ((r.toNat >>> 3) <<< 11) ||| ((g.toNat >>> 2) <<< 5) ||| (b.toNat >>> 3) := by
  have hred : (r.extractLsb' 3 5).toNat = r.toNat >>> 3 := toNat_extractLsb'_high (n := 3) (m := 5) r
  have hgreen : (g.extractLsb' 2 6).toNat = g.toNat >>> 2 := toNat_extractLsb'_high (n := 2) (m := 6) g
  have hblue : (b.extractLsb' 3 5).toNat = b.toNat >>> 3 := toNat_extractLsb'_high (n := 3) (m := 5) b
  rw [packRgb, pack565, BitVec.toNat_append, BitVec.toNat_append, hred, hgreen, hblue, Nat.shiftLeft_or_distrib,
    ← Nat.shiftLeft_add]

/-- The channels that pack to a value are the value's three parts, each extended by any low bits. -/
theorem packRgb_eq_iff : packRgb r g b = v ↔
    (∃ d : BitVec 3, r = v.extractLsb' 11 5 ++ d) ∧ (∃ d : BitVec 2, g = v.extractLsb' 5 6 ++ d) ∧
      ∃ d : BitVec 3, b = v.extractLsb' 0 5 ++ d := by
  rw [packRgb, pack565_eq_iff]
  exact and_congr extractLsb'_eq_iff_exists_append
    (and_congr extractLsb'_eq_iff_exists_append extractLsb'_eq_iff_exists_append)

/-! ### The byte swap -/

theorem swap16_involutive : Function.Involutive swap16 := by
  intro v
  rw [swap16, swap16, lowByte_halfOf, highByte_halfOf, halfOf_bytes]

/-- Settles O58: the swapped halves of the packed value, and `swap16` undoing the swap. -/
theorem colorEncoder : Obligations.ColorEncoder := by
  intro r g b
  constructor
  · rw [colorFromRgb, swap16, packRgb, highByte_of_pack565 rfl, lowByte_of_pack565 rfl,
      extractLsb'_extractLsb' g (by decide), extractLsb'_extractLsb' g (by decide)]
    exact BitVec.append_assoc'
  · rw [colorFromRgb, swap16_involutive, toNat_packRgb]

/-- Settles O59: the kept bits are the three parts of the swapped value, and the dropped bits are free. -/
theorem colorManyToOne : Obligations.ColorManyToOne := by
  intro v
  refine ⟨(swap16 v).extractLsb' 11 5, (swap16 v).extractLsb' 5 6, (swap16 v).extractLsb' 0 5, ?_, fun r g b => ?_⟩
  · rintro ⟨d₁, d₂, d₃⟩ ⟨e₁, e₂, e₃⟩ h
    obtain ⟨hr, hg, hb⟩ := by simpa only [Prod.mk.injEq] using h
    rw [(BitVec.append_right_inj _).1 hr, (BitVec.append_right_inj _).1 hg, (BitVec.append_right_inj _).1 hb]
  · rw [colorFromRgb, swap16_involutive.eq_iff, packRgb_eq_iff]
    constructor
    · rintro ⟨⟨d₁, rfl⟩, ⟨d₂, rfl⟩, ⟨d₃, rfl⟩⟩
      exact ⟨(d₁, d₂, d₃), rfl⟩
    · rintro ⟨⟨d₁, d₂, d₃⟩, h⟩
      obtain ⟨hr, hg, hb⟩ := by simpa only [Prod.mk.injEq] using h
      exact ⟨⟨d₁, hr⟩, ⟨d₂, hg⟩, ⟨d₃, hb⟩⟩

end Sys2Proof.Machine

/-! SUPPORT. Requests at the host's port (45_host_ops.md R260 to R269): which words are accepted, which are turned away
in IDLE and in FAULT, and the run of a host microword from its request back to IDLE. -/

namespace Sys2Proof.Machine

variable {i e : EdgeIn} {s g : State} {w : Microword} {j : Instr} {acts : List Action}

/-! ### Taking a request (45_host_ops.md R260) -/

theorem takeRequest_of_ok (h : decode w = .ok j) : takeRequest w s = exec j s := by
  rw [takeRequest, h]

theorem takeRequest_of_reserved {op : Opcode} (h : decode w = .error (.reservedBits op)) :
    takeRequest w s = .next (rejectMalformed op s) := by
  rw [takeRequest, h]

/-- In IDLE, and in FAULT whatever `tx_fault` is, an edge without reset is the request port's (60_exceptions.md R286,
R291). -/
theorem edgeStep_port (hm : s.mode ≠ .busy) (hr : i.rst = false) (hf : i.txFault = false ∨ s.mode = .fault) :
    edgeStep i s = portStep i (atPorts i s) := by
  rcases hmode : s.mode with _ | _ | _
  · have hnofault : i.txFault = false := hf.resolve_right (by simp [hmode])
    simp [edgeStep, hr, hnofault, hmode]
  · exact absurd hmode hm
  · simp [edgeStep, hr, hmode]

/-- Settles O7: the edge is the request port's, and the offered word decodes. -/
theorem stepRunsRequestedInstruction : Obligations.StepRunsRequestedInstruction := by
  intro j s hm hr hf hv hd
  refine ⟨?_, atPorts_sameSequencer ..⟩
  rw [step, edgeStep_port hm hr hf, portStep, if_pos hv, takeRequest_of_ok hd]

/-! ### Words turned away (45_host_ops.md R262, R263) -/

/-- The code of a rejection, by the number of OP: 4 to 8 are the operations that the host may not ask for. -/
theorem malformedCause_code (w : Microword) :
    (malformedCause (opcodeOf w)).code = if 4 ≤ (fieldOp w).toNat ∧ (fieldOp w).toNat ≤ 8 then 2 else 3 := by
  rw [opcodeOf]
  generalize fieldOp w = c
  revert c
  decide

/-- A word that is not well-formed for the host is rejected for its OP, also where its must-be-0 bits are clear. -/
theorem takeRequest_illFormed (hm : s.mode = .idle) (hw : wordWellFormed .host w = false) :
    takeRequest w s = .next (s.reject (malformedCause (opcodeOf w))) := by
  by_cases hclear : reservedClear w = true
  · have hl : (opcodeOf w).legalHost = false := by
      simpa [wordWellFormed, Opcode.legalIn, hclear] using hw
    rw [takeRequest_of_ok (decode_of_clear hclear), exec_idle_illegal hm (by simpa using hl), malformedCause, hl]
    rfl
  · rw [takeRequest_of_reserved (decode_of_reserved hclear), rejectMalformed, hm]

/-- Settles O11: the rejection's code is that of the word's OP. -/
theorem rejectedRequests : Obligations.RejectedRequests := by
  intro w s hm hw
  rw [takeRequest_illFormed hm hw, State.reject, malformedCause_code]

/-- In FAULT every word but that of INIT is turned away. -/
theorem takeRequest_fault (hm : s.mode = .fault) (hw : w ≠ encode .init) :
    takeRequest w s = .next s.refuseInFault := by
  by_cases hclear : reservedClear w = true
  · have hd := decode_of_clear hclear
    rw [takeRequest_of_ok hd]
    exact exec_fault hm fun hinit => hw (encode_of_decode (hinit ▸ hd)).symm
  · rw [takeRequest_of_reserved (decode_of_reserved hclear), rejectMalformed, hm]

/-- Settles O12: the word of INIT is accepted and `uw` keeps what it held; another word is turned away. -/
theorem requestsInFault : Obligations.RequestsInFault := by
  intro w s hm
  refine ⟨s.uw, ?_⟩
  split
  next hw =>
    have hinit : decode w = .ok .init := decode_eq_ok_iff.2 hw.symm
    exact (takeRequest_of_ok hinit).trans (exec_init_fault hm)
  next hw => exact takeRequest_fault hm hw

/-! ### Words accepted in IDLE (45_host_ops.md R261) -/

/-- Settles O17: `exec_idle`, the actions of the four operations written out. -/
theorem hostPhaseWordsAccepted : Obligations.HostPhaseWordsAccepted :=
  fun _ _ _ hm => ⟨exec_idle hm rfl, exec_idle hm rfl, exec_idle hm rfl, exec_idle hm rfl⟩

/-- Settles O18: `exec_idle`, a stub having no action. -/
theorem hostStubsAccepted : Obligations.HostStubsAccepted :=
  fun _ _ hm => ⟨exec_idle hm rfl, exec_idle hm rfl, exec_idle hm rfl, exec_idle hm rfl, exec_idle hm rfl⟩

/-- The operations that run as a host microword: those legal from the host that start no program. -/
def isHostOp : Instr → Bool
  | .nop | .wreg _ _ | .wcmd _ | .wdat _ | .powerOff | .powerOn | .contrast _ | .invert _ | .rotate _ => true
  | .delay _ | .pins _ _ | .fill _ | .stream | .endProg | .init | .showFb => false

theorem exec_idle_hostOp (hm : s.mode = .idle) (hj : isHostOp j = true) :
    exec j s = .next (s.acceptRequest j (actionsOf s.cfg j)) := by
  cases j with
  | nop | wreg | wcmd | wdat | powerOff | powerOn | contrast | invert | rotate => exact exec_idle hm rfl
  | delay | pins | fill | stream | endProg | init | showFb => exact absurd hj Bool.false_ne_true

/-! ### The run of a host microword (40_phase_sequencer.md R126, 70_reset_and_hazards.md R341) -/

/-- The edge that takes a host microword. -/
theorem step_hostTaken (h : AboutToTake w j s) (hj : isHostOp j = true) (hu : UndisturbedFor 1 s) :
    ∃ e, s.inputs = e :: s.inputs.tail ∧ step s = .next ((atPorts e s).acceptRequest j (actionsOf s.cfg j)) := by
  obtain ⟨hm, -, -, hd, e, r, hin, hvalid, rfl⟩ := h
  have hidle : s.mode ≠ .busy := by simp [hm]
  have hexec := exec_idle_hostOp (s := atPorts e s) (by simpa using hm) hj
  refine ⟨e, by simp [hin], ?_⟩
  rw [step_request hidle hin (hu.2 e (by simp [hin])) hvalid, takeRequest_of_ok hd, hexec, State.atPorts_cfg]

/-- A host microword is done when what ran between its request and its completion kept the sequencer's registers. -/
theorem hostWordDone_of_kept (hw : encode j = w) (hk : Kept ((atPorts e s).acceptRequest j acts) g)
    (hp : g.pending = []) (hv : g.txv = false) : HostWordDone w s (atPorts i g).completeHostOp where
  cfg := by simp [hk.cfg]
  urom := by simp [hk.urom]
  mode := rfl
  prog := rfl
  upc := by simp [hk.upc]
  uw := by simp [hk.uw, hw]
  pending := by simpa using hp
  txv := by simpa using hv
  initDone := by simp [hk.initDone]
  reqErr := by simp [hk.reqErr]
  errCode := by simp [hk.errCode]

/-- A host microword without actions is completed by the edge after its request. -/
theorem run_emptyHostWord (h : AboutToTake w j s) (hj : isHostOp j = true) (hacts : actionsOf s.cfg j = [])
    (hu : UndisturbedFor 2 s) :
    ∃ u t, RunsTo 1 s u ∧ u.mode = .busy ∧ RunsTo 2 s t ∧ HostWordDone w s t ∧ t.trace = s.trace ∧
      t.pins = s.pins ∧ t.sc = s.sc ∧ t.txb = s.txb ∧ t.dlyMs = s.dlyMs ∧ t.dlyPre = s.dlyPre ∧
      ((∀ e ∈ s.inputs.take 2, noHostWrite e = true) → SameBytes s t) := by
  obtain ⟨e, hin, hstep⟩ := step_hostTaken h hj (hu.mono (by omega))
  obtain ⟨-, -, hv, hd, -⟩ := h
  rw [hacts] at hstep
  have hdrop : ((atPorts e s).acceptRequest j []).inputs = s.inputs.drop 1 := by simp
  obtain ⟨i, hin', hcomplete⟩ := step_complete rfl rfl rfl (hu.drop (m := 1) hdrop)
  refine ⟨_, _, runsTo_one hstep, rfl, runsTo_add (runsTo_one hstep) (runsTo_one hcomplete),
    hostWordDone_of_kept (encode_of_decode hd) (Kept.refl _) rfl (by simpa using hv), by simp, by simp, by simp,
    by simp, by simp, by simp, fun hq a => ?_⟩
  rw [show 2 = 1 + 1 from rfl, List.take_add, List.forall_mem_append, ← hdrop] at hq
  have he : (atPorts e s).fb = s.fb := atPorts_fb e s (hq.1 e (by rw [hin]; simp))
  have hi := atPorts_fb i ((atPorts e s).acceptRequest j []) (hq.2 i (by rw [hin']; simp))
  simp [hi, he]

/-- What a host microword leaves whose actions are pins, drains and sends of given bytes. -/
structure HostActionsDone (w : Microword) (acts : List Action) (s t : State) : Prop where
  done : HostWordDone w s t
  sc : t.sc = s.sc
  dlyMs : t.dlyMs = s.dlyMs
  dlyPre : t.dlyPre = s.dlyPre
  pins : t.pins = pinsAfter s.pins acts
  trace : t.trace = s.trace ++ actEvents s.fb s.sc s.pins acts
  bytes : QuietFor (1 + acts.length + 1) s → SameBytes s t

/-- Such a word takes its request, one calm edge for each action, and its completion. -/
theorem run_hostWord (h : AboutToTake w j s) (hj : isHostOp j = true)
    (hacts : ∀ a ∈ actionsOf s.cfg j, phaseAction a = true) (hcount : sendCount (actionsOf s.cfg j) = 0)
    (hc : CalmFor (1 + (actionsOf s.cfg j).length + 1) s) :
    ∃ t, RunsTo (1 + (actionsOf s.cfg j).length + 1) s t ∧ HostActionsDone w (actionsOf s.cfg j) s t := by
  obtain ⟨e, hin, hstep⟩ := step_hostTaken h hj (.of_calm (hc.mono (by omega)))
  obtain ⟨-, -, hv, hd, -⟩ := h
  have hdrop : ((atPorts e s).acceptRequest j (actionsOf s.cfg j)).inputs = s.inputs.drop 1 := by simp
  have hdisp : Dispatched ((atPorts e s).acceptRequest j (actionsOf s.cfg j)) :=
    .of_noSend (by simpa using hv) (acts_ok s.cfg j).head
  obtain ⟨g, hrun, hk, hpend, hgv, hpins, htrace, hsc, hms, hpre, hgin, hfb⟩ :=
    run_phaseActions (actionsOf s.cfg j) _ rfl rfl hacts hdisp ((hc.mono (Nat.le_succ _)).drop hdrop)
      (absurd hcount) (absurd hcount)
  have hrest : g.inputs = s.inputs.drop (1 + (actionsOf s.cfg j).length) := by rw [hgin, hdrop, List.drop_drop]
  obtain ⟨i, hin', hcomplete⟩ := step_complete hk.mode hpend hk.prog (.of_calm (hc.drop hrest))
  refine ⟨_, runsTo_add (runsTo_add (runsTo_one hstep) hrun) (runsTo_one hcomplete),
    hostWordDone_of_kept (encode_of_decode hd) hk hpend hgv, ?_, ?_, ?_, ?_, ?_, ?_⟩
  · simp [hsc, hcount]
  · simp [hms]
  · simp [hpre]
  · simp [hpins]
  · simp [htrace, actEvents_noSend (atPorts e s).fb s.fb s.sc s.sc s.pins _ hcount]
  · intro hq a
    have he : (atPorts e s).fb = s.fb := atPorts_fb e s (hq.2 e (by rw [hin]; simp))
    have hg : g.fb = (atPorts e s).fb := hfb ((hq.mono (Nat.le_succ _)).drop hdrop).2
    have hi : (atPorts i g).fb = g.fb := atPorts_fb i g ((hq.drop hrest).2 i (by rw [hin']; simp))
    simp [hi, hg, he]

/-- A host microword that is one phase: `run_hostWord` with the phase's events and pins. -/
theorem run_hostPhaseWord {dc : Bool} {bytes : List Byte} (h : AboutToTake w j s) (hj : isHostOp j = true)
    (hacts : actionsOf s.cfg j = phase dc bytes) (hc : CalmFor (1 + (phase dc bytes).length + 1) s) :
    ∃ t, RunsTo (1 + (phase dc bytes).length + 1) s t ∧ HostWordDone w s t ∧
      t.trace = s.trace ++ phaseEvents s.pins dc bytes ∧ t.pins = phasePins s.pins dc ∧ t.sc = s.sc ∧
      t.dlyMs = s.dlyMs ∧ t.dlyPre = s.dlyPre ∧
      (QuietFor (1 + (phase dc bytes).length + 1) s → SameBytes s t) := by
  rw [← hacts] at hc ⊢
  have hphase : ∀ a ∈ actionsOf s.cfg j, phaseAction a = true := fun _ ha => phaseAction_of_mem_phase (hacts ▸ ha)
  obtain ⟨t, hrun, ht⟩ := run_hostWord h hj hphase (by simp [hacts]) hc
  refine ⟨t, hrun, ht.done, ?_, ?_, ht.sc, ht.dlyMs, ht.dlyPre, ht.bytes⟩
  · simp [ht.trace, hacts]
  · simp [ht.pins, hacts]

/-- A host WREG: its two phases, the second from the pins that the first leaves (40_phase_sequencer.md R122). -/
theorem run_hostWreg {a b : Half} (h : AboutToTake w (.wreg a b) s) (hc : CalmFor 14 s) :
    ∃ t, RunsTo 14 s t ∧ HostWordDone w s t ∧ t.trace = s.trace ++ wregEvents s.pins a b ∧
      t.pins = phasePins s.pins true ∧ t.sc = s.sc ∧ t.dlyMs = s.dlyMs ∧ t.dlyPre = s.dlyPre ∧
      (QuietFor 14 s → SameBytes s t) := by
  have hphase : ∀ x ∈ actionsOf s.cfg (.wreg a b), phaseAction x = true := fun x hx =>
    (List.mem_append.1 hx).elim phaseAction_of_mem_phase phaseAction_of_mem_phase
  obtain ⟨t, hrun, ht⟩ := run_hostWord h rfl hphase rfl hc
  refine ⟨t, hrun, ht.done, ?_, ?_, ht.sc, ht.dlyMs, ht.dlyPre, ht.bytes⟩
  · simp [ht.trace, actionsOf, commandPhase, dataPhase, actEvents_append, wregEvents]
  · simp [ht.pins, actionsOf, commandPhase, dataPhase, pinsAfter_append]

/-- Settles O30: WREG is two phases, WCMD and WDAT are one each, and NOP and the stubs have no action. -/
theorem hostWordsRun : Obligations.HostWordsRun := by
  refine fun w a b s => ⟨run_hostWreg, fun h hc => run_hostPhaseWord h rfl rfl hc,
    fun h hc => run_hostPhaseWord h rfl rfl hc, fun j hj h hu => ?_⟩
  have hempty : isHostOp j = true ∧ actionsOf s.cfg j = [] := by
    simp only [List.mem_cons, List.not_mem_nil, or_false] at hj
    rcases hj with rfl | rfl | rfl | rfl | rfl | rfl <;> exact ⟨rfl, rfl⟩
  exact run_emptyHostWord h hempty.1 hempty.2 hu

end Sys2Proof.Machine

/-! SUPPORT. Faults (60_exceptions.md): the order of one edge, the transport fault, the two faults of a fetch, and the
two ways out of FAULT. -/

namespace Sys2Proof.Machine

variable {i : EdgeIn} {s t : State} {w : Microword}

/-! ### The order of one edge (60_exceptions.md R291) -/

theorem edgeStep_reset (hr : i.rst = true) : edgeStep i s = .next ((atPorts i s).resetEdge s.rstHeld) := if_pos hr

theorem edgeStep_transportFault (hr : i.rst = false) (hf : i.txFault = true) (hm : s.mode ≠ .fault) :
    edgeStep i s = .next ((atPorts i s).transportFault i) := by
  simp [edgeStep, hr, hf, hm]

/-- The sequencer does not read the request wires. -/
theorem seqStep_request (i : EdgeIn) (v : Bool) (w : Microword) (s : State) :
    seqStep { i with reqValid := v, reqWord := w } s = seqStep i s := by
  unfold seqStep
  rcases s.pending with _ | ⟨a, rest⟩
  · rfl
  · cases a <;> rfl

/-- Nor do the ports: an edge in BUSY is the same whatever the request port shows. -/
theorem edgeStep_busy_request (hm : s.mode = .busy) (hu : undisturbed i = true) (v : Bool) (w : Microword) :
    edgeStep { i with reqValid := v, reqWord := w } s = edgeStep i s := by
  rw [edgeStep_busy hm hu, edgeStep_busy (i := { i with reqValid := v, reqWord := w }) hm hu]
  exact seqStep_request i v w (atPorts i s)

/-- Settles O8: the branches of an edge in their order; the step of the sequencer reads no request wire. -/
theorem edgePriority : Obligations.EdgePriority := by
  refine fun i s => ⟨edgeStep_reset, edgeStep_transportFault, fun hr hf hm => ?_,
    fun hr hf hm => edgeStep_port hm hr hf, decide_eq_true_iff⟩
  have hu : undisturbed i = true := by simp [undisturbed, hr, hf]
  exact ⟨edgeStep_busy hm hu, edgeStep_busy_request hm hu⟩

/-! ### The transport fault (60_exceptions.md R283, R284) -/

/-- The transport has kept the byte on offer at a transport fault, or not (10_state.md R33). -/
theorem transportFault_xportHeld (i : EdgeIn) (s : State) :
    (s.transportFault i).xportHeld = s.xportHeld ∨
    s.txv = true ∧ i.txReady = true ∧ (s.transportFault i).xportHeld = s.xportHeld ++ [s.txb] := by
  simp only [State.transportFault]
  split
  next h =>
    simp only [Bool.and_eq_true] at h
    obtain ⟨⟨hv, hready⟩, -⟩ := h
    exact .inr ⟨hv, hready, rfl⟩
  next => exact .inl rfl

/-- Settles O48: the fault is raised over what the ports leave, which write to the frame buffer what the host
does and note that an idle transport holds no byte. -/
theorem transportFault : Obligations.TransportFault := by
  intro i s hr hf hm
  refine ⟨_, edgeStep_transportFault hr hf hm, ?_⟩
  simpa [atPorts_fb_eq_hostPort] using transportFault_xportHeld i (atPorts i s)

/-! ### The faults of a fetch (60_exceptions.md R281, R282) -/

/-- A program between two words fetches over what the ports leave. -/
theorem step_eq_fetch (hm : s.mode = .busy) (hprog : s.prog = .initProg ∨ s.prog = .showProg) (hp : s.pending = [])
    (hu : undisturbed s.nextInput = true) : step s = fetch (atPorts s.nextInput s) := by
  calc step s
      = seqStep s.nextInput (atPorts s.nextInput s) := edgeStep_busy hm hu
    _ = betweenWords (atPorts s.nextInput s) := by simp only [seqStep, State.atPorts_pending, hp]
    _ = fetch (atPorts s.nextInput s) := betweenWords_program (by simpa using hprog)

theorem fetch_pastTheEnd (h : s.urom.length ≤ s.upc) : fetch s = .next (s.raiseFault .uromRange) := by
  have hnone : uromWord s.urom s.upc = none := by rw [uromWord_eq, List.getElem?_eq_none h]
  rw [fetch, hnone]

/-- A word that is not well-formed for UROM has a must-be-0 bit set or an operation of the host's alone. -/
theorem fetch_illFormed (hm : s.mode = .busy) (hw : uromWord s.urom s.upc = some w)
    (hill : wordWellFormed .urom w = false) : fetch s = .next ((s.fetched w).raiseFault .uromDecode) := by
  by_cases hclear : reservedClear w = true
  · have hl : (opcodeOf w).legalRom = false := by simpa [wordWellFormed, Opcode.legalIn, hclear] using hill
    rw [fetch_of_word hw (decode_of_clear hclear)]
    exact exec_busy_illegal hm (by simpa using hl)
  · simp only [fetch, hw, beginFetched, decode_of_reserved hclear]

/-- Settles O9: no word stands at `upc`; under the invariant `upc` is inside the UROM that R213 builds. -/
theorem fetchPastTheEndFaults : Obligations.FetchPastTheEndFaults := by
  refine ⟨fun s hm hprog hp hend hu => ?_, fun s h _ hprog hp => ?_⟩
  · have hfetch := fetch_pastTheEnd (s := atPorts s.nextInput s) (by simpa using hend)
    exact ⟨_, (step_eq_fetch hm hprog hp hu).trans hfetch, by simp [Cause.code]⟩
  · rw [h.uromBuilt, Params.urom, List.length_map, program_length]
    exact h.fetch_inside hprog hp

/-- Settles O10: the fault is raised over the fetched word, and every word of the UROM that R213 builds is
well-formed. -/
theorem illFormedRomWordFaults : Obligations.IllFormedRomWordFaults := by
  refine ⟨fun w s hm hprog hp hw hill hu => ?_, fun _ _ _ => wellFormed_of_uromWord⟩
  have hfetch := fetch_illFormed (s := atPorts s.nextInput s) (by simpa using hm) (by simpa using hw) hill
  exact ⟨_, (step_eq_fetch hm hprog hp hu).trans hfetch, by simp [Cause.code]⟩

/-! ### FAULT and the ways out of it (60_exceptions.md R286, R288) -/

theorem encode_init : encode .init = 0x900000000 := by decide

theorem takeRequest_init_fault (hm : s.mode = .fault) : takeRequest 0x900000000 s = .next s.enterInit :=
  (takeRequest_of_ok (decode_eq_ok_iff.2 encode_init)).trans (exec_init_fault hm)

/-- In FAULT an edge without reset does not read `tx_fault`. -/
theorem edgeStep_fault_txFault (hm : s.mode = .fault) (hr : i.rst = false) (f : Bool) :
    edgeStep { i with txFault := f } s = edgeStep i s := by
  have hbusy : s.mode ≠ .busy := by simp [hm]
  rw [edgeStep_port hbusy hr (.inr hm), edgeStep_port (i := { i with txFault := f }) hbusy hr (.inr hm)]
  rfl

/-- In FAULT an edge that takes the word of INIT starts the init microprogram. -/
theorem edgeStep_fault_init (hm : s.mode = .fault) (hr : i.rst = false) (hv : i.reqValid = true)
    (hw : i.reqWord = 0x900000000) : edgeStep i s = .next (atPorts i s).enterInit := by
  rw [edgeStep_port (by simp [hm]) hr (.inr hm), portStep, if_pos hv, hw]
  exact takeRequest_init_fault (by simpa using hm)

/-- Settles O49: of the five kinds of edge a transport fault and a step in BUSY cannot be; a reset and an INIT leave
FAULT, another request is turned away, and with none the ports alone work. -/
theorem faultLeftByInitOrReset : Obligations.FaultLeftByInitOrReset := by
  intro s t hm hs
  rcases edgeStep_next hs with ⟨hr, rfl⟩ | ⟨-, -, hnofault, -⟩ | ⟨-, -, hbusy, -⟩ | ⟨hr, -, -, hv, htake⟩ |
    ⟨hr, -, -, hv, rfl⟩
  · exact .inr (.inl ⟨hr, rfl, rfl, rfl⟩)
  · exact absurd hm hnofault
  · exact absurd (hm.symm.trans hbusy) (by decide)
  · by_cases hw : s.nextInput.reqWord = 0x900000000
    · rw [hw, takeRequest_init_fault (by simpa using hm)] at htake
      obtain rfl := Host.Outcome.next.inj htake
      exact .inr (.inr ⟨hr, hv, hw, by simp [State.enterInit, initEntry]⟩)
    · rw [takeRequest_fault (by simpa using hm) (by rwa [encode_init])] at htake
      obtain rfl := Host.Outcome.next.inj htake
      exact .inl ⟨hr, fun hinit => hw hinit.2, by simp [hm]⟩
  · exact .inl ⟨hr, by simp [hv], by simp [hm]⟩

/-- Settles O50: in FAULT `tx_fault` is not read; the edge after an INIT is one of BUSY, where it is. -/
theorem faultAgainAfterInit : Obligations.FaultAgainAfterInit := by
  refine ⟨fun i s hm hr => (edgeStep_fault_txFault hm hr false).symm,
    fun s i j r hm hin hr _ hv hw hr' hf' => ?_⟩
  have hinit : step s = .next (atPorts i s).enterInit := by
    rw [step, nextInput_cons hin, edgeStep_fault_init hm hr hv hw]
  have hnext : (atPorts i s).enterInit.nextInput = j := nextInput_cons (r := r) (by simp [hin])
  have hfault : step (atPorts i s).enterInit = .next ((atPorts j (atPorts i s).enterInit).transportFault j) := by
    rw [step, hnext, edgeStep_transportFault hr' hf' (by simp)]
  exact ⟨_, _, runsTo_one hinit, rfl, runsTo_add (runsTo_one hinit) (runsTo_one hfault), by simp⟩

end Sys2Proof.Machine

/-! SUPPORT. Runs of reset edges (70_reset_and_hazards.md R320, R44), and the field that tells whether one has begun
(log 8). -/

namespace Sys2Proof.Machine

variable {i : EdgeIn} {j : Instr} {a : Action} {acts : List Action} {s s' t u : State} {w : Microword} {n : Nat}

/-! ### Only the ports note whether an edge was one of reset (log 8) -/

theorem dispatchHead_rstHeld (h : dispatchHead s = .next t) : t.rstHeld = s.rstHeld := by
  rcases dispatchHead_next h with ⟨-, rfl⟩ | ⟨-, b, rfl, -⟩ <;> rfl

theorem Completes.rstHeld (h : Completes i a s s') : s'.rstHeld = s.rstHeld := by
  cases h with
  | setPin => simp
  | send | sendFb | drain | waiting | fillByte | finish => rfl

theorem perform_rstHeld (h : perform i a acts s = .next t) : t.rstHeld = s.rstHeld := by
  rcases perform_next h with ⟨s', hc, hd⟩ | rfl | ⟨-, -, hd⟩ | ⟨ms, -, rfl⟩ | ⟨ms, -, -, rfl⟩
  · exact (dispatchHead_rstHeld (s := s'.withPending acts) hd).trans hc.rstHeld
  · rfl
  · exact dispatchHead_rstHeld hd
  · rfl
  · simp

theorem exec_rstHeld (h : exec j s = .next t) : t.rstHeld = s.rstHeld := by
  obtain ⟨-, -, -, -, -, -, -, -, -, -, -, hheld, -⟩ := execFrame j s t h
  exact hheld

theorem takeRequest_rstHeld (h : takeRequest w s = .next t) : t.rstHeld = s.rstHeld := by
  rcases takeRequest_next h with ⟨op, -, rfl⟩ | ⟨j, -, hj⟩
  · unfold rejectMalformed
    split <;> rfl
  · exact exec_rstHeld hj

theorem seqStep_rstHeld (h : seqStep i s = .next t) : t.rstHeld = s.rstHeld := by
  unfold seqStep at h
  split at h
  · rcases betweenWords_next h with ⟨-, hf⟩ | ⟨-, rfl⟩ | ⟨-, rfl⟩
    · rcases fetch_next hf with ⟨-, rfl⟩ | ⟨w, -, ⟨op, -, rfl⟩ | ⟨j, -, hj⟩⟩
      · rfl
      · rfl
      · exact exec_rstHeld (s := s.fetched w) hj
    · rfl
    · rfl
  · exact perform_rstHeld h

/-- After an edge `rstHeld` tells whether it was one of reset. -/
theorem edgeStep_rstHeld (h : edgeStep i s = .next t) : t.rstHeld = i.rst := by
  rw [← State.atPorts_rstHeld (s := s) i]
  rcases edgeStep_next h with ⟨-, rfl⟩ | ⟨-, -, -, rfl⟩ | ⟨-, -, -, hq⟩ | ⟨-, -, -, -, hq⟩ | ⟨-, -, -, -, rfl⟩
  · rfl
  · rfl
  · exact seqStep_rstHeld hq
  · exact takeRequest_rstHeld hq
  · rfl

/-! ### A run of reset edges (70_reset_and_hazards.md R320) -/

/-- What `n` edges of reset, one at least, leave: the values that the last of them sets (10_state.md R44), and of the
state before them the parameters, UROM, the trace with one `Reset` at most, and what the host does not write. -/
structure ResetFor (n : Nat) (s t : State) : Prop where
  values : ∃ (b : Bool) (u : State), t = u.resetEdge b
  cfg : t.cfg = s.cfg
  urom : t.urom = s.urom
  trace : t.trace = if s.rstHeld then s.trace else s.trace ++ [.reset]
  rstHeld : t.rstHeld = true
  fb : (∀ i ∈ s.inputs.take n, noHostWrite i = true) → t.fb = s.fb

theorem step_reset {r : List EdgeIn} (hin : s.inputs = i :: r) (hr : i.rst = true) :
    ∃ u, step s = .next u ∧ u.inputs = r ∧ ResetFor 1 s u := by
  refine ⟨_, by rw [step, nextInput_cons hin, edgeStep_reset hr], by simp [hin], ?_⟩
  exact {
    values := ⟨_, _, rfl⟩
    cfg := by simp
    urom := by simp
    trace := by simp
    rstHeld := by simpa using hr
    fb := fun hw => atPorts_fb i s (hw i (by simp [hin])) }

/-- The edge before a run of reset edges appends the event of the longer run, if any: the run itself finds
`rstHeld` set. -/
theorem ResetFor.cons (hin : s.inputs = i :: u.inputs) (hone : ResetFor 1 s u) (h : ResetFor n u t) :
    ResetFor (n + 1) s t where
  values := h.values
  cfg := h.cfg.trans hone.cfg
  urom := h.urom.trans hone.urom
  trace := by rw [h.trace, if_pos hone.rstHeld, hone.trace]
  rstHeld := h.rstHeld
  fb hw := by
    rw [hin, List.take_succ_cons, List.forall_mem_cons] at hw
    obtain ⟨hfirst, hrest⟩ := hw
    exact (h.fb hrest).trans (hone.fb (by simpa [hin] using hfirst))

theorem run_reset (n : Nat) : ∀ s : State, n + 1 ≤ s.inputs.length → (∀ i ∈ s.inputs.take (n + 1), i.rst = true) →
    ∃ t, RunsTo (n + 1) s t ∧ ResetFor (n + 1) s t := by
  induction n with
  | zero =>
    intro s hl hrst
    obtain ⟨i, r, hin⟩ := List.exists_cons_of_length_pos hl
    obtain ⟨t, hs, -, hone⟩ := step_reset hin (hrst i (by simp [hin]))
    exact ⟨t, runsTo_one hs, hone⟩
  | succ n ih =>
    intro s hl hrst
    obtain ⟨i, r, hin⟩ := List.exists_cons_of_length_pos (Nat.zero_lt_of_lt hl)
    rw [hin, List.take_succ_cons, List.forall_mem_cons] at hrst
    obtain ⟨hr, hrest⟩ := hrst
    obtain ⟨u, hs, rfl, hone⟩ := step_reset hin hr
    obtain ⟨t, hrun, hreset⟩ := ih u (by simpa [hin] using hl) hrest
    exact ⟨t, (run_succ hs).trans hrun, .cons hin hone hreset⟩

/-- Settles O51, by induction on the number of edges: each leaves the reset values, and only the first can find
`rstHeld` unset. -/
theorem resetRun : Obligations.ResetRun := by
  refine ⟨fun n s hl hrst => ?_, fun s t hr h => (edgeStep_rstHeld h).trans hr⟩
  obtain ⟨t, hrun, hreset⟩ := run_reset n s hl hrst
  obtain ⟨b, u, rfl⟩ := hreset.values
  exact ⟨_, hrun, rfl, rfl, rfl, rfl, rfl, rfl, rfl, rfl, rfl, rfl, rfl, rfl, rfl, rfl, hreset.cfg, hreset.urom,
    hreset.trace, hreset.rstHeld, fun hw a => by rw [hreset.fb hw], step_eq_fetch rfl (.inl rfl) rfl⟩

end Sys2Proof.Machine
